-- ==== Sys2Proof/Config.lean ====
section
/-! DEFINITION. What an implementation fixes (spec 00 R5) and the free values the spec leaves open.
A constant with no body is free: no proof can see its value, so a theorem holds for every value.
The one free value that depends on the state, `Config.gatherLeft`, is in `Sys2Proof/Config/GatherLeft.lean`. -/

namespace Sys2Proof

/-- Width in bits of a full vector register, `MAXVL` of R5 and R10.
PRESUMED 512, the spec's default (D2); unsafe: a chip with wider registers zeroes more (log 1). -/
abbrev Config.maxVL : Nat := 512

/-- Width in bits of a mask register, `MAX_KL` of R5 and R12.
PRESUMED 64, the spec's default (D3); unsafe only for the upper bits a suspended gather may leave (log 1). -/
abbrev Config.maxKL : Nat := 64

/-- `NVREG` of R5: the number of vector registers an encoding can name in 64-bit mode.
PRESUMED 32, the spec's default (D4); unsafe (log 1). -/
abbrev Config.nvreg : Nat := 32

/-- `NVREG` of R5 in 32-bit mode. PRESUMED 8, the spec's default (D4); unsafe (log 1). -/
abbrev Config.nvreg32 : Nat := 8

/-- `NGPR` of R5: the number of general registers in 64-bit mode. PRESUMED 16, the spec's default (D4); unsafe (log 1). -/
abbrev Config.ngpr : Nat := 16

/-- `NGPR` of R5 in 32-bit mode. PRESUMED 8, the spec's default (D4); unsafe (log 1). -/
abbrev Config.ngpr32 : Nat := 8

/-- `GPRW` of R5 in 64-bit mode. PRESUMED 64, the spec's default (D4); unsafe (log 1). In 32-bit mode, where `GPRW` is 32,
an address size of at most 32 bits reads the low half (log 34). -/
abbrev Config.gprw : Nat := 64

/-- `NKREG` of R5: the number of mask registers. PRESUMED 8, the spec's default (D4); unsafe (log 1). -/
abbrev Config.nkreg : Nat := 8

/-- Number of implemented linear-address bits, `LA_BITS` of R5, for the canonical test of R41.
PRESUMED 48, the spec's default (D9); unsafe (log 36). -/
abbrev Config.laBits : Nat := 48

/-- `zd` of R90: does a suspended execution zero the destination above its elements?
A fresh free value for each count (D13; log 13). -/
opaque Config.zeroDestUpper : Nat → Bool

/-- `zk` of R90: does a suspended execution zero the mask bits at and above `KL`?
A fresh free value for each count, independent of `zd` (D13; log 13). -/
opaque Config.zeroMaskUpper : Nat → Bool

/-- R92: does a pending interrupt end this gather between elements? (D15; log 14). -/
opaque Config.interruptTaken : Nat → Bool

/-- R92: which readable active elements an interrupted gather has completed, bit `j` for element `j`
(D15; log 14). -/
opaque Config.interruptDone : Nat → BitVec 8

/-- U7: which of several pending traps and interrupts is delivered first (log 15). -/
opaque Config.pendingPick : Nat → Nat

end Sys2Proof
end

