-- ==== Sys2Proof/Word.lean ====
section
/-! DEFINITION. The word types (spec 00 R6). Bit 0 is the least significant bit. -/

namespace Sys2Proof

/-- One byte of memory or of an instruction. -/
abbrev Byte := BitVec 8

/-- A quadword: addresses, index elements (R6). -/
abbrev Qword := BitVec 64

/-- A general register, all `GPRW` bits of it (R13). -/
abbrev GprWord := BitVec Config.gprw

/-- A whole vector register, all `MAXVL` bits of it (R10). -/
abbrev VecWord := BitVec Config.maxVL

/-- A whole mask register, all `MAX_KL` bits of it (R12). -/
abbrev MaskWord := BitVec Config.maxKL

end Sys2Proof
end

