-- ==== Sys2Proof/Syntax.lean ====
section
/-! DEFINITION. The instructions: one constructor per row of spec/opcode_table.json (30 R76), each with
the operands its encoding carries (40 R81). Displacements are kept as encoded, so that the length is
a function of the instruction (30 R50, R62). -/

namespace Sys2Proof

/-- The six segment registers (10 R16). -/
inductive Seg where
  | cs | ds | es | ss | fs | gs
  deriving DecidableEq, Repr

/-- `SCALE`: 1, 2, 4 or 8 (30 R61). -/
inductive Scale where
  | x1 | x2 | x4 | x8
  deriving DecidableEq, Repr

/-- The displacement bytes after VSIB when there is a base register: none, one or four (30 R62). -/
inductive Disp where
  | absent
  | disp8 (d : BitVec 8)
  | disp32 (d : BitVec 32)
  deriving DecidableEq, Repr

/-- The base part of the memory operand: a base register with its displacement, or no base and a
four-byte displacement (30 R60, R62). -/
inductive Addr where
  | noBase (d : BitVec 32)
  | base (r : BitVec 4) (d : Disp)
  deriving DecidableEq, Repr

/-- The operands of a gather (40 R81), with the two prefixes that act on it (30 R51). -/
structure Operands where
  /-- `R' ++ R ++ ModRM.reg` (30 R58) -/
  dest : BitVec 5
  /-- `V' ++ X ++ VSIB.index` (30 R59) -/
  index : BitVec 5
  /-- `aaa` (30 R66) -/
  mask : BitVec 3
  addr : Addr
  scale : Scale
  /-- a segment-override prefix, if there is one (30 R51, R64) -/
  segOverride : Option Seg
  /-- is the prefix 67H present? (30 R51, R63) -/
  addrSizePrefix : Bool
  deriving DecidableEq, Repr

/-- The six forms of the instruction pair, named by mnemonic and index length (40 R80). -/
inductive Form where
  | qd128 | qd256 | qd512 | qq128 | qq256 | qq512
  deriving DecidableEq, Repr

/-- The instructions, one constructor per row of the opcode table. -/
inductive Instr where
  /-- `VPGATHERQD xmm1 {k1}, vm64x` (R100) -/
  | vpgatherqdXmmVm64x (o : Operands)
  /-- `VPGATHERQD xmm1 {k1}, vm64y` (R101) -/
  | vpgatherqdXmmVm64y (o : Operands)
  /-- `VPGATHERQD ymm1 {k1}, vm64z` (R102) -/
  | vpgatherqdYmmVm64z (o : Operands)
  /-- `VPGATHERQQ xmm1 {k1}, vm64x` (R110) -/
  | vpgatherqqXmmVm64x (o : Operands)
  /-- `VPGATHERQQ ymm1 {k1}, vm64y` (R111) -/
  | vpgatherqqYmmVm64y (o : Operands)
  /-- `VPGATHERQQ zmm1 {k1}, vm64z` (R112) -/
  | vpgatherqqZmmVm64z (o : Operands)
  deriving DecidableEq, Repr

end Sys2Proof
end

