-- ==== Sys2Proof/WellFormed.lean ====
section
/-! DEFINITION. Which instructions as syntax are well formed: the operand restrictions of 30 R60, R62, R66, R67
and 40 R81. A term that fails the `addr` check has no encoding at all; a term that fails one of the
other two has one, and executing it raises #UD (40 R86). -/

namespace Sys2Proof

/-- A base register whose low three bits are 101b cannot go without a displacement: `mod = 00b` with
that base field means no base (R60, R62). -/
def Addr.wf : Addr → Bool
  | .noBase _ => true
  | .base r d => !(decide (r.extractLsb' 0 3 = 5#3) && decide (d = .absent))

/-- Not k0 (R66), destination not the index register (R67), an address that can be encoded. -/
def Operands.wf (o : Operands) : Bool :=
  decide (o.mask ≠ 0#3) && decide (o.dest ≠ o.index) && o.addr.wf

/-- Well-formedness of an instruction, one line per constructor. -/
def Instr.wf : Instr → Bool
  | .vpgatherqdXmmVm64x o => o.wf
  | .vpgatherqdXmmVm64y o => o.wf
  | .vpgatherqdYmmVm64z o => o.wf
  | .vpgatherqqXmmVm64x o => o.wf
  | .vpgatherqqYmmVm64y o => o.wf
  | .vpgatherqqZmmVm64z o => o.wf

end Sys2Proof
end

