-- ==== Sys2Proof/Decode.lean ====
section
/-! DEFINITION. Decoding (30 R50 to R72) and, after it, encoding. The decoder is total on every list of bytes
and names what it rejects. Layout of EVEX, ModRM and VSIB: PRESUMED, as the spec marks it (R52, R56,
R57, D6; log 23). #UD conditions of 30 R66 and R67 (k0, destination = index) do not stop the decoder: the
instruction is decoded and its execution raises #UD (40 R86; log 18). -/

namespace Sys2Proof

/-- What the code segment and the mode make of the default address size (30 R63): 64-bit mode, or
32-bit mode with `CS.D = 1` or `CS.D = 0`. -/
inductive CodeSize where
  | code64 | code32 | code16
  deriving DecidableEq, Repr

/-- Address size of an instruction (30 R63). -/
inductive ASize where
  | a16 | a32 | a64
  deriving DecidableEq, Repr

/-- Address size from the code size and the presence of 67H (R63). -/
def asizeOf : CodeSize → Bool → ASize
  | .code64, false => .a64
  | .code64, true => .a32
  | .code32, false => .a32
  | .code32, true => .a16
  | .code16, false => .a16
  | .code16, true => .a32

/-! ## Instruction and form -/

def Instr.form : Instr → Form
  | .vpgatherqdXmmVm64x _ => .qd128
  | .vpgatherqdXmmVm64y _ => .qd256
  | .vpgatherqdYmmVm64z _ => .qd512
  | .vpgatherqqXmmVm64x _ => .qq128
  | .vpgatherqqYmmVm64y _ => .qq256
  | .vpgatherqqZmmVm64z _ => .qq512

def Instr.ops : Instr → Operands
  | .vpgatherqdXmmVm64x o => o
  | .vpgatherqdXmmVm64y o => o
  | .vpgatherqdYmmVm64z o => o
  | .vpgatherqqXmmVm64x o => o
  | .vpgatherqqYmmVm64y o => o
  | .vpgatherqqZmmVm64z o => o

def Instr.ofForm : Form → Operands → Instr
  | .qd128, o => .vpgatherqdXmmVm64x o
  | .qd256, o => .vpgatherqdXmmVm64y o
  | .qd512, o => .vpgatherqdYmmVm64z o
  | .qq128, o => .vpgatherqqXmmVm64x o
  | .qq256, o => .vpgatherqqYmmVm64y o
  | .qq512, o => .vpgatherqqZmmVm64z o

/-- `W`: 0 selects VPGATHERQD, 1 selects VPGATHERQQ (R53). -/
def Form.w : Form → Bool
  | .qd128 | .qd256 | .qd512 => false
  | .qq128 | .qq256 | .qq512 => true

/-- `L'L` (R54). -/
def Form.ll : Form → BitVec 2
  | .qd128 | .qq128 => 0
  | .qd256 | .qq256 => 1
  | .qd512 | .qq512 => 2

/-- The form of `W` and `L'L` (R53, R54, R55); there is none with `L'L = 11b`. -/
def formOf (w : Bool) (ll : BitVec 2) : Option Form :=
  if ll = 0#2 then some (if w then .qq128 else .qd128)
  else if ll = 1#2 then some (if w then .qq256 else .qd256)
  else if ll = 2#2 then some (if w then .qq512 else .qd512)
  else none

/-- Number of displacement bytes, `nd` of R50 and R62. -/
def Addr.dispLength : Addr → Nat
  | .noBase _ => 4
  | .base _ .absent => 0
  | .base _ (.disp8 _) => 1
  | .base _ (.disp32 _) => 4

/-- Number of legacy prefix bytes, `np` of R50. -/
def Operands.prefixLength (o : Operands) : Nat :=
  o.segOverride.isSome.toNat + o.addrSizePrefix.toNat

/-- `ilen = np + 7 + nd` (R50). -/
def Operands.ilen (o : Operands) : Nat :=
  o.prefixLength + 7 + o.addr.dispLength

/-! ## Legacy prefixes (R51) -/

/-- A byte that may stand before the EVEX prefix and be counted as a prefix of it. -/
inductive PrefixByte where
  | seg (g : Seg)
  | addrSize
  | lock
  | p66
  | pF2
  | pF3
  | rex
  deriving DecidableEq, Repr

/-- R51: the prefix a byte is, if it is one. 40H to 4FH are REX prefixes in 64-bit mode only. -/
def prefixByte (c : CodeSize) (b : Byte) : Option PrefixByte :=
  if b = 0x2E#8 then some (.seg .cs)
  else if b = 0x36#8 then some (.seg .ss)
  else if b = 0x3E#8 then some (.seg .ds)
  else if b = 0x26#8 then some (.seg .es)
  else if b = 0x64#8 then some (.seg .fs)
  else if b = 0x65#8 then some (.seg .gs)
  else if b = 0x67#8 then some .addrSize
  else if b = 0xF0#8 then some .lock
  else if b = 0x66#8 then some .p66
  else if b = 0xF2#8 then some .pF2
  else if b = 0xF3#8 then some .pF3
  else if c = .code64 ∧ b.extractLsb' 4 4 = 4#4 then some .rex
  else none

/-- The prefixes seen so far. `repeated`: one of them twice, or two segment overrides. `count`: how many bytes. -/
structure Prefixes where
  seg : Option Seg := none
  addrSize : Bool := false
  lock : Bool := false
  p66 : Bool := false
  pF2 : Bool := false
  pF3 : Bool := false
  rex : Bool := false
  repeated : Bool := false
  count : Nat := 0
  deriving DecidableEq, Repr

/-- What one more prefix byte says, beside its being there. -/
def Prefixes.note (p : Prefixes) : PrefixByte → Prefixes
  | .seg g => { p with seg := some g, repeated := p.repeated || p.seg.isSome }
  | .addrSize => { p with addrSize := true, repeated := p.repeated || p.addrSize }
  | .lock => { p with lock := true, repeated := p.repeated || p.lock }
  | .p66 => { p with p66 := true, repeated := p.repeated || p.p66 }
  | .pF2 => { p with pF2 := true, repeated := p.repeated || p.pF2 }
  | .pF3 => { p with pF3 := true, repeated := p.repeated || p.pF3 }
  | .rex => { p with rex := true, repeated := p.repeated || p.rex }

def Prefixes.add (p : Prefixes) (x : PrefixByte) : Prefixes :=
  { p.note x with count := p.count + 1 }

/-- Consume the legacy prefixes; the rest begins with the first byte that is none. -/
def scanPrefixes (c : CodeSize) (p : Prefixes) : List Byte → Prefixes × List Byte
  | [] => (p, [])
  | b :: bs =>
    match prefixByte c b with
    | some x => scanPrefixes c (p.add x) bs
    | none => (p, b :: bs)

/-! ## The decoder (R72) -/

/-- Why an encoding raises #UD; 60 R121 is the list. The cause is not architectural state. -/
inductive UdCause where
  | lockPrefix | mandatoryPrefix | rexPrefix
  | reservedP0 | reservedP1 | vectorLength
  | vvvv | broadcast | zeroing | noVsib | addressSize16
  deriving DecidableEq, Repr

/-- What the decoder reads from a list of bytes. -/
inductive Decoded where
  /-- an instruction, and the bytes after it -/
  | instr (i : Instr) (rest : List Byte)
  /-- an encoding of this opcode point that raises #UD, and how many bytes it has -/
  | ud (c : UdCause) (length : Nat)
  /-- a repeated prefix or two segment overrides: the spec refuses it (R51, D27) -/
  | repeatedPrefix
  /-- `Mode32` with a stored register-extension bit 0: the spec refuses it (R71, D28) -/
  | mode32ExtensionBits
  /-- another opcode point, outside the spec (R75) -/
  | notThisInstruction
  /-- the bytes end before the instruction does -/
  | truncated
  deriving DecidableEq, Repr

/-- Has the encoding no VSIB byte (R65)? -/
def noVsib (modrm : Byte) : Bool :=
  decide (modrm.extractLsb' 6 2 = 3#2) || decide (modrm.extractLsb' 0 3 ≠ 4#3)

/-- The #UD conditions that show in the prefixes, the EVEX payload and ModRM (R51, R54, R63, R65, R68,
R69). Their relative order is unobservable (R72). DESIGN CHOICE (log 40): a forbidden prefix raises #UD also where the
encoding has more than fifteen bytes, for which R50 names #GP(0); safe or unsafe as log 40 says. -/
def encodingUd (c : CodeSize) (p : Prefixes) (p0 p1 p2 modrm : Byte) : Option UdCause :=
  if p.lock then some .lockPrefix
  else if p.p66 || p.pF2 || p.pF3 then some .mandatoryPrefix
  else if p.rex then some .rexPrefix
  else if p0.getLsbD 3 then some .reservedP0
  else if !p1.getLsbD 2 then some .reservedP1
  else if p2.extractLsb' 5 2 = 3#2 then some .vectorLength
  else if p1.extractLsb' 3 4 ≠ 15#4 then some .vvvv
  else if p2.getLsbD 4 then some .broadcast
  else if p2.getLsbD 7 then some .zeroing
  else if noVsib modrm then some .noVsib
  else if asizeOf c p.addrSize = .a16 then some .addressSize16
  else none

/-- How many bytes an encoding that raises #UD has: `np + 7 + nd` (R50, R62), and `np + 6` where it has no VSIB byte. `rest`
is what follows ModRM; a VSIB byte that is not there counts with no displacement (log 21). -/
def udLength (p : Prefixes) (modrm : Byte) (rest : List Byte) : Nat :=
  p.count + 6 +
    if noVsib modrm then 0
    else if modrm.extractLsb' 6 2 = 1#2 then 2
    else if modrm.extractLsb' 6 2 = 2#2 then 5
    else
      match rest with
      | vsib :: _ => if vsib.extractLsb' 0 3 = 5#3 then 5 else 1
      | [] => 1

/-- R71: does a Mode32 encoding have one of the stored bits R', V', B at 0? -/
def extensionBitClear (p0 p2 : Byte) : Bool :=
  !p0.getLsbD 4 || !p2.getLsbD 3 || !p0.getLsbD 5

/-- Four displacement bytes, little-endian (R62, 20 R31). -/
def takeDisp32 : List Byte → Option (BitVec 32 × List Byte)
  | b0 :: b1 :: b2 :: b3 :: rest => some (b3 ++ b2 ++ b1 ++ b0, rest)
  | _ => none

/-- Base and displacement from `mod`, the stored bit B̄, `VSIB.base` and the bytes after VSIB (R60, R62). -/
def decodeAddr (mod : BitVec 2) (bInv : Bool) (base : BitVec 3) (rest : List Byte) :
    Option (Addr × List Byte) :=
  let r : BitVec 4 := BitVec.ofBool (!bInv) ++ base
  if mod = 0#2 then
    if base = 5#3 then (takeDisp32 rest).map fun (d, rest) => (.noBase d, rest)
    else some (.base r .absent, rest)
  else if mod = 1#2 then
    match rest with
    | d :: rest => some (.base r (.disp8 d), rest)
    | [] => none
  else (takeDisp32 rest).map fun (d, rest) => (.base r (.disp32 d), rest)

/-- `SCALE = 2^ss` (R61). -/
def scaleOf (ss : BitVec 2) : Scale :=
  if ss = 0#2 then .x1 else if ss = 1#2 then .x2 else if ss = 2#2 then .x4 else .x8

/-- The VSIB byte and what follows it (R57 to R62). DESIGN CHOICE (log 22): while one of these bytes is not there the
answer is `truncated`, ahead of the #UD conditions that `exec` tests, though R72 tests k0, OS_ENABLED and the feature flags
before it reads VSIB. -/
def decodeVsib (p : Prefixes) (p0 p1 p2 modrm : Byte) : List Byte → Decoded
  | [] => .truncated
  | vsib :: rest =>
    match formOf (p1.getLsbD 7) (p2.extractLsb' 5 2) with
    | none => .ud .vectorLength (udLength p modrm (vsib :: rest))
    | some f =>
      match decodeAddr (modrm.extractLsb' 6 2) (p0.getLsbD 5) (vsib.extractLsb' 0 3) rest with
      | none => .truncated
      | some (addr, rest) =>
        .instr (.ofForm f
          { dest := BitVec.ofBool (!p0.getLsbD 4) ++ BitVec.ofBool (!p0.getLsbD 7) ++ modrm.extractLsb' 3 3
            index := BitVec.ofBool (!p2.getLsbD 3) ++ BitVec.ofBool (!p0.getLsbD 6) ++ vsib.extractLsb' 3 3
            mask := p2.extractLsb' 0 3
            addr := addr
            scale := scaleOf (vsib.extractLsb' 6 2)
            segOverride := p.seg
            addrSizePrefix := p.addrSize }) rest

/-- Is this the opcode point EVEX.66.0F38 91H (R53, R55, R75)? -/
def isGatherPoint (p0 p1 op : Byte) : Bool :=
  decide (p0.extractLsb' 0 3 = 2#3) && decide (p1.extractLsb' 0 2 = 1#2) && decide (op = 0x91#8)

/-- Is 62H followed by this byte the EVEX prefix? Outside 64-bit mode only with bits 7:6 = 11b (R52). -/
def isEvex (c : CodeSize) (p0 : Byte) : Bool :=
  decide (c = .code64) || decide (p0.extractLsb' 6 2 = 3#2)

/-- From P1 on: the opcode point, then the #UD conditions these bytes show (R72). Two points the spec leaves open, DESIGN
CHOICE: a 32-bit encoding with a stored extension bit 0 (R71) is refused after the #UD conditions tested here and before
those `exec` tests (log 20); a #UD condition that ModRM or a byte before it shows is answered whether or not the bytes after
ModRM are there (log 22). -/
def decodePayload (c : CodeSize) (p : Prefixes) (p0 : Byte) : List Byte → Decoded
  | p1 :: p2 :: op :: modrm :: rest =>
    if !isGatherPoint p0 p1 op then .notThisInstruction
    else if p.repeated then .repeatedPrefix
    else
      match encodingUd c p p0 p1 p2 modrm with
      | some u => .ud u (udLength p modrm rest)
      | none =>
        if c ≠ .code64 ∧ extensionBitClear p0 p2 then .mode32ExtensionBits
        else decodeVsib p p0 p1 p2 modrm rest
  | _ => .truncated

/-- From the first byte that is no legacy prefix: 62H and P0 decide whether this is the EVEX prefix, before P1 is read
(R52, R72). -/
def decodeEvex (c : CodeSize) (p : Prefixes) : List Byte → Decoded
  | [] => .truncated
  | b0 :: bs =>
    if b0 ≠ 0x62#8 then .notThisInstruction
    else
      match bs with
      | [] => .truncated
      | p0 :: rest => if isEvex c p0 then decodePayload c p p0 rest else .notThisInstruction

/-- The decoder (R72). -/
def decode (c : CodeSize) (bytes : List Byte) : Decoded :=
  match scanPrefixes c {} bytes with
  | (p, rest) => decodeEvex c p rest

/-! ## The encoder (R50 to R62, R76) -/

/-- The byte of a segment override (R51). -/
def Seg.prefixByte : Seg → Byte
  | .cs => 0x2E
  | .ss => 0x36
  | .ds => 0x3E
  | .es => 0x26
  | .fs => 0x64
  | .gs => 0x65

/-- `ss` of a scale (R61). -/
def Scale.ss : Scale → BitVec 2
  | .x1 => 0
  | .x2 => 1
  | .x4 => 2
  | .x8 => 3

/-- `mod` (R62). -/
def Addr.mod : Addr → BitVec 2
  | .noBase _ => 0
  | .base _ .absent => 0
  | .base _ (.disp8 _) => 1
  | .base _ (.disp32 _) => 2

/-- The four-bit base number an encoding carries; with no base, `VSIB.base = 101b` and `B = 0` (R60). -/
def Addr.baseBits : Addr → BitVec 4
  | .noBase _ => 5
  | .base r _ => r

/-- Little-endian bytes of a `disp32`. -/
def disp32Bytes (d : BitVec 32) : List Byte :=
  [d.extractLsb' 0 8, d.extractLsb' 8 8, d.extractLsb' 16 8, d.extractLsb' 24 8]

/-- The displacement bytes (R62). -/
def Addr.dispBytes : Addr → List Byte
  | .noBase d => disp32Bytes d
  | .base _ .absent => []
  | .base _ (.disp8 d) => [d]
  | .base _ (.disp32 d) => disp32Bytes d

/-- The stored form of a bit the EVEX prefix holds inverted (R52). -/
def inv (b : Bool) : BitVec 1 := BitVec.ofBool (!b)

/-- The legacy prefixes, the segment override first (R51). -/
def Operands.prefixBytes (o : Operands) : List Byte :=
  (match o.segOverride with
   | some g => [g.prefixByte]
   | none => []) ++ (if o.addrSizePrefix then [0x67#8] else [])

/-- P0 = R̄ X̄ B̄ R̄' 0 010 (R52, R53). -/
def Operands.p0 (o : Operands) : Byte :=
  inv (o.dest.getLsbD 3) ++ inv (o.index.getLsbD 3) ++ inv (o.addr.baseBits.getLsbD 3) ++
    inv (o.dest.getLsbD 4) ++ 0b0010#4

/-- P1 = W 1111 1 01 (R52, R53, R69). -/
def Form.p1 (f : Form) : Byte := BitVec.ofBool f.w ++ 0b1111101#7

/-- P2 = 0 L'L 0 V̄' aaa (R52, R68, R69). -/
def p2Byte (f : Form) (o : Operands) : Byte :=
  0#1 ++ f.ll ++ 0#1 ++ inv (o.index.getLsbD 4) ++ o.mask

/-- ModRM = mod reg 100 (R56, R65). -/
def Operands.modrm (o : Operands) : Byte := o.addr.mod ++ o.dest.extractLsb' 0 3 ++ 0b100#3

/-- VSIB = ss index base (R57). -/
def Operands.vsib (o : Operands) : Byte :=
  o.scale.ss ++ o.index.extractLsb' 0 3 ++ o.addr.baseBits.extractLsb' 0 3

/-- The bytes of an instruction, lowest address first (R50). -/
def encode (i : Instr) : List Byte :=
  i.ops.prefixBytes ++
    [0x62#8, i.ops.p0, i.form.p1, p2Byte i.form i.ops, 0x91#8, i.ops.modrm, i.ops.vsib] ++
      i.ops.addr.dispBytes

/-! ## The opcode table's words -/

/-- The bytes of a word of `n` bytes, least significant byte first. -/
def bytesOfNat : Nat → Nat → List Byte
  | 0, _ => []
  | n + 1, w => BitVec.ofNat 8 w :: bytesOfNat n (w / 256)

/-- The longest instruction: fifteen bytes (R50). -/
def maxLength : Nat := 15

/-- The bytes, lowest address first, of an instruction given as a number: the first `nbits / 8` bytes from the
number, zeros up to the longest instruction after them. The opcode table writes 62H, the byte at the
lowest address, as the MOST significant byte of its 48-bit words; a number whose LEAST significant byte
is 62H is read the other way round. No word of the table is both: its ModRM byte would be 62H, whose
low three bits are not 100b (log 19). -/
def tableBytes (nbits w : Nat) : List Byte :=
  let le := bytesOfNat (nbits / 8) w
  (if w % 256 = 0x62 then le else le.reverse) ++ List.replicate (maxLength - nbits / 8) 0#8

/-- What the decoder reads, in 64-bit mode, from a word of the opcode table. -/
def decodeTableWord (nbits w : Nat) : Option Instr :=
  match decode .code64 (tableBytes nbits w) with
  | .instr i _ => some i
  | _ => none

end Sys2Proof
end

