-- ==== Sys2Proof/Machine/State.lean ====
section
/-! DEFINITION. The machine's state as plain data: everything the spec names (10 R10 to R22, 20 R40, R41, 60
R134, R135), the environment's inputs, and one counter of free choices. INVENTORY.md '## State' lists
every field with its rule and reset value. -/

namespace Sys2Proof.Machine

/-- The hidden part of a segment register the oracle consults (10 R16, 20 R41). -/
structure SegReg where
  base : Qword
  limit : BitVec 32
  /-- readable and not null -/
  usable : Bool
  deriving DecidableEq, Repr

/-- The x87 state, which the spec names only to say it is neither read nor written (10 R19).
Layout PRESUMED, the family's (log 4). -/
structure X87 where
  st : Vector (BitVec 80) 8
  fcw : BitVec 16
  fsw : BitVec 16
  ftw : BitVec 16
  fip : Qword
  fdp : Qword
  fop : BitVec 11
  deriving DecidableEq, Repr

/-- A debug trap that can be pending (10 R20, R21; 60 R128, R145). -/
inductive Trap where
  /-- data breakpoint `n` matched a byte read for a gathered element -/
  | breakpoint (n : Fin 4)
  /-- EFLAGS.TF was set and the instruction completed -/
  | singleStep
  deriving DecidableEq, Repr

/-- The exceptions of 60 R120. -/
inductive Exc where
  | ud | nm | ss | gp | pf | db | ac | xm
  deriving DecidableEq, Repr

/-- What was delivered: an exception, or an interrupt (60 R120, R133). -/
inductive EventKind where
  | exception (e : Exc)
  | interrupt
  deriving DecidableEq, Repr

/-- The fault of one element access: the three kinds of 20 R40. -/
inductive AccessFault where
  | gp0
  | ss0
  | pf (code : BitVec 32) (la : Qword)
  deriving DecidableEq, Repr

/-- What the access oracle answers for one element (20 R40, R42). -/
inductive Access where
  /-- the element's value -/
  | ok (v : Qword)
  | fault (e : AccessFault)
  /-- the read has a side effect -/
  | sideEffect
  deriving DecidableEq, Repr

/-- A question to the access oracle (20 R40): its arguments, the element it is asked for and the time. -/
structure Query where
  time : Nat
  element : Nat
  seg : Seg
  ea : Qword
  size : Nat
  asize : ASize
  deriving DecidableEq, Repr

/-- The element a delivered fault belongs to: `f` and `EAf` (60 R126). -/
structure ElementInfo where
  element : Nat
  ea : Qword
  deriving DecidableEq, Repr

/-- A delivered exception or interrupt: what the delivery records and saves (60 R134, R135; D16). -/
structure Delivery where
  kind : EventKind
  errorCode : Option (BitVec 32)
  savedRip : Qword
  savedFlags : Qword
  element : Option ElementInfo
  deriving DecidableEq, Repr

/-- What the concrete oracle knows of a range of linear addresses beside the bytes mapped there. -/
inductive RegionKind where
  /-- present, but not readable at privilege level 3 (20 R41, 60 R140) -/
  | supervisor
  /-- a read has a side effect (20 R42) -/
  | sideEffect
  /-- declared program text, which no handler may modify, nor declare text no longer (20 R47) -/
  | text
  /-- any access to it faults so (20 R40: the oracle may fault anywhere) -/
  | faults (e : AccessFault)
  deriving DecidableEq, Repr

/-- A range of linear addresses, `lo` included, `hi` not. -/
structure Region where
  lo : Nat
  hi : Nat
  kind : RegionKind
  deriving DecidableEq, Repr

/-- One thing an exception handler did before it returned (60 R136, 70 R154). -/
inductive HandlerEdit where
  | mapByte (la : Qword) (b : Byte)
  | unmapByte (la : Qword)
  | setZmm (i : BitVec 5) (v : VecWord)
  | setMask (i : BitVec 3) (v : MaskWord)
  | setGpr (i : BitVec 4) (v : Qword)
  | setRegions (rs : List Region)
  | setCr0 (v : Qword)
  | setCr4 (v : Qword)
  | setXcr0 (v : Qword)
  | setDr (n : Fin 4) (v : Qword)
  | setDr7 (v : Qword)
  | setInterruptPending (b : Bool)
  | setSavedRip (v : Qword)
  | setSavedFlags (v : Qword)
  deriving DecidableEq, Repr

/-- How a handler's run ends (60 R136, R137). -/
inductive HandlerExit where
  /-- it returns to what was interrupted -/
  | ret
  /-- it runs instructions of its own from `entry`, with these flags, until the instruction pointer is `stop`; then
  the environment has its next run -/
  | code (entry stop flags : Qword)
  deriving DecidableEq, Repr

/-- One run of the environment in a handler: what it does, and how it ends. -/
structure HandlerRun where
  edits : List HandlerEdit
  exit : HandlerExit
  deriving DecidableEq, Repr

/-- An event whose handler is running instructions of its own (60 R137), and where those end. -/
structure Frame where
  event : Delivery
  stop : Qword
  deriving DecidableEq, Repr

/-- The machine. -/
structure State where
  /-- vector registers (R10) -/
  zmm : Vector VecWord Config.nvreg
  /-- mask registers (R12) -/
  k : Vector MaskWord Config.nkreg
  /-- general registers (R13) -/
  gpr : Vector GprWord Config.ngpr
  /-- instruction pointer (R14) -/
  rip : Qword
  /-- EFLAGS / RFLAGS (R15, R17) -/
  eflags : Qword
  /-- CS, DS, ES, SS, FS, GS in the order of `Seg` (R16) -/
  segs : Vector SegReg 6
  /-- CS descriptor, L (R17) -/
  csL : Bool
  /-- CS descriptor, D (R17) -/
  csD : Bool
  cr0 : Qword
  cr2 : Qword
  cr4 : Qword
  xcr0 : Qword
  efer : Qword
  /-- current privilege level (R140) -/
  cpl : BitVec 2
  /-- CPUID feature flag AVX512F (R18) -/
  hasAvx512f : Bool
  /-- CPUID feature flag AVX512VL (R18) -/
  hasAvx512vl : Bool
  /-- R19 -/
  mxcsr : BitVec 32
  x87 : X87
  /-- DR0 to DR3, DR6, DR7 (R20) -/
  dr : Vector Qword 4
  dr6 : Qword
  dr7 : Qword
  /-- `PendingTraps` (R21), a list without repeats -/
  pendingTraps : List Trap
  /-- "an interrupt is pending" (R138) -/
  interruptPending : Bool
  /-- memory (R22, R30) -/
  mem : List Host.Cell
  /-- what the concrete oracle knows of ranges of addresses (R40 to R42, R47) -/
  regions : List Region
  /-- the access oracle as a parameter (R40): its answer to each question listed, the concrete oracle's to any other;
  the model's own field (log 8) -/
  oracle : List (Query × Access)
  /-- how many steps have been taken: the time at which the oracle is asked (R40); the model's own field (log 41) -/
  clock : Nat
  /-- the addresses whose byte a handler has changed in this run, which no fetch may touch (R47); the model's own
  field (log 29) -/
  changed : List Nat
  /-- the exception or interrupt the last instruction ended with (R134) -/
  delivered : Option Delivery
  /-- the events whose handlers are running instructions of their own, innermost first (R137) -/
  outer : List Frame
  /-- the environment's: what each coming handler run will have done (R136, R137); the model's own field -/
  handlers : List HandlerRun
  /-- how many free choices have been drawn; the model's own field (log 13) -/
  freeCount : Nat
  deriving DecidableEq, Repr

/-- Why the machine stops with a fault. -/
inductive Fault where
  /-- `step`: a byte of the instruction is not mapped. The exception of a code fetch is outside the spec
  (R130). Safe: the model stops where a processor goes on to a handler. -/
  | fetchUnmapped
  /-- `step`: an event has been delivered and the environment says nothing of its handler, which is
  outside the spec (R134, D16). Safe. -/
  | awaitingHandler
  deriving DecidableEq, Repr

/-- Why an instruction has no meaning here. -/
inductive Refusal where
  /-- an arm of `exec` with no meaning yet; no arm answers it -/
  | notModelled (mnemonic : String)
  /-- `step`: another opcode point, outside the spec (R75). Safe. -/
  | notThisInstruction
  /-- `step`: a repeated legacy prefix or two segment overrides (R51, D27). Safe. -/
  | repeatedPrefix
  /-- `step` and every meaning: Mode32 with a register-extension bit set (R71, D28). Safe. -/
  | mode32ExtensionBits
  /-- `step` and every meaning: the instruction's bytes cross the top of the address space (R14, D21). Safe. -/
  | ripWrap
  /-- every meaning: an active element is in memory whose read has a side effect (R42, D11). Safe. -/
  | sideEffectingMemory
  /-- `step`: a handler would change declared program text, or a byte of the instruction at `rip` has changed in this
  run (R47, D23). Safe. -/
  | textModified
  deriving DecidableEq, Repr

/-- The launch state that stands for reset (70 R150, R151; 00 R5; log 2): 64-bit mode, AVX512F and
AVX512VL, the state enabled, CR0.TS clear, segment bases 0, nothing pending, nothing recorded, no byte of
memory mapped. Registers the spec gives no value: zero or the family's (log 3, log 4). -/
def State.reset : State where
  zmm := Vector.replicate Config.nvreg 0
  k := Vector.replicate Config.nkreg 0
  gpr := Vector.replicate Config.ngpr 0
  rip := 0x400000
  eflags := 0x2
  segs := Vector.replicate 6 { base := 0, limit := 0xFFFFFFFF, usable := true }
  csL := true
  csD := false
  cr0 := 0x1
  cr2 := 0
  cr4 := 0x40000
  xcr0 := 0xE7
  efer := 0x400
  cpl := 0
  hasAvx512f := true
  hasAvx512vl := true
  mxcsr := 0x1F80
  x87 := { st := Vector.replicate 8 0, fcw := 0x40, fsw := 0, ftw := 0x5555, fip := 0, fdp := 0, fop := 0 }
  dr := Vector.replicate 4 0
  dr6 := 0xFFFF0FF0
  dr7 := 0x400
  pendingTraps := []
  interruptPending := false
  mem := []
  regions := []
  oracle := []
  clock := 0
  changed := []
  delivered := none
  outer := []
  handlers := []
  freeCount := 0

end Sys2Proof.Machine
end

