-- ==== Sys2Proof/Config/GatherLeft.lean ====
section
/-! DEFINITION. The free value that depends on the machine's state (spec 40 R89, D12). -/

namespace Sys2Proof

/-- `GatherLeft` of R89: which elements left of the faulting one an implementation completes, bit `j` for element
`j`, as a function of the instruction, of its inputs (the oracle's answer for each active element) and of the architectural
state. No value of it is known; that it is a function is the source's word "repeatable" (log 12). -/
opaque Config.gatherLeft : Form → Operands → List (Nat × Machine.Access) → Machine.State → BitVec 8

end Sys2Proof
end

