-- ==== Sys2Proof/Machine/Memory.lean ====
section
/-! DEFINITION. Memory as plain data (spec 20 R30, R41): a list of (linear address, byte) pairs, addresses
strictly rising. An unlisted address holds no byte: it is not mapped (log 7). -/

namespace Sys2Proof.Machine

/-- The byte at a linear address, if one is mapped there. -/
def Memory.read : List Host.Cell → Nat → Option Byte
  | [], _ => none
  | (a, b) :: m, x => if x = a then some b else Memory.read m x

/-- Map a byte at an address, in place or in address order. -/
def Memory.write : List Host.Cell → Nat → Byte → List Host.Cell
  | [], x, v => [(x, v)]
  | (a, b) :: m, x, v =>
    if x < a then (x, v) :: (a, b) :: m
    else if x = a then (a, v) :: m
    else (a, b) :: Memory.write m x v

/-- Unmap an address. -/
def Memory.erase (m : List Host.Cell) (x : Nat) : List Host.Cell :=
  m.filter fun c => c.1 ≠ x

/-- The canonical form: addresses strictly rising, all of them 64-bit addresses. -/
abbrev Memory.wf (m : List Host.Cell) : Prop :=
  m.Pairwise (fun c d => c.1 < d.1) ∧ ∀ c ∈ m, c.1 < 2 ^ 64

end Sys2Proof.Machine
end

