-- ==== Sys2Proof/Machine/Regs.lean ====
section
/-! DEFINITION. Register access and bit fields: the one place that reads or writes the register files, and the
field operations on vector and mask words (spec 00 R6, R8; 10 R10 to R13). No register is hardwired. -/

namespace Sys2Proof.Machine

/-- `zmm[i]` (R8, R10). -/
def State.getZmm (s : State) (i : BitVec 5) : VecWord := s.zmm[i.toNat]'(i.isLt)

/-- `zmm[i] <- v` (R8). -/
def State.setZmm (s : State) (i : BitVec 5) (v : VecWord) : State :=
  { s with zmm := s.zmm.set i.toNat v i.isLt }

/-- `k[i]` (R8, R12). -/
def State.getMask (s : State) (i : BitVec 3) : MaskWord := s.k[i.toNat]'(i.isLt)

/-- `k[i] <- v` (R8). -/
def State.setMask (s : State) (i : BitVec 3) (v : MaskWord) : State :=
  { s with k := s.k.set i.toNat v i.isLt }

/-- `gpr[i]` (R8, R13), all `GPRW` bits. -/
def State.getGpr (s : State) (i : BitVec 4) : GprWord := s.gpr[i.toNat]'(i.isLt)

/-- `gpr[i] <- v`; only a handler writes a general register (R13). -/
def State.setGpr (s : State) (i : BitVec 4) (v : GprWord) : State :=
  { s with gpr := s.gpr.set i.toNat v i.isLt }

/-- The place of a segment register in `State.segs`. -/
def segNumber : Seg → Fin 6
  | .cs => 0
  | .ds => 1
  | .es => 2
  | .ss => 3
  | .fs => 4
  | .gs => 5

def State.getSeg (s : State) (g : Seg) : SegReg := s.segs[segNumber g]

/-- A vector word with ones in its low `w` bits. -/
def lowOnes (w : Nat) : VecWord := BitVec.ofNat Config.maxVL (2 ^ w - 1)

/-- Bits `lo+w-1 : lo` of a vector register as a number of at most 64 bits (R6). -/
def getField (z : VecWord) (lo w : Nat) : Qword := ((z >>> lo) &&& lowOnes w).setWidth 64

/-- `z[lo+w-1 : lo] <- v`, the low `w` bits of `v` (R8). -/
def putField (z : VecWord) (lo w : Nat) (v : Qword) : VecWord :=
  (z &&& ~~~(lowOnes w <<< lo)) ||| ((v.setWidth Config.maxVL &&& lowOnes w) <<< lo)

/-- A vector register with bits `MAXVL-1 : n` zeroed. -/
def zeroFrom (z : VecWord) (n : Nat) : VecWord := z &&& lowOnes n

/-- A mask register with bit `j` zeroed. -/
def clearBit (m : MaskWord) (j : Nat) : MaskWord := m &&& ~~~((1 : MaskWord) <<< j)

/-- A mask register with bits `MAX_KL-1 : n` zeroed. -/
def zeroMaskFrom (m : MaskWord) (n : Nat) : MaskWord := m &&& BitVec.ofNat Config.maxKL (2 ^ n - 1)

end Sys2Proof.Machine
end

