-- ==== Sys2Proof/Machine/Flags.lean ====
section
/-! DEFINITION. Flags and control bits (spec 10 R15, R17; 00 R5). The family writes no arithmetic flag; the only
flag it touches is RF, in the saved image (40 R91). The Booleans the spec calls `OS_ENABLED` and
`CR0_TS` are read here from the registers they stand for (D26; log 9). -/

namespace Sys2Proof.Machine

/-- EFLAGS.RF, bit 16 (R15). -/
def rfBit : Nat := 16

/-- A flags image with RF set or cleared. -/
def withRf (fl : Qword) (b : Bool) : Qword :=
  if b then fl ||| (1#64 <<< rfBit) else fl &&& ~~~(1#64 <<< rfBit)

def State.rf (s : State) : Bool := s.eflags.getLsbD rfBit

/-- EFLAGS.VM, bit 17 (R17). -/
def State.vm (s : State) : Bool := s.eflags.getLsbD 17

/-- EFLAGS.TF, bit 8 (60 R145; the position PRESUMED, log 16). -/
def State.tf (s : State) : Bool := s.eflags.getLsbD 8

/-- CR0.PE, bit 0 (R17). -/
def State.pe (s : State) : Bool := s.cr0.getLsbD 0

/-- CR0.TS, bit 3 (R17): `CR0_TS`. -/
def State.ts (s : State) : Bool := s.cr0.getLsbD 3

/-- CR4.OSXSAVE, bit 18 (R17). -/
def State.osxsave (s : State) : Bool := s.cr4.getLsbD 18

/-- IA32_EFER.LMA, bit 10 (R17). -/
def State.lma (s : State) : Bool := s.efer.getLsbD 10

/-- `OS_ENABLED` (R17). -/
def State.osEnabled (s : State) : Bool :=
  s.pe && !s.vm && s.osxsave && decide (s.xcr0.extractLsb' 1 2 = 3#2) && decide (s.xcr0.extractLsb' 5 3 = 7#3)

/-- `MODE` together with `CS.D` (R17, 30 R63): 64-bit mode when LMA and CS.L are set. -/
def State.codeSize (s : State) : CodeSize :=
  if s.lma && s.csL then .code64 else if s.csD then .code32 else .code16

def State.mode64 (s : State) : Bool := decide (s.codeSize = .code64)

/-- The feature flags a form needs (30 R70). -/
def State.hasFeatures (s : State) (f : Form) : Bool :=
  match f with
  | .qd512 | .qq512 => s.hasAvx512f
  | .qd128 | .qd256 | .qq128 | .qq256 => s.hasAvx512f && s.hasAvx512vl

end Sys2Proof.Machine
end

