-- ==== Sys2Proof/Machine/Operands.lean ====
section
/-! DEFINITION. The constants of a form (spec 40 R80) and its operand forms: mask, index elements, base,
displacement, segment, effective and linear addresses (40 R81, R82; 30 R60 to R64; 20 R32, R33). -/

namespace Sys2Proof

/-- `ES`, data element bits (R80). -/
def Form.es (f : Form) : Nat := if f.w then 64 else 32

/-- `KL`, number of elements (R80; conflict C1). -/
def Form.kl : Form → Nat
  | .qd128 | .qq128 => 2
  | .qd256 | .qq256 => 4
  | .qd512 | .qq512 => 8

/-- `VL`, index bits read (R80; conflict C2). -/
def Form.vl (f : Form) : Nat := f.kl * 64

/-- `DW = KL*ES`, destination bits that hold elements (R80). -/
def Form.dw (f : Form) : Nat := f.kl * f.es

/-- Bytes of one element (20 R36), which is also the factor `N` of disp8*N (30 R62, D7). -/
def Form.elemBytes (f : Form) : Nat := f.es / 8

/-- `SCALE` as a number (30 R61). -/
def Scale.factor : Scale → Qword
  | .x1 => 1
  | .x2 => 2
  | .x4 => 4
  | .x8 => 8

end Sys2Proof

namespace Sys2Proof.Machine

/-- Every register the operands name is one that 32-bit mode has (30 R71). -/
def lowRegs (o : Operands) : Bool :=
  decide (o.dest.toNat < Config.nvreg32) && decide (o.index.toNat < Config.nvreg32) &&
    (match o.addr with
     | .noBase _ => true
     | .base r _ => decide (r.toNat < Config.ngpr32))

/-- `ASIZE` of an instruction in a state (30 R63). -/
def asize (o : Operands) (s : State) : ASize := asizeOf s.codeSize o.addrSizePrefix

/-- `trunc_ASIZE`, as a 64-bit number (20 R32). -/
def truncA : ASize → Qword → Qword
  | .a64, v => v
  | .a32, v => (v.setWidth 32).setWidth 64
  | .a16, v => (v.setWidth 16).setWidth 64

/-- `trunc_W` with `W = 64` in Mode64 and 32 in Mode32 (20 R33). -/
def truncW (s : State) (v : Qword) : Qword :=
  if s.mode64 then v else (v.setWidth 32).setWidth 64

/-- `2^W`, the size of the linear address space of the mode (10 R14, 20 R33). -/
def spaceSize (s : State) : Nat := if s.mode64 then 2 ^ 64 else 2 ^ 32

/-- `IDXj` (40 R81). -/
def indexElem (o : Operands) (s : State) (j : Nat) : Qword := getField (s.getZmm o.index) (64 * j) 64

/-- `BASE` before truncation: 0 when there is no base (30 R60). -/
def baseValue (o : Operands) (s : State) : Qword :=
  match o.addr with
  | .noBase _ => 0
  | .base r _ => s.getGpr r

/-- `DISP` before truncation, disp8 scaled by `N` (30 R62). -/
def dispValue (f : Form) (o : Operands) : Qword :=
  match o.addr with
  | .noBase d => d.signExtend 64
  | .base _ .absent => 0
  | .base _ (.disp8 d) => d.signExtend 64 * BitVec.ofNat 64 f.elemBytes
  | .base _ (.disp32 d) => d.signExtend 64

/-- `EAj = trunc_ASIZE(BASE + trunc_ASIZE(IDXj) * SCALE + DISP)` (40 R82). -/
def effectiveAddress (f : Form) (o : Operands) (s : State) (j : Nat) : Qword :=
  let a := asize o s
  truncA a (truncA a (baseValue o s) + truncA a (indexElem o s j) * o.scale.factor + truncA a (dispValue f o))

/-- The segment with no override: SS for base register 4 or 5, else DS (30 R64). -/
def defaultSeg (o : Operands) : Seg :=
  match o.addr with
  | .noBase _ => .ds
  | .base r _ => if r = 4#4 ∨ r = 5#4 then .ss else .ds

/-- `seg` (30 R64): in Mode64 the overrides CS, SS, DS, ES are ignored. -/
def segOf (o : Operands) (s : State) : Seg :=
  match o.segOverride with
  | none => defaultSeg o
  | some g => if s.mode64 ∧ g ≠ .fs ∧ g ≠ .gs then defaultSeg o else g

/-- `SegBase(seg)`: in Mode64 only FS and GS contribute a base (10 R16; D8). -/
def segBase (s : State) (g : Seg) : Qword :=
  if s.mode64 ∧ g ≠ .fs ∧ g ≠ .gs then 0 else (s.getSeg g).base

/-- Linear address of byte `i` of an operand at `ea` (20 R33). -/
def linear (s : State) (g : Seg) (ea : Qword) (i : Nat) : Qword :=
  truncW s (segBase s g + ea + BitVec.ofNat 64 i)

/-- Is element `j` active: is bit `j` of the mask register one? (40 R81) -/
def isActive (o : Operands) (s : State) (j : Nat) : Bool := (s.getMask o.mask).getLsbD j

/-- `Act`, in ascending order (40 R81). -/
def active (f : Form) (o : Operands) (s : State) : List Nat := (List.range f.kl).filter (isActive o s)

end Sys2Proof.Machine
end

