-- ==== Sys2Proof/Machine/Ops.lean ====
section
/-! DEFINITION. The shared operations: the access oracle (spec 20 R40, R41), taking an exception or interrupt and
returning from it (60 R134 to R136), debug-register matching (10 R20, 60 R128), pending events (40 R91),
handlers' edits, and instruction fetch. -/

namespace Sys2Proof.Machine

/-! ## The access oracle -/

/-- Is bit `LA_BITS-1` of a linear address copied into every bit above it (20 R41)? -/
def canonical (la : Qword) : Bool :=
  let top := la >>> (Config.laBits - 1)
  decide (top = 0) || decide (top = BitVec.allOnes 64 >>> (Config.laBits - 1))

/-- R41 (1): the check that comes before translation. Mode64: some byte's linear address is not canonical.
Mode32: some byte lies outside the limit, or the segment is not readable or null. -/
def segmentFault (s : State) (g : Seg) (ea : Qword) (n : Nat) : Bool :=
  if s.mode64 then (List.range n).any fun i => !canonical (linear s g ea i)
  else !(s.getSeg g).usable || (List.range n).any fun i => decide ((s.getSeg g).limit.toNat < ea.toNat + i)

/-- #SS(0) through SS, #GP(0) through any other segment (60 R125). -/
def segmentFaultKind : Seg → AccessFault
  | .ss => .ss0
  | _ => .gp0

/-- The page-fault code of a read (60 R126): bit 0 a protection violation, bit 2 privilege level 3. -/
def pfCode (s : State) (present : Bool) : BitVec 32 :=
  (if present then 1 else 0) ||| (if s.cpl = 3#2 then 4 else 0)

def Region.contains (r : Region) (la : Qword) : Bool := decide (r.lo ≤ la.toNat) && decide (la.toNat < r.hi)

/-- Does a region of this kind contain the address? -/
def State.inRegion (s : State) (p : RegionKind → Bool) (la : Qword) : Bool :=
  s.regions.any fun r => p r.kind && r.contains la

/-- Does a fault come before translation: is it #GP(0) or #SS(0) (60 R132)? -/
def AccessFault.early : AccessFault → Bool
  | .gp0 => true
  | .ss0 => true
  | .pf _ _ => false

/-- The fault a region gives every access to the address, if there is one: of the faults that come before translation, or of
the others. -/
def regionFault (s : State) (early : Bool) (la : Qword) : Option AccessFault :=
  s.regions.findSome? fun r =>
    match r.kind with
    | .faults e => if e.early = early ∧ r.contains la = true then some e else none
    | _ => none

/-- Reading one byte at a linear address: the byte, or the fault (R41 (2), (3); log 8). -/
def readByte (s : State) (la : Qword) : Except AccessFault Byte :=
  match regionFault s false la with
  | some e => .error e
  | none =>
    match Memory.read s.mem la.toNat with
    | none => .error (.pf (pfCode s false) la)
    | some b =>
      if s.cpl = 3#2 && s.inRegion (fun k => decide (k = .supervisor)) la then .error (.pf (pfCode s true) la)
      else .ok b

/-- Reading bytes in the order of their offsets in the element; the first fault is the one reported (60 R132). DESIGN CHOICE
(log 8): the spec's lower-addressed page is the first by this order, also where the linear addresses wrap past the top of the
space and the page at the top, though higher-addressed, holds the element's first bytes. -/
def readBytes (s : State) : List Qword → Except AccessFault (List Byte)
  | [] => .ok []
  | la :: las =>
    match readByte s la with
    | .error e => .error e
    | .ok b =>
      match readBytes s las with
      | .error e => .error e
      | .ok bs => .ok (b :: bs)

/-- `le(bytes)` (20 R31), at most eight bytes. -/
def le : List Byte → Qword
  | [] => 0
  | b :: bs => b.setWidth 64 ||| (le bs <<< 8)

/-- The concrete oracle (20 R41): the canonical or segment check and the faults that come before translation, of any byte;
then the bytes in ascending order; then their value. -/
def mapAccess (s : State) (g : Seg) (ea : Qword) (n : Nat) : Access :=
  if segmentFault s g ea n then .fault (segmentFaultKind g)
  else
    match ((List.range n).map (linear s g ea)).findSome? (regionFault s true) with
    | some e => .fault e
    | none =>
      match readBytes s ((List.range n).map (linear s g ea)) with
      | .error e => .fault e
      | .ok bs =>
        if (List.range n).any fun i => s.inRegion (fun k => decide (k = .sideEffect)) (linear s g ea i) then .sideEffect
        else .ok (le bs)

/-- An answer of exactly `n` bytes: all the model assumes of the oracle (20 R40). -/
def Access.fit (n : Nat) : Access → Access
  | .ok v => .ok (BitVec.ofNat 64 (v.toNat % 256 ^ n))
  | .fault e => .fault e
  | .sideEffect => .sideEffect

/-- `Access(seg, EA, n, asize)` (20 R40), asked for element `j` at the state's time: a parameter. The answer is what
`State.oracle` says, and the concrete oracle's where it says nothing (log 8). -/
def access (s : State) (j : Nat) (g : Seg) (ea : Qword) (n : Nat) (a : ASize) : Access :=
  match s.oracle.lookup { time := s.clock, element := j, seg := g, ea := ea, size := n, asize := a } with
  | some r => r.fit n
  | none => mapAccess s g ea n

/-! ## Taking an event and returning from it -/

/-- What can end an instruction, or come between two. -/
inductive Event where
  /-- #UD (60 R121) -/
  | invalidOpcode
  /-- #NM (60 R124) -/
  | deviceNotAvailable
  /-- the fault of element `f` at `EAf` (40 R88) -/
  | elementFault (f : Nat) (ea : Qword) (e : AccessFault)
  /-- instruction breakpoints that matched (60 R128) -/
  | instructionBreakpoint (hits : List (Fin 4))
  /-- a trap in lieu of an element's fault (40 R91) -/
  | trapInLieu (t : Trap)
  /-- a trap between two instructions (60 R128, R145) -/
  | trapAfter (t : Trap)
  /-- an interrupt that ends a gather (40 R91, R92) -/
  | interrupt
  deriving DecidableEq, Repr

def AccessFault.exc : AccessFault → Exc
  | .gp0 => .gp
  | .ss0 => .ss
  | .pf _ _ => .pf

/-- Error codes (60 R120, R135). -/
def AccessFault.errorCode : AccessFault → BitVec 32
  | .gp0 => 0
  | .ss0 => 0
  | .pf c _ => c

def Event.kind : Event → EventKind
  | .invalidOpcode => .exception .ud
  | .deviceNotAvailable => .exception .nm
  | .elementFault _ _ e => .exception e.exc
  | .instructionBreakpoint _ => .exception .db
  | .trapInLieu _ => .exception .db
  | .trapAfter _ => .exception .db
  | .interrupt => .interrupt

def Event.errorCode : Event → Option (BitVec 32)
  | .elementFault _ _ e => some e.errorCode
  | _ => none

def Event.element : Event → Option ElementInfo
  | .elementFault f ea _ => some { element := f, ea := ea }
  | _ => none

/-- Is RF one in the saved flags image? For every fault-class exception and for the event taken in lieu of
one (60 R135, 40 R91, R92); a trap between two instructions saves the flags as they are. -/
def Event.setsRf : Event → Bool
  | .trapAfter _ => false
  | _ => true

/-- Vector numbers (60 R120). -/
def Exc.vector : Exc → Nat
  | .db => 1
  | .ud => 6
  | .nm => 7
  | .ss => 12
  | .gp => 13
  | .pf => 14
  | .ac => 17
  | .xm => 19

/-- The DR6 bit of a trap: B0 to B3, BS (60 R135; positions PRESUMED, log 16). -/
def Trap.dr6Bit : Trap → Qword
  | .breakpoint n => 1#64 <<< n.val
  | .singleStep => 1#64 <<< 14

/-- DR6 after the delivery of an event (60 R135). -/
def Event.dr6 (v : Qword) : Event → Qword
  | .instructionBreakpoint hits => hits.foldl (fun a n => a ||| (Trap.breakpoint n).dr6Bit) v
  | .trapInLieu t => v ||| t.dr6Bit
  | .trapAfter t => v ||| t.dr6Bit
  | _ => v

/-- CR2 after the delivery of an event: a page fault's linear address (60 R126, R135). -/
def Event.cr2 (v : Qword) : Event → Qword
  | .elementFault _ _ (.pf _ la) => la
  | _ => v

/-- TAKING AN EVENT: the one operation that delivers an exception or interrupt (60 R134, R135). The saved
instruction pointer is `rip` as it stands; the flags image has RF as R135 and R91 say; `rip` does not
move, for where control goes is in no source (40 R97, D16; log 10). -/
def takeEvent (ev : Event) (s : State) : State :=
  { s with
    cr2 := ev.cr2 s.cr2
    dr6 := ev.dr6 s.dr6
    delivered := some
      { kind := ev.kind
        errorCode := ev.errorCode
        savedRip := s.rip
        savedFlags := if ev.setsRf then withRf s.eflags true else s.eflags
        element := ev.element } }

/-- RETURN FROM AN EVENT (60 R136): the instruction pointer and the flags, RF included, from the record. DESIGN CHOICE (log 11):
R136 has IRET restore the stack as well, the delivery's own use of which is in no source (R134, D16); the record saves no stack
pointer and this restores none, so RSP (`gpr 4`) is what the handler's edits left. -/
def returnFromEvent (d : Delivery) (s : State) : State :=
  { s with rip := d.savedRip, eflags := d.savedFlags, delivered := none }

/-! ## Debug registers (10 R20, 60 R128; layout PRESUMED, log 16) -/

/-- DR7: is breakpoint `n` enabled, locally or globally? -/
def bpEnabled (s : State) (n : Fin 4) : Bool := s.dr7.getLsbD (2 * n) || s.dr7.getLsbD (2 * n + 1)

/-- DR7: type of breakpoint `n`: 00b execution, 11b data reads or writes. -/
def bpType (s : State) (n : Fin 4) : BitVec 2 := s.dr7.extractLsb' (16 + 4 * n) 2

/-- DR7: the address bits below the length of breakpoint `n` (lengths 1, 2, 8, 4). -/
def bpLengthMask (s : State) (n : Fin 4) : Qword :=
  let l := s.dr7.extractLsb' (18 + 4 * n) 2
  if l = 0#2 then 0 else if l = 1#2 then 1 else if l = 2#2 then 7 else 3

/-- Does the data breakpoint `n` match a read of this byte? -/
def dataMatch (s : State) (n : Fin 4) (la : Qword) : Bool :=
  bpEnabled s n && decide (bpType s n = 3#2) &&
    decide (la &&& ~~~bpLengthMask s n = s.dr[n] &&& ~~~bpLengthMask s n)

/-- Does the instruction breakpoint `n` match an instruction at this linear address? -/
def instrMatch (s : State) (n : Fin 4) (la : Qword) : Bool :=
  bpEnabled s n && decide (bpType s n = 0#2) && decide (la = s.dr[n])

def allBreakpoints : List (Fin 4) := [0, 1, 2, 3]

/-- The instruction breakpoints that fire at `rip`: none while RF is set (60 R128). -/
def instrBreakpoints (s : State) : List (Fin 4) :=
  if s.rf then [] else allBreakpoints.filter fun n => instrMatch s n (linear s .cs s.rip 0)

/-- The traps that reading these bytes makes pending (10 R20). -/
def dataTraps (s : State) (las : List Qword) : List Trap :=
  (allBreakpoints.filter fun n => las.any (dataMatch s n)).map Trap.breakpoint

/-- Traps added to a set of traps. -/
def Trap.union (a b : List Trap) : List Trap := a ++ b.filter fun t => !a.contains t

/-! ## Pending events (40 R91) -/

/-- A pending trap, or the pending interrupt. -/
inductive Pending where
  | trap (t : Trap)
  | interrupt
  deriving DecidableEq, Repr

/-- Everything pending in a state (10 R21, 60 R138). -/
def pendings (s : State) : List Pending :=
  s.pendingTraps.map Pending.trap ++ (if s.interruptPending then [.interrupt] else [])

/-- Which pending event goes first, given a free number (U7); the default stands for the empty list only. -/
def pick (n : Nat) (ps : List Pending) : Pending := ps.getD (n % ps.length) .interrupt

/-- Deliver one pending event; it is then no longer pending. `inLieu`: in place of a fault. -/
def deliverPending (inLieu : Bool) (p : Pending) (s : State) : State :=
  match p with
  | .trap t =>
    takeEvent (if inLieu then .trapInLieu t else .trapAfter t) { s with pendingTraps := s.pendingTraps.erase t }
  | .interrupt => takeEvent .interrupt { s with interruptPending := false }

/-- One step has been taken (log 41). -/
def State.tock (s : State) : State := { s with clock := s.clock + 1 }

/-- One free choice has been drawn (log 13). -/
def State.tick (s : State) : State := { s with freeCount := s.freeCount + 1 }

/-! ## Handlers (60 R136, 70 R154) -/

def Region.isText (r : Region) : Bool := decide (r.kind = .text)

/-- Would this edit change a byte of declared program text, or what is declared (20 R47, D23)? -/
def touchesText (s : State) : HandlerEdit → Bool
  | .mapByte la b =>
    s.inRegion (fun k => decide (k = .text)) la && decide (Memory.read s.mem la.toNat ≠ some b)
  | .unmapByte la =>
    s.inRegion (fun k => decide (k = .text)) la && decide (Memory.read s.mem la.toNat ≠ none)
  | .setRegions rs => decide (rs.filter Region.isText ≠ s.regions.filter Region.isText)
  | _ => false

/-- The addresses changed in this run once the byte at `la` is `b` (20 R47). -/
def noteChange (s : State) (la : Qword) (b : Option Byte) : List Nat :=
  if Memory.read s.mem la.toNat = b then s.changed else s.changed.insert la.toNat

def applyEdit (s : State) : HandlerEdit → State
  | .mapByte la b => { s with mem := Memory.write s.mem la.toNat b, changed := noteChange s la (some b) }
  | .unmapByte la => { s with mem := Memory.erase s.mem la.toNat, changed := noteChange s la none }
  | .setZmm i v => s.setZmm i v
  | .setMask i v => s.setMask i v
  | .setGpr i v => s.setGpr i v
  | .setRegions rs => { s with regions := rs }
  | .setCr0 v => { s with cr0 := v }
  | .setCr4 v => { s with cr4 := v }
  | .setXcr0 v => { s with xcr0 := v }
  | .setDr n v => { s with dr := s.dr.set n.val v n.isLt }
  | .setDr7 v => { s with dr7 := v }
  | .setInterruptPending b => { s with interruptPending := b }
  | .setSavedRip v => { s with delivered := s.delivered.map fun d => { d with savedRip := v } }
  | .setSavedFlags v => { s with delivered := s.delivered.map fun d => { d with savedFlags := v } }

/-- What a handler run leaves; none when it would have changed declared program text. -/
def applyEdits (s : State) : List HandlerEdit → Option State
  | [] => some s
  | e :: es => if touchesText s e then none else applyEdits (applyEdit s e) es

/-! ## Instruction fetch (20 R30, R31; 10 R14) -/

/-- The bytes from address `a` on, while they are mapped and below `top`, at most `n`. -/
def fetchFrom (s : State) (top : Nat) : Nat → Nat → List Byte
  | 0, _ => []
  | n + 1, a =>
    if a < top then
      match Memory.read s.mem (linear s .cs (BitVec.ofNat 64 a) 0).toNat with
      | some b => b :: fetchFrom s top n (a + 1)
      | none => []
    else []

/-- The window the decoder sees: up to fifteen bytes at `rip` (30 R50). -/
def fetchBytes (s : State) : List Byte := fetchFrom s (spaceSize s) maxLength s.rip.toNat

/-- Has one of the `n` bytes from `rip` on changed in this run (20 R47)? -/
def textChanged (s : State) (n : Nat) : Bool :=
  (List.range n).any fun i => s.changed.contains (linear s .cs s.rip i).toNat

/-- Do `n` bytes from `rip` on cross the top of the address space (10 R14, D21)? DESIGN CHOICE (log 21): judged on `rip`, not on
linear addresses, which differ in Mode32 with a CS base. -/
def crossesTop (s : State) (n : Nat) : Bool := decide (spaceSize s < s.rip.toNat + n)

/-- `rip <- rip + n` (40 R87), in the width of the mode (10 R14). -/
def advance (n : Nat) (s : State) : State := { s with rip := truncW s (s.rip + BitVec.ofNat 64 n) }

/-- Store bytes at `rip`, where the fetch finds them. -/
def placeBytes (s : State) : Nat → List Byte → State
  | _, [] => s
  | i, b :: bs =>
    placeBytes { s with mem := Memory.write s.mem (linear s .cs s.rip i).toNat b } (i + 1) bs

end Sys2Proof.Machine
end

