-- ==== Sys2Proof/Machine/Gather.lean ====
section
/-! DEFINITION. The execution relation the six forms share (spec 40 R85 to R97), with the implementation's free
choices as an argument. -/

namespace Sys2Proof.Machine

/-! ## Before execution (R86, 60 R121) -/

/-- The #UD conditions a decoded instruction can still meet: a 16-bit address (30 R63), state not enabled or a
feature flag missing (R70), k0 (R66), destination = index (R67). -/
def udCondition (f : Form) (o : Operands) (s : State) : Bool :=
  decide (asize o s = .a16) || !s.osEnabled || !s.hasFeatures f || decide (o.mask = 0#3) ||
    decide (o.dest = o.index)

/-! ## Reading the elements (R84) -/

/-- `Rj`: the oracle's answer for element `j`. -/
def answer (f : Form) (o : Operands) (s : State) (j : Nat) : Access :=
  access s j (segOf o s) (effectiveAddress f o s j) f.elemBytes (asize o s)

/-- `Vj`, for an element that was read. -/
def elemValue (f : Form) (o : Operands) (s : State) (j : Nat) : Qword :=
  match answer f o s j with
  | .ok v => v
  | _ => 0

def isOk (f : Form) (o : Operands) (s : State) (j : Nat) : Bool :=
  match answer f o s j with
  | .ok _ => true
  | _ => false

/-- Does some active element lie in side-effecting memory (20 R42)? -/
def hitsSideEffect (f : Form) (o : Operands) (s : State) : Bool :=
  (active f o s).any fun j => decide (answer f o s j = .sideEffect)

/-- `f = min F` with its fault: the faulting element nearest the least significant end (R88, 60 R131). -/
def firstFault (f : Form) (o : Operands) (s : State) : Option (Nat × AccessFault) :=
  (active f o s).findSome? fun j =>
    match answer f o s j with
    | .fault e => some (j, e)
    | _ => none

/-! ## Writing the elements of `Done` -/

/-- The values of the elements in a list, written into the destination (R87, R88). -/
def writeElems (es : Nat) (vals : Nat → Qword) : List Nat → VecWord → VecWord
  | [], z => z
  | j :: js, z => writeElems es vals js (putField z (es * j) es (vals j))

/-- The mask bits of the elements in a list, cleared (R87, R88). -/
def clearBits : List Nat → MaskWord → MaskWord
  | [], m => m
  | j :: js, m => clearBits js (clearBit m j)

/-- The linear addresses of the bytes of the elements in a list. -/
def elemBytesOf (f : Form) (o : Operands) (s : State) (js : List Nat) : List Qword :=
  js.flatMap fun j =>
    (List.range f.elemBytes).map (linear s (segOf o s) (effectiveAddress f o s j))

/-- Complete the elements in `done`: each gets its value and loses its mask bit, always both (R88); the traps their
reads make pending are recorded (10 R20); `zd` and `zk` zero the upper parts (R87, R90). -/
def commit (f : Form) (o : Operands) (done : List Nat) (zd zk : Bool) (s : State) : State :=
  let z := writeElems f.es (elemValue f o s) done (s.getZmm o.dest)
  let m := clearBits done (s.getMask o.mask)
  { (s.setZmm o.dest (if zd then zeroFrom z f.dw else z)).setMask o.mask
      (if zk then zeroMaskFrom m f.kl else m) with
    pendingTraps := Trap.union s.pendingTraps (dataTraps s (elemBytesOf f o s done)) }

/-! ## The free choices -/

/-- What the spec leaves to the implementation in one execution. -/
structure Choices where
  /-- `GatherLeft` (R89) -/
  left : BitVec 8
  /-- `zd` (R90) -/
  zd : Bool
  /-- `zk` (R90) -/
  zk : Bool
  /-- does a pending interrupt end the gather (R92)? -/
  interrupted : Bool
  /-- `Done` of an interrupted gather (R92) -/
  done : BitVec 8
  /-- which pending event is delivered (U7) -/
  pick : Nat
  deriving DecidableEq, Repr

/-- The architectural part of a state: without the model's own fields and without the records of delivered events. -/
def archView (s : State) : State :=
  { s with
    freeCount := 0, clock := 0, handlers := [], oracle := [], changed := [], outer := [], delivered := none }

/-- The inputs of an execution: the oracle's answer for each active element (R89). -/
def inputs (f : Form) (o : Operands) (s : State) : List (Nat × Access) :=
  (active f o s).map fun j => (j, answer f o s j)

/-- The choices of this execution, from the free values of Config (log 12 to 15). -/
def choicesOf (f : Form) (o : Operands) (s : State) : Choices where
  left := Config.gatherLeft f o (inputs f o s) (archView s)
  zd := Config.zeroDestUpper s.freeCount
  zk := Config.zeroMaskUpper s.freeCount
  interrupted := Config.interruptTaken s.freeCount
  done := Config.interruptDone s.freeCount
  pick := Config.pendingPick s.freeCount

/-! ## The outcomes -/

/-- `Completed` (R87): every active element, both upper parts zeroed, `rip` advanced. -/
def completed (f : Form) (o : Operands) (s : State) : State :=
  advance o.ilen (commit f o (active f o s) true true s)

/-- `Left` (R89): the chosen readable active elements beyond the faulting one. -/
def leftOf (ch : Choices) (f : Form) (o : Operands) (s : State) (j0 : Nat) : List Nat :=
  (active f o s).filter fun j => decide (j0 < j) && isOk f o s j && ch.left.getLsbD j

/-- `Right` (R88): the active elements before the faulting one. -/
def rightOf (f : Form) (o : Operands) (s : State) (j0 : Nat) : List Nat :=
  (active f o s).filter fun j => decide (j < j0)

/-- `Suspended` (R88 to R91) by the fault `e` of element `j0`: `Right` and `Left` completed; then, if an element has
been completed and something is pending, that in lieu of the fault, else the fault. -/
def suspended (ch : Choices) (f : Form) (o : Operands) (s : State) (j0 : Nat) (e : AccessFault) : State :=
  let done := rightOf f o s j0 ++ leftOf ch f o s j0
  let t := commit f o done ch.zd ch.zk s.tick
  if done.isEmpty || (pendings t).isEmpty then takeEvent (.elementFault j0 (effectiveAddress f o s j0) e) t
  else deliverPending true (pick ch.pick (pendings t)) t

/-- `Interrupted` (R92): any chosen readable active elements completed, then the interrupt. -/
def interrupted (ch : Choices) (f : Form) (o : Operands) (s : State) : State :=
  let done := (active f o s).filter fun j => isOk f o s j && ch.done.getLsbD j
  deliverPending true .interrupt (commit f o done ch.zd ch.zk s.tick)

/-- A gather that has begun (R85, R87 to R92). DESIGN CHOICE (log 14): a pending interrupt is tested first, though R85 tests
`Completed` and `Suspended` before `Interrupted`. So it may end a gather with any subset done, as R92 admits, also with nothing
done when no element is active, where R95 says `Completed`, and when an element faults, where R91 puts it in lieu of the
fault only with `Done` not empty. -/
def gatherBody (ch : Choices) (f : Form) (o : Operands) (s : State) : Host.Outcome State Fault Refusal :=
  if hitsSideEffect f o s then .refused .sideEffectingMemory
  else if s.interruptPending && ch.interrupted then .next (interrupted ch f o s)
  else
    match firstFault f o s with
    | some (j0, e) => .next (suspended ch f o s j0 e)
    | none => .next (completed f o (if s.interruptPending then s.tick else s))

/-- One execution (R85): refused before it begins (R86; #UD before #NM, 60 R130), or begun. -/
def gatherWith (ch : Choices) (f : Form) (o : Operands) (s : State) : Host.Outcome State Fault Refusal :=
  if crossesTop s o.ilen then .refused .ripWrap
  else if udCondition f o s then .next (takeEvent .invalidOpcode s)
  else if !s.mode64 && !lowRegs o then .refused .mode32ExtensionBits
  else if s.ts then .next (takeEvent .deviceNotAvailable s)
  else gatherBody ch f o s

/-- One execution with the implementation's choices. -/
def gather (f : Form) (o : Operands) (s : State) : Host.Outcome State Fault Refusal :=
  gatherWith (choicesOf f o s) f o s

end Sys2Proof.Machine
end

