-- ==== Sys2Proof/Machine/Vpgatherqd.lean ====
section
/-! DEFINITION. The meanings of the three VPGATHERQD forms (spec 41): the shared relation with each form's constants. -/

namespace Sys2Proof.Machine

/-- R100: two dwords, two qword indices. -/
def execVpgatherqdXmmVm64x (o : Operands) (s : State) : Host.Outcome State Fault Refusal :=
  gather .qd128 o s

/-- R101: four dwords, four qword indices. -/
def execVpgatherqdXmmVm64y (o : Operands) (s : State) : Host.Outcome State Fault Refusal :=
  gather .qd256 o s

/-- R102: eight dwords, eight qword indices. -/
def execVpgatherqdYmmVm64z (o : Operands) (s : State) : Host.Outcome State Fault Refusal :=
  gather .qd512 o s

end Sys2Proof.Machine
end

