-- ==== Sys2Proof/Machine/Vpgatherqq.lean ====
section
/-! DEFINITION. The meanings of the three VPGATHERQQ forms (spec 42): the shared relation with each form's constants. -/

namespace Sys2Proof.Machine

/-- R110: two qwords, two qword indices. -/
def execVpgatherqqXmmVm64x (o : Operands) (s : State) : Host.Outcome State Fault Refusal :=
  gather .qq128 o s

/-- R111: four qwords, four qword indices. -/
def execVpgatherqqYmmVm64y (o : Operands) (s : State) : Host.Outcome State Fault Refusal :=
  gather .qq256 o s

/-- R112: eight qwords, eight qword indices. -/
def execVpgatherqqZmmVm64z (o : Operands) (s : State) : Host.Outcome State Fault Refusal :=
  gather .qq512 o s

end Sys2Proof.Machine
end

