-- ==== Sys2Proof/Machine/Dispatch.lean ====
section
/-! DEFINITION. The dispatch: one arm per instruction of the opcode table. -/

namespace Sys2Proof.Machine

def exec (i : Instr) (s : State) : Host.Outcome State Fault Refusal :=
  match i with
  | .vpgatherqdXmmVm64x o => Sys2Proof.Machine.execVpgatherqdXmmVm64x o s
  | .vpgatherqdXmmVm64y o => Sys2Proof.Machine.execVpgatherqdXmmVm64y o s
  | .vpgatherqdYmmVm64z o => Sys2Proof.Machine.execVpgatherqdYmmVm64z o s
  | .vpgatherqqXmmVm64x o => Sys2Proof.Machine.execVpgatherqqXmmVm64x o s
  | .vpgatherqqYmmVm64y o => Sys2Proof.Machine.execVpgatherqqYmmVm64y o s
  | .vpgatherqqZmmVm64z o => Sys2Proof.Machine.execVpgatherqqZmmVm64z o s

end Sys2Proof.Machine
end

