-- ==== Sys2Proof/Machine/Cycle.lean ====
section
/-! DEFINITION. One step of the machine around `exec`: a delivered event and its handler (spec 60 R134, R136, R137), a
trap pending between instructions (R128, R145), fetch and decode (30 R72), an instruction breakpoint (60
R128, R130), and what completion does beside the instruction's own effect (R128, R145). -/

namespace Sys2Proof.Machine

/-- A handler's run ends: it returns, or runs instructions of its own (60 R136, R137). -/
def leaveHandler (x : HandlerExit) (d : Delivery) (s : State) : State :=
  match x with
  | .ret => returnFromEvent d s
  | .code entry stop flags =>
    { s with
      rip := entry, eflags := flags, delivered := none, outer := { event := d, stop := stop } :: s.outer }

/-- One run of the environment in the handler of the delivered event, as one step (log 11). -/
def runHandler (s : State) : Host.Outcome State Fault Refusal :=
  match s.handlers with
  | [] => .fault .awaitingHandler
  | h :: hs =>
    match applyEdits { s with handlers := hs } h.edits with
    | none => .refused .textModified
    | some t =>
      match t.delivered with
      | none => .fault .awaitingHandler
      | some d => .next (leaveHandler h.exit d t)

/-- The handler whose instructions end at `rip`, if one does (60 R137). -/
def endingHandler (s : State) : Option Frame :=
  s.outer.head?.filter fun fr => decide (s.rip = fr.stop)

/-- The environment has control again in the handler of this event. -/
def resumeHandler (fr : Frame) (s : State) : State :=
  { s with delivered := some fr.event, outer := s.outer.tail }

/-- A pending trap is delivered before the next instruction (R128; which one of several is free, U7). -/
def deliverBetween (s : State) : State :=
  deliverPending false (pick (Config.pendingPick s.freeCount) (s.pendingTraps.map Pending.trap)) s.tick

/-- After an instruction that ended in no event: RF is cleared (R128), and with TF set the single-step trap is
pending (R145). `s` is the state before the instruction. -/
def afterCompletion (s t : State) : State :=
  { t with
    eflags := withRf t.eflags false
    pendingTraps := if s.tf then Trap.union t.pendingTraps [.singleStep] else t.pendingTraps }

/-- `exec`, and what follows it when it ended in no event. -/
def execute (i : Instr) (s : State) : Host.Outcome State Fault Refusal :=
  match exec i s with
  | .next t => .next (if t.delivered.isNone then afterCompletion s t else t)
  | .fault r => .fault r
  | .refused r => .refused r

/-- An instruction breakpoint comes before everything else of the instruction (60 R130). -/
def withBreakpoints (s : State) (run : Host.Outcome State Fault Refusal) : Host.Outcome State Fault Refusal :=
  match instrBreakpoints s with
  | [] => run
  | hits => .next (takeEvent (.instructionBreakpoint hits) s)

/-- An instruction of `n` bytes at `rip`: refused if one of them has changed in this run (20 R47), else run, its breakpoints
first. -/
def atInstruction (s : State) (n : Nat) (run : Host.Outcome State Fault Refusal) : Host.Outcome State Fault Refusal :=
  if textChanged s n then .refused .textModified else withBreakpoints s run

/-- An encoding of `n` bytes that raises #UD: refused if its bytes cross the top of the address space (10 R14, D21), else
taken. DESIGN CHOICE (log 27): that refusal comes ahead of an instruction breakpoint, here and in `truncatedFetch`. -/
def takeUd (n : Nat) (s : State) : Host.Outcome State Fault Refusal :=
  if crossesTop s n then .refused .ripWrap else atInstruction s n (.next (takeEvent .invalidOpcode s))

/-- The bytes end before the instruction does: at the top of the address space (10 R14), at the fifteenth byte,
which only repeated prefixes reach (30 R50, D30), or at a byte that is not mapped (60 R130), which a handler may have
unmapped (20 R47). DESIGN CHOICE (log 27): all of these come ahead of an instruction breakpoint. -/
def truncatedFetch (s : State) : Host.Outcome State Fault Refusal :=
  if spaceSize s ≤ s.rip.toNat + (fetchBytes s).length then .refused .ripWrap
  else if (fetchBytes s).length = maxLength then .refused .repeatedPrefix
  else if textChanged s ((fetchBytes s).length + 1) then .refused .textModified
  else .fault .fetchUnmapped

/-- Fetch, decode, run. -/
def runAtRip (s : State) : Host.Outcome State Fault Refusal :=
  match decode s.codeSize (fetchBytes s) with
  | .instr i _ => atInstruction s i.ops.ilen (execute i s)
  | .ud _ n => takeUd n s
  | .repeatedPrefix => .refused .repeatedPrefix
  | .mode32ExtensionBits => .refused .mode32ExtensionBits
  | .notThisInstruction => .refused .notThisInstruction
  | .truncated => truncatedFetch s

/-- What a step does, but for the clock. -/
def act (s : State) : Host.Outcome State Fault Refusal :=
  if s.delivered.isSome then runHandler s
  else if s.pendingTraps.isEmpty then
    match endingHandler s with
    | some fr => .next (resumeHandler fr s)
    | none => runAtRip s
  else .next (deliverBetween s)

/-- One step, and the clock (log 41). -/
def cycle (s : State) : Host.Outcome State Fault Refusal :=
  match act s with
  | .next t => .next t.tock
  | .fault r => .fault r
  | .refused r => .refused r

/-- The bytes of an instruction placed where the next fetch finds them, with nothing in its way: no event delivered, no
trap pending, no handler's code that ends here, no byte changed since (log 32). -/
def placeInstruction (s : State) (bytes : List Byte) : State :=
  placeBytes { s with delivered := none, pendingTraps := [], outer := [], changed := [] } 0 bytes

end Sys2Proof.Machine
end

