-- ==== Sys2Proof/Machine/Step.lean ====
section
/-! DEFINITION. The step function and the placing of one instruction for the next fetch. -/

namespace Sys2Proof.Machine

/-- One step of the machine. -/
def step (s : State) : Host.Outcome State Fault Refusal := cycle s

/-- The instruction whose bits are `w`, numbered as the opcode table numbers them, zeros after it, stored where
`step` fetches next (log 32). -/
def State.withFetchWord (s : State) (nbits w : Nat) : State := placeInstruction s (tableBytes nbits w)

end Sys2Proof.Machine
end

