-- ==== Sys2Proof/Safety.lean ====
section
/-! DEFINITION. What counts as a safe run, in the terms claims use: the launch premises under which a gather runs to
its own effect (spec 92, last section; 40 R86), which elements it can read, what a delivered event may
look like (60 R120), and the invariant of the machine. -/

namespace Sys2Proof.Machine

/-- The premises under which a gather begins: no #UD condition of 40 R86, CR0.TS clear, and the bytes below the top of
the address space. (An interrupt may still be pending.) -/
structure Ready (f : Form) (o : Operands) (s : State) : Prop where
  fits : s.rip.toNat + o.ilen ≤ spaceSize s
  addressSize : asize o s ≠ .a16
  enabled : s.osEnabled = true
  features : s.hasFeatures f = true
  notK0 : o.mask ≠ 0#3
  distinct : o.dest ≠ o.index
  registers : s.mode64 = true ∨ lowRegs o = true
  notTs : s.ts = false

/-- Every active element can be read (40 R87). -/
def AllReadable (f : Form) (o : Operands) (s : State) : Prop :=
  ∀ j < f.kl, isActive o s j = true → ∃ v, answer f o s j = .ok v

/-- No active element lies in side-effecting memory (20 R42). -/
def NoSideEffects (f : Form) (o : Operands) (s : State) : Prop :=
  ∀ j < f.kl, isActive o s j = true → answer f o s j ≠ .sideEffect

/-- `f` is the faulting element nearest the least significant end, with its fault (40 R88). -/
def FirstFault (f : Form) (o : Operands) (s : State) (j0 : Nat) (e : AccessFault) : Prop :=
  j0 < f.kl ∧ isActive o s j0 = true ∧ answer f o s j0 = .fault e ∧
    ∀ j < j0, isActive o s j = true → ∃ v, answer f o s j = .ok v

/-- The destination, the mask and `rip` after a completed gather of `kl` elements of `es` bits, of `bytes` bytes each
(40 R87): every active element holds the little-endian value read at its address, every inactive one is as
before, everything above the elements is zero, the mask is zero, `rip` is past the instruction. -/
structure Gathered (f : Form) (bytes es kl : Nat) (o : Operands) (s t : State) : Prop where
  actives : ∀ j < kl, isActive o s j = true → ∀ v,
    access s j (segOf o s) (effectiveAddress f o s j) bytes (asize o s) = .ok v →
      getField (t.getZmm o.dest) (es * j) es = v
  inactives : ∀ j < kl, isActive o s j = false →
    getField (t.getZmm o.dest) (es * j) es = getField (s.getZmm o.dest) (es * j) es
  upper : ∀ n, kl * es ≤ n → (t.getZmm o.dest).getLsbD n = false
  mask : t.getMask o.mask = 0
  rip : t.rip = truncW s (s.rip + BitVec.ofNat 64 o.ilen)

/-- The instructions `mk o` complete: whenever ready, with no interrupt pending and every active element readable, the
instruction answers a next state with this form's result (41, 42). -/
def FormCompletes (mk : Operands → Instr) (f : Form) (bytes es kl : Nat) : Prop :=
  ∀ (o : Operands) (s : State), Ready f o s → s.interruptPending = false → AllReadable f o s →
    ∃ t, exec (mk o) s = .next t ∧ Gathered f bytes es kl o s t

/-- The destination, the mask and `rip` after a gather ended early with exactly the elements of `done` completed (40 R88,
R90): each of those has both effects, no other element or mask bit below `KL` changes, the upper parts are
zeroed or unchanged as `zd` and `zk` say, `rip` stays. -/
structure PartlyGathered (f : Form) (o : Operands) (done : List Nat) (zd zk : Bool) (s t : State) : Prop where
  gathered : ∀ j ∈ done, ∀ v, answer f o s j = .ok v →
    getField (t.getZmm o.dest) (f.es * j) f.es = v ∧ (t.getMask o.mask).getLsbD j = false
  kept : ∀ j < f.kl, j ∉ done →
    getField (t.getZmm o.dest) (f.es * j) f.es = getField (s.getZmm o.dest) (f.es * j) f.es ∧
      (t.getMask o.mask).getLsbD j = (s.getMask o.mask).getLsbD j
  upperDest : ∀ n, f.dw ≤ n → (t.getZmm o.dest).getLsbD n = (!zd && (s.getZmm o.dest).getLsbD n)
  upperMask : ∀ n, f.kl ≤ n → (t.getMask o.mask).getLsbD n = (!zk && (s.getMask o.mask).getLsbD n)
  rip : t.rip = s.rip

/-- The record of a fault-class exception raised in state `s` (60 R134, R135). -/
def faultRecord (s : State) (e : Exc) (code : Option (BitVec 32)) (el : Option ElementInfo) : Delivery :=
  { kind := .exception e, errorCode := code, savedRip := s.rip, savedFlags := withRf s.eflags true, element := el }

/-- The flags image of a delivery has RF set. -/
def Delivery.rf (d : Delivery) : Bool := d.savedFlags.getLsbD rfBit

/-- 60 R120: never #AC, never #XM; #UD, #NM, #DB and an interrupt push no error code, #SS and #GP push 0, #PF pushes one. -/
def Delivery.legal (d : Delivery) : Bool :=
  match d.kind with
  | .interrupt => decide (d.errorCode = none)
  | .exception .ud => decide (d.errorCode = none)
  | .exception .nm => decide (d.errorCode = none)
  | .exception .db => decide (d.errorCode = none)
  | .exception .ss => decide (d.errorCode = some 0)
  | .exception .gp => decide (d.errorCode = some 0)
  | .exception .pf => d.errorCode.isSome
  | .exception .ac => false
  | .exception .xm => false

/-- A byte that the concrete oracle reads: no region faults it, it is mapped, and not a supervisor byte at privilege level 3
(20 R41 (2)). -/
def Readable (s : State) (la : Qword) : Prop :=
  regionFault s false la = none ∧ (∃ b, Memory.read s.mem la.toNat = some b) ∧
    ¬ (s.cpl = 3#2 ∧ s.inRegion (fun k => decide (k = .supervisor)) la = true)

/-- The `n` bytes of an access pass every check that comes before translation (20 R41 (1), 60 R132). -/
def PassesSegment (s : State) (g : Seg) (ea : Qword) (n : Nat) : Prop :=
  segmentFault s g ea n = false ∧ ∀ i < n, regionFault s true (linear s g ea i) = none

/-- A pending trap is set by a gather for an element in `done`: a data breakpoint matches one of its bytes (10 R20). -/
def SetsTrap (f : Form) (o : Operands) (s : State) (done : List Nat) (x : Trap) : Prop :=
  ∃ n, x = .breakpoint n ∧ ∃ j ∈ done, ∃ b < f.elemBytes,
    dataMatch s n (linear s (segOf o s) (effectiveAddress f o s j) b) = true

/-- `pend` is the traps pending in `s` and, once each, the ones the elements in `done` set (10 R20, 60 R145). -/
def TrapsAdded (f : Form) (o : Operands) (done : List Nat) (s : State) (pend : List Trap) : Prop :=
  ∃ new, pend = s.pendingTraps ++ new ∧ new.Nodup ∧
    ∀ x, x ∈ new ↔ x ∉ s.pendingTraps ∧ SetsTrap f o s done x

/-- With `pend` pending, the fault of element `j0` is delivered; what is pending stays, DR6 is as it was, and CR2 holds a page
fault's linear address and is else as it was (40 R88, 60 R126, R135; log 31). -/
def DeliversFault (f : Form) (o : Operands) (s : State) (j0 : Nat) (e : AccessFault) (pend : List Trap) (t : State) : Prop :=
  t.delivered = some (faultRecord s e.exc (some e.errorCode) (some ⟨j0, effectiveAddress f o s j0⟩)) ∧
    t.pendingTraps = pend ∧ t.interruptPending = s.interruptPending ∧ t.dr6 = s.dr6 ∧
    t.cr2 = match e with
      | .gp0 => s.cr2
      | .ss0 => s.cr2
      | .pf _ la => la

/-- With `pend` pending, one of those traps is delivered in place of the gather's going on: it is pending no longer and its bit of
DR6 is set, the others stay (40 R91, 60 R133; which one, and that the others stay: log 15). -/
def DeliversTrap (s : State) (pend : List Trap) (t : State) : Prop :=
  ∃ x ∈ pend, t.delivered = some (faultRecord s .db none none) ∧ t.pendingTraps = pend.erase x ∧
    t.interruptPending = s.interruptPending ∧ t.dr6 = s.dr6 ||| x.dr6Bit ∧ t.cr2 = s.cr2

/-- With `pend` pending, the pending interrupt is delivered: it is pending no longer (log 14), the traps stay, and DR6 is as it was
(40 R91, R92). -/
def DeliversInterrupt (s : State) (pend : List Trap) (t : State) : Prop :=
  s.interruptPending = true ∧
    t.delivered = some
      { kind := .interrupt, errorCode := none, savedRip := s.rip, savedFlags := withRf s.eflags true, element := none } ∧
    t.pendingTraps = pend ∧ t.interruptPending = false ∧ t.dr6 = s.dr6 ∧ t.cr2 = s.cr2

/-- A step of the machine in this state looks at what stands at `rip`: no event is being handled by the environment, no trap is
pending, and no handler's code ends here. -/
structure LooksAtRip (s : State) : Prop where
  quiet : s.delivered = none
  noTrap : s.pendingTraps = []
  notEnding : ∀ fr, s.outer.head? = some fr → s.rip ≠ fr.stop

/-- It looks there, and none of the `n` bytes from `rip` on has changed in this run. -/
structure FetchesHere (s : State) (n : Nat) : Prop extends LooksAtRip s where
  unchanged : ∀ k < n, (linear s .cs s.rip k).toNat ∉ s.changed

/-- Bytes that the mode decodes to the instruction are those of its encoding: it is well formed and, in 32-bit mode, names registers
that exist there and has an address size other than 16 (30 R63, R71). -/
def Encodable (i : Instr) (s : State) : Prop :=
  i.wf = true ∧ (s.mode64 = true ∨ lowRegs i.ops = true ∧ asize i.ops s ≠ .a16)

/-- What a step answers that runs the instruction: what `exec` answers; when that ended in no event, with RF cleared (60 R128) and,
with TF set, the single-step trap pending (60 R145); and the clock. -/
def stepped (i : Instr) (s : State) : Host.Outcome State Fault Refusal :=
  match exec i s with
  | .next t =>
    .next (State.tock (if t.delivered.isNone then
      { t with
        eflags := withRf t.eflags false
        pendingTraps := if s.tf then Trap.union t.pendingTraps [.singleStep] else t.pendingTraps }
      else t))
  | .fault r => .fault r
  | .refused r => .refused r

/-- The two bytes are one prefix written twice, or two segment overrides, or two REX prefixes (30 R51). -/
def SamePrefix (c : CodeSize) (x y : Byte) : Prop :=
  (∃ g g' : Seg, x = g.prefixByte ∧ y = g'.prefixByte) ∨
    (x = y ∧ (x = 0x67#8 ∨ x = 0xF0#8 ∨ x = 0x66#8 ∨ x = 0xF2#8 ∨ x = 0xF3#8)) ∨
    (c = .code64 ∧ x.extractLsb' 4 4 = 4#4 ∧ y.extractLsb' 4 4 = 4#4)

/-- The byte is a prefix that may not stand before EVEX (30 R51). -/
def ForbiddenPrefix (c : CodeSize) (x : Byte) : Prop :=
  x = 0xF0#8 ∨ x = 0x66#8 ∨ x = 0xF2#8 ∨ x = 0xF3#8 ∨ (c = .code64 ∧ x.extractLsb' 4 4 = 4#4)

/-- The bytes of EVEX.66.0F38 91H up to ModRM, with any payload the code size takes for EVEX (30 R52, R53, R55). -/
def GatherPoint (c : CodeSize) (p0 p1 : Byte) : Prop :=
  (c = .code64 ∨ p0.extractLsb' 6 2 = 3#2) ∧ p0.extractLsb' 0 3 = 2#3 ∧ p1.extractLsb' 0 2 = 1#2

/-- `nd`, how many displacement bytes ModRM and the VSIB byte ask for (30 R62); a VSIB byte that is not there asks for none where
`mod = 00b` (log 21). -/
def dispCount (modrm : Byte) (vsib : Option Byte) : Nat :=
  if modrm.extractLsb' 6 2 = 1#2 then 1
  else if modrm.extractLsb' 6 2 = 2#2 ∨
      (modrm.extractLsb' 6 2 = 0#2 ∧ vsib.map (fun v => v.extractLsb' 0 3) = some 5#3) then 4
  else 0

/-- How many bytes an encoding with `np` prefixes has: `np + 7 + nd` (30 R50), and `np + 6` where ModRM names no VSIB operand
(log 21). -/
def encodingLength (np : Nat) (modrm : Byte) (vsib : Option Byte) : Nat :=
  if modrm.extractLsb' 6 2 = 3#2 ∨ modrm.extractLsb' 0 3 ≠ 4#3 then np + 6 else np + 7 + dispCount modrm vsib

/-- The machine's invariant: memory in canonical form, `PendingTraps` a set, and any recorded event, nested ones included,
one that R120 allows. -/
structure State.Inv (s : State) : Prop where
  mem : Memory.wf s.mem
  traps : s.pendingTraps.Nodup
  event : ∀ d, s.delivered = some d → d.legal = true
  nested : ∀ fr ∈ s.outer, fr.event.legal = true

end Sys2Proof.Machine
end

