-- ==== Sys2Proof/Certificates/Slice0/Obligations.lean ====
section
/-! DEFINITION. The statements for the provers. Each docstring names the rule of spec/ it formalises; OBLIGATIONS.json
lists them with their words. -/

open Sys2Proof Sys2Proof.Machine

/-! ## Reset, encoding, the step -/

/-- R150, with the defaults of R5 and the state R151 leaves: the launch state. The values are the model's choice where the
spec gives none (log 2). -/
def Obligations.ResetIsTheLaunchState : Prop :=
  State.reset.codeSize = .code64 ∧ State.reset.osEnabled = true ∧ State.reset.ts = false ∧
    State.reset.hasAvx512f = true ∧ (∀ g, segBase State.reset g = 0) ∧
    State.reset.delivered = none ∧ State.reset.pendingTraps = [] ∧ State.reset.interruptPending = false ∧
    (∀ a, Memory.read State.reset.mem a = none)

/-- The launch state meets the machine's invariant. -/
def Obligations.ResetMeetsInvariant : Prop := State.reset.Inv

/-- T3 and R100 to R112: the six worked examples' bytes are the six instructions.
Layout: log 23. -/
def Obligations.WorkedExampleBytesDecode : Prop :=
  let d : Operands := ⟨1, 2, 1, .base 0 .absent, .x4, none, false⟩
  let q : Operands := ⟨1, 2, 1, .base 0 .absent, .x8, none, false⟩
  decode .code64 [0x62#8, 0xF2#8, 0x7D#8, 0x09#8, 0x91#8, 0x0C#8, 0x90#8] = .instr (.vpgatherqdXmmVm64x d) [] ∧
  decode .code64 [0x62#8, 0xF2#8, 0x7D#8, 0x29#8, 0x91#8, 0x0C#8, 0x90#8] = .instr (.vpgatherqdXmmVm64y d) [] ∧
  decode .code64 [0x62#8, 0xF2#8, 0x7D#8, 0x49#8, 0x91#8, 0x0C#8, 0x90#8] = .instr (.vpgatherqdYmmVm64z d) [] ∧
  decode .code64 [0x62#8, 0xF2#8, 0xFD#8, 0x09#8, 0x91#8, 0x0C#8, 0xD0#8] = .instr (.vpgatherqqXmmVm64x q) [] ∧
  decode .code64 [0x62#8, 0xF2#8, 0xFD#8, 0x29#8, 0x91#8, 0x0C#8, 0xD0#8] = .instr (.vpgatherqqYmmVm64y q) [] ∧
  decode .code64 [0x62#8, 0x82#8, 0xFD#8, 0x47#8, 0x91#8, 0x4C#8, 0xF5#8, 0x08#8] =
    .instr (.vpgatherqqZmmVm64z ⟨17, 30, 7, .base 13 (.disp8 8), .x8, none, false⟩) []

/-- R50 to R62: in 64-bit mode the decoder reads every well-formed instruction back from its bytes, whatever follows.
Layout: log 23. -/
def Obligations.EncodeThenDecode64 : Prop :=
  ∀ (i : Instr) (rest : List Byte), i.wf = true → decode .code64 (encode i ++ rest) = .instr i rest

/-- R71: the same in 32-bit mode, for the registers that exist there and an address size that is not 16.
Layout: log 23; 32-bit mode: log 34. -/
def Obligations.EncodeThenDecode32 : Prop :=
  ∀ (c : CodeSize) (i : Instr) (rest : List Byte), c ≠ .code64 → i.wf = true → lowRegs i.ops = true →
    asizeOf c i.ops.addrSizePrefix ≠ .a16 → decode c (encode i ++ rest) = .instr i rest

/-- R50: a decoded instruction has taken `np + 7 + nd` bytes, at most thirteen, and its address can be encoded.
Layout: log 23. -/
def Obligations.DecodedInstructionLength : Prop :=
  ∀ (c : CodeSize) (bytes rest : List Byte) (i : Instr), decode c bytes = .instr i rest →
    (∃ pre, bytes = pre ++ rest ∧ pre.length = i.ops.ilen) ∧ i.ops.ilen ≤ 13 ∧ i.ops.addr.wf = true

/-- R75, R76, R51, R54, R63, R65, R68, R69, R58 to R62, R71: in every code size, after at most one segment override and at most one
67H in either order, every encoding of EVEX.66.0F38 91H raises #UD under the listed conditions, whatever bytes follow ModRM, is
refused in 32-bit mode with a stored extension bit 0, and is otherwise read as the form that `W` and `L'L` name, with these
operands, this displacement (R62, least significant byte first, R31), and the bytes after it left over. The conditions of R66
and R67 (k0, destination = index) are not among them: the model decodes such an encoding and `exec` raises its #UD, the
model's choice (log 18); so are the place of the 32-bit refusal (log 20), the length of an #UD encoding (log 21) and that #UD
needs no byte after ModRM (log 22). The spec has several of the conditions from general knowledge (D27; logs 23, 25). -/
def Obligations.OpcodePointIsPartitioned : Prop :=
  ∀ (c : CodeSize) (o : Operands) (pre : List Byte) (p0 p1 p2 modrm vsib d0 d1 d2 d3 : Byte) (rest tail : List Byte),
    (pre = o.prefixBytes ∨ pre = o.prefixBytes.reverse) → GatherPoint c p0 p1 →
    let upTo (bytes : List Byte) : Decoded := decode c (pre ++ 0x62#8 :: p0 :: p1 :: p2 :: 0x91#8 :: modrm :: bytes)
    let out := upTo (vsib :: d0 :: d1 :: d2 :: d3 :: rest)
    let bad : Prop := p0.getLsbD 3 = true ∨ p1.getLsbD 2 = false ∨ p2.extractLsb' 5 2 = 3#2 ∨
      p1.extractLsb' 3 4 ≠ 15#4 ∨ p2.getLsbD 4 = true ∨ p2.getLsbD 7 = true ∨
      modrm.extractLsb' 6 2 = 3#2 ∨ modrm.extractLsb' 0 3 ≠ 4#3 ∨
      (c = .code32 ∧ o.addrSizePrefix = true) ∨ (c = .code16 ∧ o.addrSizePrefix = false)
    let extended : Prop := c ≠ .code64 ∧ (p0.getLsbD 4 = false ∨ p2.getLsbD 3 = false ∨ p0.getLsbD 5 = false)
    let noBase : Prop := modrm.extractLsb' 6 2 = 0#2 ∧ vsib.extractLsb' 0 3 = 5#3
    let disp32 : BitVec 32 := d3 ++ d2 ++ d1 ++ d0
    (bad → ∃ u, upTo tail = .ud u (encodingLength pre.length modrm tail.head?)) ∧
    (¬ bad → extended → upTo tail = .mode32ExtensionBits) ∧
    (¬ bad → ¬ extended → ∃ i,
      out = .instr i ((d0 :: d1 :: d2 :: d3 :: rest).drop (dispCount modrm (some vsib))) ∧
      i.form.w = p1.getLsbD 7 ∧ i.form.ll = p2.extractLsb' 5 2 ∧
      i.ops.dest.toNat = (!p0.getLsbD 4).toNat * 16 + (!p0.getLsbD 7).toNat * 8 + (modrm.extractLsb' 3 3).toNat ∧
      i.ops.index.toNat = (!p2.getLsbD 3).toNat * 16 + (!p0.getLsbD 6).toNat * 8 + (vsib.extractLsb' 3 3).toNat ∧
      i.ops.mask = p2.extractLsb' 0 3 ∧ i.ops.segOverride = o.segOverride ∧ i.ops.addrSizePrefix = o.addrSizePrefix ∧
      i.ops.scale.factor.toNat = 2 ^ (vsib.extractLsb' 6 2).toNat ∧
      (noBase → i.ops.addr = .noBase disp32) ∧
      (¬ noBase → ∃ b d, i.ops.addr = .base b d ∧
        b.toNat = (!p0.getLsbD 5).toNat * 8 + (vsib.extractLsb' 0 3).toNat ∧
        (modrm.extractLsb' 6 2 = 0#2 → d = .absent) ∧ (modrm.extractLsb' 6 2 = 1#2 → d = .disp8 d0) ∧
        (modrm.extractLsb' 6 2 = 2#2 → d = .disp32 disp32)))

/-- R75, R55, R52, R72, with the allowed prefixes in either order: any other opcode point is "not this instruction"; so is,
outside 64-bit mode, 62H with bits 7:6 of the next byte not 11b, whatever follows, if anything does; and so is any other byte
that is no prefix. -/
def Obligations.OtherOpcodePointsAreNotThisInstruction : Prop :=
  ∀ (c : CodeSize) (o : Operands) (pre : List Byte) (b p0 p1 p2 op modrm : Byte) (rest : List Byte),
    (pre = o.prefixBytes ∨ pre = o.prefixBytes.reverse) →
    ((p0.extractLsb' 0 3 ≠ 2#3 ∨ p1.extractLsb' 0 2 ≠ 1#2 ∨ op ≠ 0x91#8) →
      decode c (pre ++ 0x62#8 :: p0 :: p1 :: p2 :: op :: modrm :: rest) = .notThisInstruction) ∧
    (c ≠ .code64 → p0.extractLsb' 6 2 ≠ 3#2 → decode c (pre ++ 0x62#8 :: p0 :: rest) = .notThisInstruction) ∧
    (b ≠ 0x62#8 → prefixByte c b = none → decode c (pre ++ b :: rest) = .notThisInstruction)

/-- R51: in every code size, prefixes none of which is repeated and one or more of which is LOCK, 66H, F2H, F3H or, in 64-bit
mode, a REX byte, in any order before an encoding at this opcode point, raise #UD, whatever follows ModRM. The spec's from
general knowledge (D27; log 38); its length: log 21; beyond fifteen bytes: log 40; that in 32-bit mode it comes before the refusal
of a stored extension bit 0 (R71): log 20, that it needs no byte after ModRM: log 22, both DESIGN CHOICE. -/
def Obligations.ForbiddenPrefixRaisesUd : Prop :=
  ∀ (c : CodeSize) (pre : List Byte) (p0 p1 p2 modrm : Byte) (rest : List Byte),
    (∀ z ∈ pre, (prefixByte c z).isSome = true) → pre.Pairwise (fun x y => ¬ SamePrefix c x y) →
    (∃ x ∈ pre, ForbiddenPrefix c x) → GatherPoint c p0 p1 →
    ∃ u, decode c (pre ++ 0x62#8 :: p0 :: p1 :: p2 :: 0x91#8 :: modrm :: rest) =
      .ud u (encodingLength pre.length modrm rest.head?)

/-- R51, D27: in every code size a prefix written twice, or two segment overrides, anywhere among the prefixes of an encoding at
this opcode point, is refused. The spec's decision (log 20); two REX bytes count as one prefix twice (log 38). -/
def Obligations.RepeatedPrefixIsRefused : Prop :=
  ∀ (c : CodeSize) (a b e : List Byte) (x y p0 p1 p2 modrm : Byte) (rest : List Byte),
    (∀ z ∈ a ++ b ++ e, (prefixByte c z).isSome = true) → SamePrefix c x y → GatherPoint c p0 p1 →
    decode c (a ++ x :: (b ++ y :: (e ++ 0x62#8 :: p0 :: p1 :: p2 :: 0x91#8 :: modrm :: rest))) = .repeatedPrefix

/-- A step at an instruction whose bytes have not changed in this run, with nothing in its way and no instruction breakpoint
firing, is `exec` of the instruction the bytes at `rip` decode to; on completion RF is cleared (R128) and with TF set the
single-step trap is pending (R145); the clock advances. RF and TF: the spec's from general knowledge (logs 16, 17); the clock:
log 41. -/
def Obligations.StepRunsDecodedInstruction : Prop :=
  ∀ (s : State) (i : Instr) (rest : List Byte), FetchesHere s i.ops.ilen →
    instrBreakpoints s = [] → decode s.codeSize (fetchBytes s) = .instr i rest → step s = stepped i s

/-- R30, R31, R50, R14: the fetch reads memory from `rip` on through CS: up to fifteen bytes, fewer only at the top of the address
space or before a byte that is not mapped. Where the bytes of an instruction's encoding stand there, unchanged in this run,
below the top and with no instruction breakpoint firing, a step runs that instruction. The fetch: log 22; the top: log 21. -/
def Obligations.FetchReadsMemory : Prop :=
  (∀ (s : State), let bs := fetchBytes s
    (∀ k < bs.length, Memory.read s.mem (linear s .cs s.rip k).toNat = bs[k]?) ∧ bs.length ≤ 15 ∧
    (bs ≠ [] → s.rip.toNat + bs.length ≤ spaceSize s) ∧
    (bs.length = 15 ∨ spaceSize s ≤ s.rip.toNat + bs.length ∨
      Memory.read s.mem (linear s .cs s.rip bs.length).toNat = none)) ∧
  (∀ (s : State) (i : Instr), Encodable i s → FetchesHere s i.ops.ilen → instrBreakpoints s = [] →
    s.rip.toNat + i.ops.ilen ≤ spaceSize s →
    (∀ k < i.ops.ilen, Memory.read s.mem (linear s .cs s.rip k).toNat = (encode i)[k]?) → step s = stepped i s)

/-- R121, R135, R14: a step at an #UD encoding takes #UD: the record is written, RF set in its flags, and nothing else changes but
the clock, `rip` included; an encoding whose bytes cross the top of the address space is refused. What is recorded: log 10; RF:
log 17; how many bytes such an encoding has: log 21; that the refusal comes first: log 27. Its VSIB and displacement bytes need
not be mapped: #UD, not an exception of the fetch (R130), is then the model's choice (log 22, DESIGN CHOICE). -/
def Obligations.UdEncodingTakesUd : Prop :=
  ∀ (s : State) (u : UdCause) (n : Nat), decode s.codeSize (fetchBytes s) = .ud u n →
    (FetchesHere s n → instrBreakpoints s = [] → s.rip.toNat + n ≤ spaceSize s →
      step s = .next { s with delivered := some (faultRecord s .ud none none), clock := s.clock + 1 }) ∧
    (LooksAtRip s → spaceSize s < s.rip.toNat + n → step s = .refused .ripWrap)

/-- Every stop of a step, exactly when it happens, and no other: an event whose handler is not said (R134); a byte not mapped
before the encoding ends, which R130 leaves outside the spec and the model stops at (log 22); another opcode point (R75); a
repeated prefix (R51, D30); a stored extension bit 0 in 32-bit mode (R71); bytes that cross the top (R14; that of undecided
bytes, how many bytes an #UD encoding has, and the top judged on `rip`: log 21); `exec`'s own refusal (R42); and changed
program text (R47). Handlers: logs 10, 11; the order of the refusals: logs 20, 27; text: log 29. -/
def Obligations.EveryStopOfAStepIsNamed : Prop :=
  ∀ (s : State), let bs := fetchBytes s
    let out := decode s.codeSize bs
    let short : Prop := out = .truncated ∧ s.rip.toNat + bs.length < spaceSize s
    let changed (n : Nat) : Prop := ∃ k < n, (linear s .cs s.rip k).toNat ∈ s.changed
    (step s = .fault .awaitingHandler ↔ s.delivered.isSome = true ∧ s.handlers = []) ∧
    (step s = .fault .fetchUnmapped ↔ LooksAtRip s ∧ short ∧ bs.length < 15 ∧ ¬ changed (bs.length + 1)) ∧
    (step s = .refused .notThisInstruction ↔ LooksAtRip s ∧ out = .notThisInstruction) ∧
    (step s = .refused .repeatedPrefix ↔ LooksAtRip s ∧ (out = .repeatedPrefix ∨ short ∧ bs.length = 15)) ∧
    (step s = .refused .mode32ExtensionBits ↔ LooksAtRip s ∧ out = .mode32ExtensionBits) ∧
    (step s = .refused .ripWrap ↔ LooksAtRip s ∧
      (out = .truncated ∧ spaceSize s ≤ s.rip.toNat + bs.length ∨
        ∃ u n, out = .ud u n ∧ spaceSize s < s.rip.toNat + n)) ∧
    (step s = .refused .sideEffectingMemory ↔ ∃ i rest, out = .instr i rest ∧ FetchesHere s i.ops.ilen ∧
      instrBreakpoints s = [] ∧ exec i s = .refused .sideEffectingMemory) ∧
    (step s = .refused .textModified ↔
      (s.delivered.isSome = true ∧ ∃ r hs, s.handlers = r :: hs ∧ applyEdits { s with handlers := hs } r.edits = none) ∨
      (LooksAtRip s ∧
        ((∃ i rest, out = .instr i rest ∧ changed i.ops.ilen) ∨
          (∃ u n, out = .ud u n ∧ s.rip.toNat + n ≤ spaceSize s ∧ changed n) ∨
          (short ∧ bs.length < 15 ∧ changed (bs.length + 1))))) ∧
    (∀ m, step s ≠ .refused (.notModelled m))

/-! ## Addresses -/

/-- R82: `EAj = trunc_ASIZE(BASE + trunc_ASIZE(IDXj) * SCALE + DISP)`, and no register is written by address generation. -/
def Obligations.EffectiveAddressFormula : Prop :=
  ∀ (i : Instr) (s : State) (j : Nat),
    (asize i.ops s = .a64 → (effectiveAddress i.form i.ops s j).toNat =
      ((baseValue i.ops s).toNat + (indexElem i.ops s j).toNat * i.ops.scale.factor.toNat +
        (dispValue i.form i.ops).toNat) % 2 ^ 64) ∧
    (asize i.ops s = .a32 → (effectiveAddress i.form i.ops s j).toNat =
      ((baseValue i.ops s).toNat % 2 ^ 32 + (indexElem i.ops s j).toNat % 2 ^ 32 * i.ops.scale.factor.toNat +
        (dispValue i.form i.ops).toNat % 2 ^ 32) % 2 ^ 32) ∧
    (∀ r d, i.ops.addr = .base r d → baseValue i.ops s = s.getGpr r) ∧
    (∀ d, i.ops.addr = .noBase d → baseValue i.ops s = 0) ∧
    (∀ b < 64, (indexElem i.ops s j).getLsbD b = (s.getZmm i.ops.index).getLsbD (64 * j + b)) ∧
    (∀ t, exec i s = .next t → t.gpr = s.gpr)

/-- R83: with a 64-bit address size the signed reading of base, index and displacement gives the same address. -/
def Obligations.SignedIndexReading : Prop :=
  ∀ (f : Form) (o : Operands) (s : State) (j : Nat), asize o s = .a64 →
    effectiveAddress f o s j =
      BitVec.ofInt 64 ((baseValue o s).toInt + (indexElem o s j).toInt * o.scale.factor.toInt + (dispValue f o).toInt)

/-- R62: `DISP` is the signed disp32, or the signed disp8 times 4 (VPGATHERQD) or 8 (VPGATHERQQ), or 0.
The factor: log 24. -/
def Obligations.DisplacementValue : Prop :=
  ∀ (f : Form) (o : Operands),
    (∀ d, o.addr = .noBase d → (dispValue f o).toInt = d.toInt) ∧
    (∀ r, o.addr = .base r .absent → dispValue f o = 0) ∧
    (∀ r d, o.addr = .base r (.disp8 d) → (dispValue f o).toInt = d.toInt * (if f.w then 8 else 4)) ∧
    (∀ r d, o.addr = .base r (.disp32 d) → (dispValue f o).toInt = d.toInt)

/-- R33, R16: the linear address of a byte, modulo the address space of the mode; in 64-bit mode only FS and GS have a base.
Segmentation: log 26. -/
def Obligations.LinearAddressFormula : Prop :=
  ∀ (s : State) (g : Seg) (ea : Qword) (i : Nat),
    (s.mode64 = true → g = .fs ∨ g = .gs →
      (linear s g ea i).toNat = ((s.getSeg g).base.toNat + ea.toNat + i) % 2 ^ 64) ∧
    (s.mode64 = true → g ≠ .fs → g ≠ .gs → (linear s g ea i).toNat = (ea.toNat + i) % 2 ^ 64) ∧
    (s.mode64 = false → (linear s g ea i).toNat = ((s.getSeg g).base.toNat + ea.toNat + i) % 2 ^ 32)

/-- R64: the segment of a gather: in 64-bit mode an FS or GS override, in 32-bit mode any override; else SS for base register 4 or
5, else DS. Segmentation: log 26. -/
def Obligations.SegmentChoice : Prop :=
  ∀ (o : Operands) (s : State),
    (o.segOverride = some .fs → segOf o s = .fs) ∧
    (o.segOverride = some .gs → segOf o s = .gs) ∧
    (∀ g, s.mode64 = false → o.segOverride = some g → segOf o s = g) ∧
    ((o.segOverride = none ∨ (s.mode64 = true ∧ o.segOverride ≠ some .fs ∧ o.segOverride ≠ some .gs)) →
      (segOf o s = .ss ↔ ∃ r d, o.addr = .base r d ∧ (r = 4#4 ∨ r = 5#4)) ∧ (segOf o s = .ss ∨ segOf o s = .ds))

/-! ## The access oracle -/

/-- R40: the oracle is a parameter. Whatever answer of exactly `n` bytes is listed for a question, that is the answer; every value
answered has exactly `n` bytes; a question that is not listed is answered by the concrete oracle. Its form as a list: log 8; the
time: log 41. -/
def Obligations.OracleIsAParameter : Prop :=
  ∀ (s : State) (j : Nat) (g : Seg) (ea : Qword) (n : Nat) (a : ASize),
    let q : Query := { time := s.clock, element := j, seg := g, ea := ea, size := n, asize := a }
    (∀ r, (∀ v, r = .ok v → v.toNat < 256 ^ n) → access { s with oracle := (q, r) :: s.oracle } j g ea n a = r) ∧
    (n ≤ 8 → ∀ v, access s j g ea n a = .ok v → v.toNat < 256 ^ n) ∧
    ((∀ r, (q, r) ∉ s.oracle) → access s j g ea n a = mapAccess s g ea n)

/-- R84, R31: a value the concrete oracle answers holds exactly the bytes of memory at its linear addresses, least significant
first. Byte order: log 25. -/
def Obligations.AccessIsLittleEndian : Prop :=
  ∀ (s : State) (g : Seg) (ea : Qword) (n : Nat) (v : Qword), n ≤ 8 → mapAccess s g ea n = .ok v →
    v.toNat < 256 ^ n ∧
      ∀ i < n, Memory.read s.mem (linear s g ea i).toNat = some (v.extractLsb' (8 * i) 8)

/-- R31: a qword at `ea` is the dword at `ea` plus 2^32 times the dword at `ea + 4`. Byte order: log 25. -/
def Obligations.QwordIsTwoDwords : Prop :=
  ∀ (s : State) (g : Seg) (ea v : Qword), mapAccess s g ea 8 = .ok v →
    ∃ lo hi, mapAccess s g ea 4 = .ok lo ∧ mapAccess s g (ea + 4) 4 = .ok hi ∧ v.toNat = lo.toNat + 2 ^ 32 * hi.toNat

/-- R41 (1), R125, R132: the canonical check (64-bit mode) or the segment check (32-bit mode) comes first, whatever is mapped,
and gives #SS(0) through SS and #GP(0) through any other segment. The spec's from general knowledge (logs 8, 36, 39). -/
def Obligations.SegmentCheckComesFirst : Prop :=
  ∀ (s : State) (g : Seg) (ea : Qword) (n : Nat),
    ((s.mode64 = true ∧ ∃ i < n, 2 ^ 47 ≤ (linear s g ea i).toNat ∧ (linear s g ea i).toNat < 2 ^ 64 - 2 ^ 47) ∨
      (s.mode64 = false ∧ ((s.getSeg g).usable = false ∨ ∃ i < n, (s.getSeg g).limit.toNat < ea.toNat + i))) →
    (g = .ss → mapAccess s g ea n = .fault .ss0) ∧ (g ≠ .ss → mapAccess s g ea n = .fault .gp0)

/-- R41 (2), R126, R132: past that check, with no region in the way, the first byte not mapped is the page fault's address, and
the code is that of a read of a page not present. The code and the address: log 31; first by offset, also where the linear
addresses wrap: log 8. -/
def Obligations.FirstUnmappedByteFaults : Prop :=
  ∀ (s : State) (g : Seg) (ea : Qword) (n k : Nat), k < n → PassesSegment s g ea n →
    (∀ i < k, Readable s (linear s g ea i)) → regionFault s false (linear s g ea k) = none →
    Memory.read s.mem (linear s g ea k).toNat = none →
    ∃ code, mapAccess s g ea n = .fault (.pf code (linear s g ea k)) ∧
      ∀ n, code.getLsbD n = (decide (n = 2) && decide (s.cpl = 3#2))

/-- R41 (2), R140, R126: a supervisor byte read at privilege level 3 gives #PF with code 5 at its address; below level 3 an access
whose bytes are mapped and that no other region touches is read, supervisor bytes and all. The code: log 31; regions, and first by
offset in the element, also where the linear addresses wrap and the lower-addressed page faults too (R132): log 8. -/
def Obligations.SupervisorBytes : Prop :=
  ∀ (s : State) (g : Seg) (ea : Qword) (n k : Nat), k < n → PassesSegment s g ea n →
    regionFault s false (linear s g ea k) = none →
    (∃ b, Memory.read s.mem (linear s g ea k).toNat = some b) →
    s.inRegion (fun x => decide (x = .supervisor)) (linear s g ea k) = true →
    (s.cpl = 3#2 → (∀ i < k, Readable s (linear s g ea i)) →
      mapAccess s g ea n = .fault (.pf 5 (linear s g ea k))) ∧
    (s.cpl ≠ 3#2 →
      (∀ i < n, regionFault s false (linear s g ea i) = none ∧ (∃ b, Memory.read s.mem (linear s g ea i).toNat = some b) ∧
        s.inRegion (fun x => decide (x = .sideEffect)) (linear s g ea i) = false) →
      ∃ v, mapAccess s g ea n = .ok v)

/-- R40, R132: a region that faults gives every access to its addresses its fault: #GP(0) and #SS(0) before any page fault of
another byte, a page fault in the order of the bytes, whatever is mapped. An address has the fault of the regions that contain
it, where they agree, and none where there are none. Regions, and the order of bytes whose linear addresses wrap: log 8. -/
def Obligations.RegionFaults : Prop :=
  (∀ (s : State) (g : Seg) (ea : Qword) (n k : Nat) (e : AccessFault), k < n → segmentFault s g ea n = false →
    (regionFault s true (linear s g ea k) = some e → (∀ i < k, regionFault s true (linear s g ea i) = none) →
      mapAccess s g ea n = .fault e) ∧
    (regionFault s false (linear s g ea k) = some e → (∀ i < n, regionFault s true (linear s g ea i) = none) →
      (∀ i < k, Readable s (linear s g ea i)) → mapAccess s g ea n = .fault e)) ∧
  (∀ (s : State) (la : Qword) (r : Region) (e : AccessFault),
    r ∈ s.regions → r.kind = .faults e → r.lo ≤ la.toNat → la.toNat < r.hi →
    (∀ r' ∈ s.regions, ∀ e', r'.kind = .faults e' → r'.lo ≤ la.toNat → la.toNat < r'.hi → e' = e) →
    regionFault s e.early la = some e) ∧
  (∀ (s : State) (la : Qword) (early : Bool),
    (∀ r ∈ s.regions, ∀ e, r.kind = .faults e → e.early = early → la.toNat < r.lo ∨ r.hi ≤ la.toNat) →
    regionFault s early la = none)

/-! ## Completed executions -/

/-- R87, for all six instructions: the whole new state of a completed execution. The traps it makes pending are R20's: those
of the data breakpoints that match a byte of an active element (R128; the debug registers' layout: log 16). -/
def Obligations.CompletedGather : Prop :=
  ∀ (i : Instr) (s : State), Ready i.form i.ops s → s.interruptPending = false → AllReadable i.form i.ops s →
    ∃ t, exec i s = .next t ∧ Gathered i.form i.form.elemBytes i.form.es i.form.kl i.ops s t ∧
      t = { (s.setZmm i.ops.dest (t.getZmm i.ops.dest)).setMask i.ops.mask 0 with
            rip := t.rip, pendingTraps := t.pendingTraps } ∧
      TrapsAdded i.form i.ops (active i.form i.ops s) s t.pendingTraps

/-- R100 to R102, R80: the three VPGATHERQD forms complete: 2, 4, 8 dwords of 4 bytes. -/
def Obligations.VpgatherqdCompletes : Prop :=
  FormCompletes .vpgatherqdXmmVm64x .qd128 4 32 2 ∧ FormCompletes .vpgatherqdXmmVm64y .qd256 4 32 4 ∧
    FormCompletes .vpgatherqdYmmVm64z .qd512 4 32 8

/-- R110 to R112, R80, C2: the three VPGATHERQQ forms complete: 2, 4, 8 qwords of 8 bytes. -/
def Obligations.VpgatherqqCompletes : Prop :=
  FormCompletes .vpgatherqqXmmVm64x .qq128 8 64 2 ∧ FormCompletes .vpgatherqqYmmVm64y .qq256 8 64 4 ∧
    FormCompletes .vpgatherqqZmmVm64z .qq512 8 64 8

/-- R95: with an empty mask, whatever memory holds and whatever bits at or above `KL` are set, the gather completes: the
elements are kept, the rest of the destination and the mask are zeroed, `rip` advances, and nothing else
changes. -/
def Obligations.EmptyMaskCompletes : Prop :=
  ∀ (i : Instr) (s : State) (mem : List Host.Cell) (regions : List Region) (oracle : List (Query × Access)),
    Ready i.form i.ops s → s.interruptPending = false → (∀ j < i.form.kl, isActive i.ops s j = false) →
    ∃ z, exec i { s with mem := mem, regions := regions, oracle := oracle } = .next
        { (s.setZmm i.ops.dest z).setMask i.ops.mask 0 with
          rip := truncW s (s.rip + BitVec.ofNat 64 i.ops.ilen), mem := mem,
          regions := regions, oracle := oracle } ∧
      ∀ n, z.getLsbD n = (decide (n < i.form.dw) && (s.getZmm i.ops.dest).getLsbD n)

/-- R94: the index values of inactive elements do not matter: they neither fault nor change the result. -/
def Obligations.InactiveIndicesDoNotMatter : Prop :=
  ∀ (i : Instr) (s : State) (z : VecWord), i.ops.dest ≠ i.ops.index →
    (∀ j < i.form.kl, isActive i.ops s j = true → getField z (64 * j) 64 = indexElem i.ops s j) →
    let s' := s.setZmm i.ops.index z
    (∀ j0 e, FirstFault i.form i.ops s j0 e → FirstFault i.form i.ops s' j0 e) ∧
    (Ready i.form i.ops s → s.interruptPending = false → AllReadable i.form i.ops s →
      ∃ t, exec i s = .next t ∧ exec i s' = .next (t.setZmm i.ops.index z))

/-- T17: a completed result does not depend on the active elements of the destination, on its bits above the elements, or on
mask bits at or above `KL`. -/
def Obligations.OverwrittenPartsDoNotMatter : Prop :=
  ∀ (i : Instr) (s : State) (z : VecWord) (m : MaskWord),
    Ready i.form i.ops s → s.interruptPending = false → AllReadable i.form i.ops s →
    (∀ j < i.form.kl, m.getLsbD j = isActive i.ops s j) →
    (∀ j < i.form.kl, isActive i.ops s j = false →
      getField z (i.form.es * j) i.form.es = getField (s.getZmm i.ops.dest) (i.form.es * j) i.form.es) →
    ∃ t, exec i s = .next t ∧ exec i ((s.setZmm i.ops.dest z).setMask i.ops.mask m) = .next t

/-- R83, T17: with a 32-bit address size, bits 63:32 of the indices and, where there is a base register, of the base do not
matter. -/
def Obligations.HighHalvesDoNotMatter : Prop :=
  ∀ (i : Instr) (s : State) (z : VecWord),
    Ready i.form i.ops s → s.interruptPending = false → AllReadable i.form i.ops s → asize i.ops s = .a32 →
    (∀ j < i.form.kl, (getField z (64 * j) 64).setWidth 32 = (indexElem i.ops s j).setWidth 32) →
    ∃ t, exec i s = .next t ∧
      exec i (s.setZmm i.ops.index z) = .next (t.setZmm i.ops.index z) ∧
      ∀ r d b, i.ops.addr = .base r d → b.setWidth 32 = (s.getGpr r).setWidth 32 →
        exec i ((s.setGpr r b).setZmm i.ops.index z) = .next ((t.setGpr r b).setZmm i.ops.index z)

/-- R152: a completed gather leaves its mask register zero, and a second gather that names that register gathers nothing: it
zeroes the part of its destination above the elements, `rip` advances, and nothing else changes. -/
def Obligations.MaskIsConsumed : Prop :=
  ∀ (i i' : Instr) (s t : State), Ready i.form i.ops s → s.interruptPending = false →
    AllReadable i.form i.ops s → exec i s = .next t → i'.ops.mask = i.ops.mask → Ready i'.form i'.ops t →
    t.getMask i.ops.mask = 0 ∧
    ∃ u, exec i' t = .next u ∧ u = { t.setZmm i'.ops.dest (u.getZmm i'.ops.dest) with rip := u.rip } ∧
      u.rip = truncW t (t.rip + BitVec.ofNat 64 i'.ops.ilen) ∧
      ∀ n, (u.getZmm i'.ops.dest).getLsbD n = (decide (n < i'.form.dw) && (t.getZmm i'.ops.dest).getLsbD n)

/-! ## Refused, suspended and interrupted executions -/

/-- R86: any #UD condition raises #UD and, without one, CR0.TS raises #NM, each with no state changed but the record.
The order is the spec's decision D19 (log 27); the record: log 10. -/
def Obligations.RefusedBeforeExecution : Prop :=
  ∀ (i : Instr) (s : State), s.rip.toNat + i.ops.ilen ≤ spaceSize s →
    let ud : Prop := asize i.ops s = .a16 ∨ s.osEnabled = false ∨ s.hasAvx512f = false ∨
      (i.form.ll ≠ 2#2 ∧ s.hasAvx512vl = false) ∨ i.ops.mask = 0#3 ∨ i.ops.dest = i.ops.index
    (ud → exec i s = .next { s with delivered := some (faultRecord s .ud none none) }) ∧
    (¬ ud → (s.mode64 = true ∨ lowRegs i.ops = true) → s.cr0.getLsbD 3 = true →
      exec i s = .next { s with delivered := some (faultRecord s .nm none none) })

/-- R88 (with R89, R90, R91): the state a suspended execution leaves, for the implementation's choice of `Left`, `zd`, `zk`: the
elements done, the traps they set added to those pending (R145), and then the fault or, with an element done and a trap
pending, one of these in its place. The record: log 10; the free choices: logs 12, 13, 15; debug registers: log 16;
CR2: log 31. -/
def Obligations.SuspendedGather : Prop :=
  ∀ (i : Instr) (s : State) (j0 : Nat) (e : AccessFault),
    Ready i.form i.ops s → s.interruptPending = false → NoSideEffects i.form i.ops s →
    FirstFault i.form i.ops s j0 e →
    ∃ t left zd zk pend, exec i s = .next t ∧
      (∀ j ∈ left, j0 < j ∧ j < i.form.kl ∧ isActive i.ops s j = true ∧ ∃ v, answer i.form i.ops s j = .ok v) ∧
      let done := (active i.form i.ops s).filter (fun j => decide (j < j0)) ++ left
      PartlyGathered i.form i.ops done zd zk s t ∧ (t.getMask i.ops.mask).getLsbD j0 = true ∧
      TrapsAdded i.form i.ops done s pend ∧
      ((done = [] ∨ pend = []) ∧ DeliversFault i.form i.ops s j0 e pend t ∨
        done ≠ [] ∧ DeliversTrap s pend t)

/-- R88, R125, R126, R135: with nothing pending the fault of the rightmost faulting element is what is delivered; a page fault
writes CR2.
Codes and CR2: logs 31, 37. -/
def Obligations.ElementFaultIsDelivered : Prop :=
  ∀ (i : Instr) (s : State) (j0 : Nat) (e : AccessFault),
    Ready i.form i.ops s → s.interruptPending = false → NoSideEffects i.form i.ops s →
    FirstFault i.form i.ops s j0 e → s.pendingTraps = [] → (∀ n la, dataMatch s n la = false) →
    ∃ t, exec i s = .next t ∧ t.pendingTraps = [] ∧ t.dr6 = s.dr6 ∧
      t.delivered = some (faultRecord s e.exc (some e.errorCode) (some ⟨j0, effectiveAddress i.form i.ops s j0⟩)) ∧
      (∀ code la, e = .pf code la → t.cr2 = la ∧ e.exc = .pf ∧ e.errorCode = code) ∧
      (e = .gp0 → t.cr2 = s.cr2 ∧ e.exc = .gp ∧ e.errorCode = 0) ∧
      (e = .ss0 → t.cr2 = s.cr2 ∧ e.exc = .ss ∧ e.errorCode = 0)

/-- R91, R92, R133: what a gather with a faulting element leaves, whatever is pending and whichever elements are active. Some
readable active elements are done, and the traps they set added to those pending (R145). Then either the gather is suspended,
every active element before the faulting one done: with no element done or nothing pending the fault is delivered, else a
pending trap or the pending interrupt in lieu of it; or the pending interrupt ends the gather with any such elements done, none
of them included. All that is not delivered stays pending. Interrupts and their place: log 14; which one, and that the others
stay: log 15; debug registers: log 16. -/
def Obligations.PendingEventInLieuOfFault : Prop :=
  ∀ (i : Instr) (s : State) (j0 : Nat) (e : AccessFault),
    Ready i.form i.ops s → NoSideEffects i.form i.ops s → FirstFault i.form i.ops s j0 e →
    ∃ t done zd zk pend, exec i s = .next t ∧
      (∀ j ∈ done, j < i.form.kl ∧ isActive i.ops s j = true ∧ ∃ v, answer i.form i.ops s j = .ok v) ∧
      PartlyGathered i.form i.ops done zd zk s t ∧ TrapsAdded i.form i.ops done s pend ∧
      (((∀ j < j0, isActive i.ops s j = true → j ∈ done) ∧
          ((done = [] ∨ (pend = [] ∧ s.interruptPending = false)) ∧ DeliversFault i.form i.ops s j0 e pend t ∨
            done ≠ [] ∧ (DeliversTrap s pend t ∨ DeliversInterrupt s pend t))) ∨
        DeliversInterrupt s pend t)

/-- R20, R94, R145: the traps a data breakpoint makes pending are those of bytes of gathered elements: with a match at an element
completed before the faulting one that trap is pending, and a pending trap is delivered in lieu of the fault (R91, R128, R133);
the others stay. Where
nothing was pending and no other breakpoint matches anything, it is the one delivered.
Debug registers: log 16; which one, and that the others stay: log 15. -/
def Obligations.DataBreakpointInLieuOfFault : Prop :=
  ∀ (i : Instr) (s : State) (j0 j b : Nat) (e : AccessFault) (n : Fin 4),
    Ready i.form i.ops s → s.interruptPending = false → NoSideEffects i.form i.ops s →
    FirstFault i.form i.ops s j0 e → j < j0 → isActive i.ops s j = true → b < i.form.elemBytes →
    dataMatch s n (linear s (segOf i.ops s) (effectiveAddress i.form i.ops s j) b) = true →
    ∃ t done pend, exec i s = .next t ∧
      (∀ j ∈ done, j < i.form.kl ∧ isActive i.ops s j = true) ∧ (∀ j < j0, isActive i.ops s j = true → j ∈ done) ∧
      TrapsAdded i.form i.ops done s pend ∧ .breakpoint n ∈ pend ∧ DeliversTrap s pend t ∧
      (s.pendingTraps = [] → (∀ m la, dataMatch s m la = true → m = n) →
        t.pendingTraps = [] ∧ t.dr6 = s.dr6 ||| (Trap.breakpoint n).dr6Bit)

/-- R92: with an interrupt pending and every active element readable, the gather completes or is ended by the interrupt with
some subset of its elements done, of no element if none is active; the traps of the elements done are pending afterwards (R145).
Admitted by the spec from general knowledge (D15; log 14, the empty mask included); which traps: log 16 (the debug registers' layout). -/
def Obligations.InterruptedGather : Prop :=
  ∀ (i : Instr) (s : State), Ready i.form i.ops s → s.interruptPending = true → AllReadable i.form i.ops s →
    ∃ t, exec i s = .next t ∧
      (Gathered i.form i.form.elemBytes i.form.es i.form.kl i.ops s t ∧ t.delivered = s.delivered ∧
          TrapsAdded i.form i.ops (active i.form i.ops s) s t.pendingTraps ∧ t.interruptPending = true ∧
          t.dr6 = s.dr6 ∧ t.cr2 = s.cr2 ∨
        ∃ done zd zk pend, (∀ j ∈ done, j < i.form.kl ∧ isActive i.ops s j = true) ∧
          PartlyGathered i.form i.ops done zd zk s t ∧ TrapsAdded i.form i.ops done s pend ∧
          DeliversInterrupt s pend t)

/-- R89: repeatable: with the same inputs (the oracle's answers for the active elements) and the same architectural state, a
suspended execution leaves the same elements and mask bits, whatever the time, the model's own fields and the records of
events are. The choice as a function: log 12. -/
def Obligations.SuspensionIsRepeatable : Prop :=
  ∀ (i : Instr) (s : State) (j0 : Nat) (e : AccessFault) (n c : Nat) (hs : List HandlerRun)
    (oracle : List (Query × Access)) (changed : List Nat) (outer : List Frame) (d : Option Delivery),
    Ready i.form i.ops s → s.interruptPending = false → NoSideEffects i.form i.ops s →
    FirstFault i.form i.ops s j0 e →
    let s' := { s with
      freeCount := n, clock := c, handlers := hs, oracle := oracle, changed := changed, outer := outer, delivered := d }
    (∀ j < i.form.kl, isActive i.ops s j = true → answer i.form i.ops s' j = answer i.form i.ops s j) →
    ∃ t t', exec i s = .next t ∧ exec i s' = .next t' ∧
      ∀ j < i.form.kl,
        getField (t.getZmm i.ops.dest) (i.form.es * j) i.form.es =
          getField (t'.getZmm i.ops.dest) (i.form.es * j) i.form.es ∧
        (t.getMask i.ops.mask).getLsbD j = (t'.getMask i.ops.mask).getLsbD j

/-- R93: after a suspension or an interruption, if what is mapped and what the oracle answers only change so that the values
already read are as they were and every active element can be read, executing the gather again, at whatever time and with no
interrupt pending, gives the registers one completed execution from the original state would have given. The spec derives it;
the handler as edits of State: log 11. -/
def Obligations.ContinuationFinishesTheGather : Prop :=
  ∀ (i : Instr) (s t : State) (d : Delivery) (mem : List Host.Cell) (regions : List Region)
    (oracle : List (Query × Access)) (c : Nat),
    Ready i.form i.ops s → s.delivered = none → exec i s = .next t → t.delivered = some d →
    let env (x : State) : State :=
      { x with mem := mem, regions := regions, oracle := oracle, clock := c, interruptPending := false }
    (∀ j < i.form.kl, isActive i.ops s j = true → ∀ v, answer i.form i.ops s j = .ok v →
      answer i.form i.ops (env s) j = .ok v) →
    AllReadable i.form i.ops (env s) →
    ∃ u v, exec i (env (returnFromEvent d t)) = .next u ∧ exec i (env s) = .next v ∧
      u.zmm = v.zmm ∧ u.k = v.k ∧ u.rip = v.rip ∧ u.gpr = v.gpr ∧ u.mem = v.mem

/-! ## Every outcome -/

/-- T17, R88: in every outcome a mask bit below `KL` that is still one was one, and its element is unchanged; an element whose
bit was zero is unchanged. -/
def Obligations.MaskRecordsProgress : Prop :=
  ∀ (i : Instr) (s t : State), exec i s = .next t → ∀ j < i.form.kl,
    ((t.getMask i.ops.mask).getLsbD j = true → (s.getMask i.ops.mask).getLsbD j = true ∧
      getField (t.getZmm i.ops.dest) (i.form.es * j) i.form.es =
        getField (s.getZmm i.ops.dest) (i.form.es * j) i.form.es) ∧
    ((s.getMask i.ops.mask).getLsbD j = false →
      getField (t.getZmm i.ops.dest) (i.form.es * j) i.form.es =
        getField (s.getZmm i.ops.dest) (i.form.es * j) i.form.es)

/-- R96: what never changes, in every outcome of every instruction. CR2 is written only by the delivery of a page fault (R17,
R135), DR6 only by that of a debug exception. EFLAGS is unchanged whole, RF included: that R91's RF goes to the saved image
only is the model's reading (log 17). -/
def Obligations.WhatNeverChanges : Prop :=
  ∀ (i : Instr) (s t : State), exec i s = .next t →
    (∀ r, r ≠ i.ops.dest → t.getZmm r = s.getZmm r) ∧ (∀ r, r ≠ i.ops.mask → t.getMask r = s.getMask r) ∧
    t.gpr = s.gpr ∧ t.eflags = s.eflags ∧ t.mxcsr = s.mxcsr ∧ t.x87 = s.x87 ∧
    t.segs = s.segs ∧ t.csL = s.csL ∧ t.csD = s.csD ∧
    t.cr0 = s.cr0 ∧ t.cr4 = s.cr4 ∧ t.xcr0 = s.xcr0 ∧ t.efer = s.efer ∧ t.cpl = s.cpl ∧
    t.hasAvx512f = s.hasAvx512f ∧ t.hasAvx512vl = s.hasAvx512vl ∧ t.dr = s.dr ∧ t.dr7 = s.dr7 ∧
    (t.cr2 = s.cr2 ∨ ∃ d, t.delivered = some d ∧ d.kind = .exception .pf) ∧
    (t.dr6 = s.dr6 ∨ ∃ d, t.delivered = some d ∧ d.kind = .exception .db) ∧
    t.mem = s.mem ∧ t.regions = s.regions ∧ t.oracle = s.oracle ∧ t.clock = s.clock ∧
    t.handlers = s.handlers ∧ t.outer = s.outer ∧ t.changed = s.changed ∧
    (∀ a, Memory.read t.mem a = Memory.read s.mem a)

/-- R97, R134: `rip` moves past the instruction when it completes; when an event ends it, `rip` stays and is what is saved.
The record: log 10. -/
def Obligations.RipMovesOnlyOnCompletion : Prop :=
  ∀ (i : Instr) (s t : State), s.delivered = none → exec i s = .next t →
    (t.delivered = none ∧ t.rip = truncW s (s.rip + BitVec.ofNat 64 i.ops.ilen) ∧ t.getMask i.ops.mask = 0) ∨
    (∃ d, t.delivered = some d ∧ t.rip = s.rip ∧ d.savedRip = s.rip ∧ d.rf = true)

/-- R127: no instruction delivers #AC. -/
def Obligations.NeverAlignmentCheck : Prop :=
  ∀ (i : Instr) (s t : State) (d : Delivery), s.delivered = none → exec i s = .next t → t.delivered = some d →
    d.kind ≠ .exception .ac

/-- R129: no instruction delivers a SIMD floating-point exception, and MXCSR is as it was. -/
def Obligations.NoSimdFloatingPointException : Prop :=
  ∀ (i : Instr) (s t : State) (d : Delivery), s.delivered = none → exec i s = .next t →
    t.mxcsr = s.mxcsr ∧ (t.delivered = some d → d.kind ≠ .exception .xm)

/-- The only stops: no instruction faults the machine, and each refusal is answered exactly under the condition that names it: its
bytes cross the top (R14, D21; judged on `rip`, not on linear addresses: log 21, DESIGN CHOICE); in 32-bit mode a register above 7
with no #UD condition (R71, D28; the order: logs 20, 27); ready, and an active element in side-effecting memory (R42, D11). Otherwise the instruction answers a next state. -/
def Obligations.EveryStopIsNamed : Prop :=
  ∀ (i : Instr) (s : State),
    (exec i s = .refused .ripWrap ↔ spaceSize s < s.rip.toNat + i.ops.ilen) ∧
    (exec i s = .refused .mode32ExtensionBits ↔ s.rip.toNat + i.ops.ilen ≤ spaceSize s ∧
      udCondition i.form i.ops s = false ∧ s.mode64 = false ∧ lowRegs i.ops = false) ∧
    (exec i s = .refused .sideEffectingMemory ↔ Ready i.form i.ops s ∧ ¬ NoSideEffects i.form i.ops s) ∧
    ((∃ t, exec i s = .next t) ∨ exec i s = .refused .ripWrap ∨ exec i s = .refused .mode32ExtensionBits ∨
      exec i s = .refused .sideEffectingMemory)

/-! ## Whole-machine rules -/

/-- Every step keeps the invariant: memory in canonical form, `PendingTraps` a set, any recorded event, nested ones included,
one that R120 allows. -/
def Obligations.StepKeepsInvariant : Prop :=
  ∀ (s t : State), s.Inv → step s = .next t → t.Inv

/-- R37, R13, R17, R15: no step outside a handler writes a general register, memory, a segment or control register other than
CR2, or a flag other than RF. -/
def Obligations.StepsOutsideHandlersKeepTheRest : Prop :=
  ∀ (s t : State), s.delivered = none → step s = .next t →
    t.gpr = s.gpr ∧ t.mem = s.mem ∧ t.changed = s.changed ∧ t.regions = s.regions ∧
    t.segs = s.segs ∧ t.csL = s.csL ∧ t.csD = s.csD ∧
    t.cr0 = s.cr0 ∧ t.cr4 = s.cr4 ∧ t.xcr0 = s.xcr0 ∧ t.efer = s.efer ∧ t.cpl = s.cpl ∧
    t.mxcsr = s.mxcsr ∧ t.x87 = s.x87 ∧ t.dr = s.dr ∧ t.dr7 = s.dr7 ∧
    t.hasAvx512f = s.hasAvx512f ∧ t.hasAvx512vl = s.hasAvx512vl ∧
    ∀ n, n ≠ 16 → t.eflags.getLsbD n = s.eflags.getLsbD n

/-- R134, R135: an event a step delivers at an instruction saves the instruction's address and a flags image with RF set.
The record and RF: logs 10, 17. -/
def Obligations.DeliverySavesTheInstruction : Prop :=
  ∀ (s t : State) (d : Delivery), s.delivered = none → s.pendingTraps = [] → endingHandler s = none → step s = .next t →
    t.delivered = some d → d.savedRip = s.rip ∧ t.rip = s.rip ∧ d.rf = true ∧
      ∀ n, n ≠ 16 → d.savedFlags.getLsbD n = s.eflags.getLsbD n

/-- R128, R145: a trap pending between instructions is delivered before the next one (the spec's from general knowledge). The model's
choices: that one is delivered and the others stay pending (log 15, DESIGN CHOICE), that `rip` and the flags are saved as they
are (log 16, DEDUCED), and the DR6 bit (log 16, PRESUMED). -/
def Obligations.TrapBetweenInstructions : Prop :=
  ∀ (s : State), s.delivered = none → s.pendingTraps ≠ [] →
    ∃ t x d, step s = .next t ∧ x ∈ s.pendingTraps ∧ t.pendingTraps = s.pendingTraps.erase x ∧
      t.delivered = some d ∧ d.kind = .exception .db ∧ d.savedRip = s.rip ∧ d.savedFlags = s.eflags ∧
      t.dr6 = s.dr6 ||| x.dr6Bit ∧ t.zmm = s.zmm ∧ t.k = s.k ∧ t.gpr = s.gpr ∧ t.rip = s.rip ∧ t.mem = s.mem ∧
      t.outer = s.outer

/-- R136: a handler run that does nothing and returns restores the saved instruction pointer and flags, and nothing else
changes but the clock. One atomic step, and that it restores no stack pointer: log 11. -/
def Obligations.HandlerReturns : Prop :=
  ∀ (s : State) (d : Delivery) (hs : List HandlerRun),
    s.delivered = some d → s.handlers = { edits := [], exit := .ret } :: hs →
    step s = .next { s with
      rip := d.savedRip, eflags := d.savedFlags, delivered := none, handlers := hs, clock := s.clock + 1 }

/-- R136, R154: what each thing a handler can do leaves once it has returned, the whole state: memory reads as mapped or unmapped and
every other byte as before, a register reads as set and every other as before, and nothing else differs but what the return
and the step change. A handler as edits: log 11; which bytes are noted as changed: log 29. -/
def Obligations.HandlerEditsTakeEffect : Prop :=
  ∀ (s : State) (d : Delivery) (e : HandlerEdit) (hs : List HandlerRun),
    s.delivered = some d → s.handlers = { edits := [e], exit := .ret } :: hs → touchesText s e = false →
    let back : State := { s with
      rip := d.savedRip, eflags := d.savedFlags, delivered := none, handlers := hs, clock := s.clock + 1 }
    ∃ t, step s = .next t ∧
      match e with
      | .mapByte la b => t = { back with mem := t.mem, changed := t.changed } ∧
          ∀ a, Memory.read t.mem a = if a = la.toNat then some b else Memory.read s.mem a
      | .unmapByte la => t = { back with mem := t.mem, changed := t.changed } ∧
          ∀ a, Memory.read t.mem a = if a = la.toNat then none else Memory.read s.mem a
      | .setZmm i v => t = { back with zmm := t.zmm } ∧ ∀ r, t.getZmm r = if r = i then v else s.getZmm r
      | .setMask i v => t = { back with k := t.k } ∧ ∀ r, t.getMask r = if r = i then v else s.getMask r
      | .setGpr i v => t = { back with gpr := t.gpr } ∧ ∀ r, t.getGpr r = if r = i then v else s.getGpr r
      | .setRegions rs => t = { back with regions := rs }
      | .setCr0 v => t = { back with cr0 := v }
      | .setCr4 v => t = { back with cr4 := v }
      | .setXcr0 v => t = { back with xcr0 := v }
      | .setDr n v => t = { back with dr := t.dr } ∧ ∀ m : Fin 4, t.dr[m] = if m = n then v else s.dr[m]
      | .setDr7 v => t = { back with dr7 := v }
      | .setInterruptPending b => t = { back with interruptPending := b }
      | .setSavedRip v => t = { back with rip := v }
      | .setSavedFlags v => t = { back with eflags := v }

/-- R136: a handler's edits happen in order: a run is its first edit, then the run of the others (log 11). -/
def Obligations.HandlerEditsAreInOrder : Prop :=
  ∀ (s : State) (d : Delivery) (e : HandlerEdit) (es : List HandlerEdit) (x : HandlerExit) (hs : List HandlerRun),
    s.delivered = some d → s.handlers = { edits := e :: es, exit := x } :: hs → touchesText s e = false →
    step s = step (applyEdit { s with handlers := { edits := es, exit := x } :: hs } e)

/-- R47, D23: a handler run that begins by changing a byte of declared program text, or what is declared, is refused; a
changed byte is remembered; and an instruction one of whose bytes has changed in this run is refused. How a run's changes are
known: log 29. -/
def Obligations.ModifiedTextIsRefused : Prop :=
  (∀ (s : State) (d : Delivery) (e : HandlerEdit) (es : List HandlerEdit) (x : HandlerExit) (hs : List HandlerRun),
    s.delivered = some d → s.handlers = { edits := e :: es, exit := x } :: hs →
    ((∃ la b r, e = .mapByte la b ∧ Memory.read s.mem la.toNat ≠ some b ∧
        r ∈ s.regions ∧ r.kind = .text ∧ r.lo ≤ la.toNat ∧ la.toNat < r.hi) ∨
      (∃ la b r, e = .unmapByte la ∧ Memory.read s.mem la.toNat = some b ∧
        r ∈ s.regions ∧ r.kind = .text ∧ r.lo ≤ la.toNat ∧ la.toNat < r.hi) ∨
      (∃ rs r, e = .setRegions rs ∧ r ∈ s.regions ∧ r.kind = .text ∧ r ∉ rs)) →
    step s = .refused .textModified) ∧
  (∀ (s : State) (la : Qword) (b : Byte) (a : Nat),
    (a ∈ (applyEdit s (.mapByte la b)).changed ↔
      a ∈ s.changed ∨ (a = la.toNat ∧ Memory.read s.mem a ≠ some b)) ∧
    (a ∈ (applyEdit s (.unmapByte la)).changed ↔
      a ∈ s.changed ∨ (a = la.toNat ∧ Memory.read s.mem a ≠ none))) ∧
  (∀ (s : State) (n k : Nat), LooksAtRip s → s.rip.toNat + n ≤ spaceSize s →
    ((∃ i rest, decode s.codeSize (fetchBytes s) = .instr i rest ∧ i.ops.ilen = n) ∨
      ∃ u, decode s.codeSize (fetchBytes s) = .ud u n) →
    k < n → (linear s .cs s.rip k).toNat ∈ s.changed → step s = .refused .textModified)

/-- R137: a handler may run instructions of its own: control goes to them with the interrupted event kept, and when the
instruction pointer is where they end the environment has control again in the same handler. The form: log 11. -/
def Obligations.HandlerRunsItsOwnCode : Prop :=
  (∀ (s : State) (d : Delivery) (entry stop flags : Qword) (hs : List HandlerRun),
    s.delivered = some d → s.handlers = { edits := [], exit := .code entry stop flags } :: hs →
    step s = .next { s with
      rip := entry, eflags := flags, delivered := none, outer := { event := d, stop := stop } :: s.outer,
      handlers := hs, clock := s.clock + 1 }) ∧
  (∀ (s : State) (fr : Frame) (frs : List Frame),
    s.delivered = none → s.pendingTraps = [] → s.outer = fr :: frs → s.rip = fr.stop →
    step s = .next { s with delivered := some fr.event, outer := frs, clock := s.clock + 1 })

/-- R137: an instruction is executed inside handlers as outside them: the events being handled neither change what it does nor are
changed by it; and outside the environment's own steps only one where the innermost handler's code ends, with no trap
pending, takes one of them away. The events' form and what takes one away: log 11; that GatherLeft does not depend on them:
log 12. -/
def Obligations.NestedEventsAreIndependent : Prop :=
  (∀ (i : Instr) (s t : State) (outer : List Frame), exec i s = .next t →
    t.outer = s.outer ∧ exec i { s with outer := outer } = .next { t with outer := outer }) ∧
  (∀ (s t : State), s.delivered = none →
    (s.pendingTraps ≠ [] ∨ ∀ fr, s.outer.head? = some fr → s.rip ≠ fr.stop) → step s = .next t → t.outer = s.outer)

/-- R130, R128, R135: an instruction breakpoint comes before the instruction's own #UD and before its execution, and changes nothing
but the record, the clock and DR6, in which exactly the bits of the breakpoints that match are set as well. The spec's from
general knowledge (D19; log 27); the debug registers' layout: log 16; an #UD encoding's bytes after ModRM, which need not be
mapped: log 22. -/
def Obligations.InstructionBreakpointComesFirst : Prop :=
  ∀ (s : State) (n : Fin 4) (len : Nat), FetchesHere s len → s.rip.toNat + len ≤ spaceSize s → s.rf = false →
    instrMatch s n (linear s .cs s.rip 0) = true →
    ((∃ i rest, decode s.codeSize (fetchBytes s) = .instr i rest ∧ i.ops.ilen = len) ∨
      ∃ u, decode s.codeSize (fetchBytes s) = .ud u len) →
    ∃ v : Qword, (∀ k, v.getLsbD k = true ↔
        s.dr6.getLsbD k = true ∨ ∃ m : Fin 4, m.val = k ∧ instrMatch s m (linear s .cs s.rip 0) = true) ∧
      step s = .next { s with dr6 := v, delivered := some (faultRecord s .db none none), clock := s.clock + 1 }

/-- R91, R133: the gather that an event ended does not re-trigger an instruction breakpoint when it is continued.
RF in the saved image: log 17. -/
def Obligations.BreakpointIsNotRetriggered : Prop :=
  ∀ (s t : State) (d : Delivery), s.delivered = none → s.pendingTraps = [] →
    endingHandler s = none → step s = .next t →
    t.delivered = some d → instrBreakpoints (returnFromEvent d t) = []
end

