-- ==== Sys2Proof/Laws/Bits.lean ====
section
/-! SUPPORT. The bit-level laws of the field operations: each operation's effect on every bit, said once. -/

namespace Sys2Proof.Laws

open Sys2Proof.Machine

@[simp] theorem getLsbD_lowOnes (w i : Nat) :
    (lowOnes w).getLsbD i = (decide (i < 512) && decide (i < w)) := by
  simp [lowOnes, BitVec.getLsbD_ofNat, Nat.testBit_two_pow_sub_one]

theorem getLsbD_getField (z : VecWord) (lo w i : Nat) :
    (getField z lo w).getLsbD i = (decide (i < 64) && decide (i < w) && z.getLsbD (lo + i)) := by
  have hz : ¬ i < 512 → i < 64 → False := by omega
  simp only [getField, BitVec.getLsbD_setWidth, BitVec.getLsbD_and, BitVec.getLsbD_ushiftRight,
    getLsbD_lowOnes]
  by_cases h : i < 64 <;> by_cases h' : i < w <;> simp [h, h']
  intro; omega

theorem getLsbD_putField (z : VecWord) (lo w : Nat) (v : Qword) (i : Nat) (hw : w ≤ 64) :
    (putField z lo w v).getLsbD i =
      (decide (i < 512) && if lo ≤ i ∧ i < lo + w then v.getLsbD (i - lo) else z.getLsbD i) := by
  simp only [putField, BitVec.getLsbD_or, BitVec.getLsbD_and, BitVec.getLsbD_not,
    BitVec.getLsbD_shiftLeft, BitVec.getLsbD_setWidth, getLsbD_lowOnes]
  by_cases h5 : i < 512
  · by_cases h1 : lo ≤ i
    · have h1' : ¬ i < lo := by omega
      by_cases h2 : i < lo + w
      · have h3 : i - lo < w := by omega
        have h4 : i - lo < 512 := by omega
        simp [h5, h1, h1', h2, h3, h4]
      · have h3 : ¬ i - lo < w := by omega
        simp [h5, h1, h1', h2, h3]
    · have h1' : i < lo := by omega
      simp [h5, h1, h1']
  · simp [h5]

theorem getLsbD_zeroFrom (z : VecWord) (n i : Nat) :
    (zeroFrom z n).getLsbD i = (z.getLsbD i && decide (i < n)) := by
  simp only [zeroFrom, BitVec.getLsbD_and, getLsbD_lowOnes]
  by_cases h : i < 512
  · simp [h]
  · simp [h, BitVec.getLsbD_of_ge z i (by simpa using h)]

theorem getLsbD_zeroMaskFrom (m : MaskWord) (n i : Nat) :
    (zeroMaskFrom m n).getLsbD i = (m.getLsbD i && decide (i < n)) := by
  simp only [zeroMaskFrom, BitVec.getLsbD_and, BitVec.getLsbD_ofNat, Nat.testBit_two_pow_sub_one]
  by_cases h : i < 64
  · simp [h]
  · simp [h, BitVec.getLsbD_of_ge m i (by simpa using h)]

theorem getLsbD_clearBit (m : MaskWord) (j i : Nat) :
    (clearBit m j).getLsbD i = (m.getLsbD i && decide (i ≠ j)) := by
  simp only [clearBit, BitVec.getLsbD_and, BitVec.getLsbD_not, BitVec.getLsbD_shiftLeft]
  by_cases h : i < 64
  · by_cases h1 : i < j
    · have : i ≠ j := by omega
      simp [h, h1, this]
    · by_cases h2 : i = j
      · simp [h2]
      · have : ¬ (i - j = 0) := by omega
        simp [h, h1, h2, this]
  · simp [h, BitVec.getLsbD_of_ge m i (by simpa using h)]

/-- Clearing the bits of a list clears exactly those. -/
theorem getLsbD_clearBits (js : List Nat) (m : MaskWord) (i : Nat) :
    (clearBits js m).getLsbD i = (m.getLsbD i && decide (i ∉ js)) := by
  induction js generalizing m with
  | nil => simp [clearBits]
  | cons j js ih =>
    rw [clearBits, ih, getLsbD_clearBit]
    by_cases h : i = j <;> simp [h]

/-- Writing the elements of a list changes exactly the bits of those elements. -/
theorem getLsbD_writeElems (es : Nat) (hes : 0 < es) (hes' : es ≤ 64) (vals : Nat → Qword)
    (js : List Nat) (z : VecWord) (i : Nat) :
    (writeElems es vals js z).getLsbD i =
      (decide (i < 512) && if i / es ∈ js then (vals (i / es)).getLsbD (i % es) else z.getLsbD i) := by
  induction js generalizing z with
  | nil =>
    by_cases h : i < 512
    · simp [writeElems, h]
    · simp [writeElems, h, BitVec.getLsbD_of_ge z i (by simpa using h)]
  | cons j js ih =>
    have hdiv : (es * j ≤ i ∧ i < es * j + es) ↔ i / es = j := by
      rw [Nat.div_eq_iff hes]
      constructor
      · rintro ⟨h1, h2⟩
        constructor <;> (rw [Nat.mul_comm]; omega)
      · rintro ⟨h1, h2⟩
        rw [Nat.mul_comm] at h1 h2
        omega
    have hmod : i / es = j → i - es * j = i % es := by
      intro h
      have := Nat.div_add_mod i es
      rw [h] at this
      omega
    rw [writeElems, ih, getLsbD_putField _ _ _ _ _ hes']
    by_cases h : i < 512
    · by_cases h1 : i / es ∈ js
      · simp [h, h1]
      · by_cases h2 : i / es = j
        · have h3 := hdiv.2 h2
          simp [h, h2, h3, hmod h2]
        · have h3 : ¬ (es * j ≤ i ∧ i < es * j + es) := fun h3 => h2 (hdiv.1 h3)
          simp [h, h1, h2, h3]
    · simp [h]

/-- An element of the destination after writing the elements of a list. -/
theorem getField_writeElems (es : Nat) (hes : 0 < es) (hes' : es ≤ 64) (vals : Nat → Qword)
    (js : List Nat) (z : VecWord) (j : Nat) (hj : es * j + es ≤ 512) :
    getField (writeElems es vals js z) (es * j) es =
      if j ∈ js then vals j &&& BitVec.ofNat 64 (2 ^ es - 1) else getField z (es * j) es := by
  apply BitVec.eq_of_getLsbD_eq
  intro i hi
  rw [getLsbD_getField, getLsbD_writeElems es hes hes']
  by_cases h : i < es
  · have h1 : es * j + i < 512 := by omega
    have h2 : (es * j + i) / es = j := by
      rw [Nat.mul_add_div hes, Nat.div_eq_of_lt h, Nat.add_zero]
    have h3 : (es * j + i) % es = i := by
      rw [Nat.mul_add_mod, Nat.mod_eq_of_lt h]
    rw [h2, h3]
    by_cases hm : j ∈ js
    · simp [hm, h, hi, h1, BitVec.getLsbD_ofNat, Nat.testBit_two_pow_sub_one]
    · simp only [hm, hi, h, h1, if_false, getLsbD_getField, decide_true, Bool.true_and]
  · by_cases hm : j ∈ js
    · simp [hm, h, BitVec.getLsbD_ofNat, Nat.testBit_two_pow_sub_one]
    · simp [hm, h, getLsbD_getField]

/-- Zeroing the part above `n` keeps an element below it. -/
theorem getField_zeroFrom (z : VecWord) (n lo w : Nat) (h : lo + w ≤ n) :
    getField (zeroFrom z n) lo w = getField z lo w := by
  apply BitVec.eq_of_getLsbD_eq
  intro i hi
  rw [getLsbD_getField, getLsbD_getField, getLsbD_zeroFrom]
  by_cases h1 : i < w
  · have : lo + i < n := by omega
    simp [this]
  · simp [h1]

end Sys2Proof.Laws
end

