-- ==== Sys2Proof/Laws/State.lean ====
section
/-! SUPPORT. One lemma per field per update of State, true by rfl, so that no proof unfolds a record update; and what
each register file reads after a write. -/

namespace Sys2Proof.Laws

open Sys2Proof.Machine

/-! ## setZmm -/

@[simp] theorem setZmm_k (s : State) (i : BitVec 5) (v : VecWord) : (s.setZmm i v).k = s.k := rfl

@[simp] theorem setZmm_gpr (s : State) (i : BitVec 5) (v : VecWord) : (s.setZmm i v).gpr = s.gpr := rfl

@[simp] theorem setZmm_rip (s : State) (i : BitVec 5) (v : VecWord) : (s.setZmm i v).rip = s.rip := rfl

@[simp] theorem setZmm_eflags (s : State) (i : BitVec 5) (v : VecWord) : (s.setZmm i v).eflags = s.eflags := rfl

@[simp] theorem setZmm_segs (s : State) (i : BitVec 5) (v : VecWord) : (s.setZmm i v).segs = s.segs := rfl

@[simp] theorem setZmm_csL (s : State) (i : BitVec 5) (v : VecWord) : (s.setZmm i v).csL = s.csL := rfl

@[simp] theorem setZmm_csD (s : State) (i : BitVec 5) (v : VecWord) : (s.setZmm i v).csD = s.csD := rfl

@[simp] theorem setZmm_cr0 (s : State) (i : BitVec 5) (v : VecWord) : (s.setZmm i v).cr0 = s.cr0 := rfl

@[simp] theorem setZmm_cr2 (s : State) (i : BitVec 5) (v : VecWord) : (s.setZmm i v).cr2 = s.cr2 := rfl

@[simp] theorem setZmm_cr4 (s : State) (i : BitVec 5) (v : VecWord) : (s.setZmm i v).cr4 = s.cr4 := rfl

@[simp] theorem setZmm_xcr0 (s : State) (i : BitVec 5) (v : VecWord) : (s.setZmm i v).xcr0 = s.xcr0 := rfl

@[simp] theorem setZmm_efer (s : State) (i : BitVec 5) (v : VecWord) : (s.setZmm i v).efer = s.efer := rfl

@[simp] theorem setZmm_cpl (s : State) (i : BitVec 5) (v : VecWord) : (s.setZmm i v).cpl = s.cpl := rfl

@[simp] theorem setZmm_hasAvx512f (s : State) (i : BitVec 5) (v : VecWord) : (s.setZmm i v).hasAvx512f = s.hasAvx512f := rfl

@[simp] theorem setZmm_hasAvx512vl (s : State) (i : BitVec 5) (v : VecWord) : (s.setZmm i v).hasAvx512vl = s.hasAvx512vl := rfl

@[simp] theorem setZmm_mxcsr (s : State) (i : BitVec 5) (v : VecWord) : (s.setZmm i v).mxcsr = s.mxcsr := rfl

@[simp] theorem setZmm_x87 (s : State) (i : BitVec 5) (v : VecWord) : (s.setZmm i v).x87 = s.x87 := rfl

@[simp] theorem setZmm_dr (s : State) (i : BitVec 5) (v : VecWord) : (s.setZmm i v).dr = s.dr := rfl

@[simp] theorem setZmm_dr6 (s : State) (i : BitVec 5) (v : VecWord) : (s.setZmm i v).dr6 = s.dr6 := rfl

@[simp] theorem setZmm_dr7 (s : State) (i : BitVec 5) (v : VecWord) : (s.setZmm i v).dr7 = s.dr7 := rfl

@[simp] theorem setZmm_pendingTraps (s : State) (i : BitVec 5) (v : VecWord) : (s.setZmm i v).pendingTraps = s.pendingTraps := rfl

@[simp] theorem setZmm_interruptPending (s : State) (i : BitVec 5) (v : VecWord) : (s.setZmm i v).interruptPending = s.interruptPending := rfl

@[simp] theorem setZmm_mem (s : State) (i : BitVec 5) (v : VecWord) : (s.setZmm i v).mem = s.mem := rfl

@[simp] theorem setZmm_regions (s : State) (i : BitVec 5) (v : VecWord) : (s.setZmm i v).regions = s.regions := rfl

@[simp] theorem setZmm_oracle (s : State) (i : BitVec 5) (v : VecWord) : (s.setZmm i v).oracle = s.oracle := rfl

@[simp] theorem setZmm_clock (s : State) (i : BitVec 5) (v : VecWord) : (s.setZmm i v).clock = s.clock := rfl

@[simp] theorem setZmm_changed (s : State) (i : BitVec 5) (v : VecWord) : (s.setZmm i v).changed = s.changed := rfl

@[simp] theorem setZmm_delivered (s : State) (i : BitVec 5) (v : VecWord) : (s.setZmm i v).delivered = s.delivered := rfl

@[simp] theorem setZmm_outer (s : State) (i : BitVec 5) (v : VecWord) : (s.setZmm i v).outer = s.outer := rfl

@[simp] theorem setZmm_handlers (s : State) (i : BitVec 5) (v : VecWord) : (s.setZmm i v).handlers = s.handlers := rfl

@[simp] theorem setZmm_freeCount (s : State) (i : BitVec 5) (v : VecWord) : (s.setZmm i v).freeCount = s.freeCount := rfl

/-! ## setMask -/

@[simp] theorem setMask_zmm (s : State) (i : BitVec 3) (v : MaskWord) : (s.setMask i v).zmm = s.zmm := rfl

@[simp] theorem setMask_gpr (s : State) (i : BitVec 3) (v : MaskWord) : (s.setMask i v).gpr = s.gpr := rfl

@[simp] theorem setMask_rip (s : State) (i : BitVec 3) (v : MaskWord) : (s.setMask i v).rip = s.rip := rfl

@[simp] theorem setMask_eflags (s : State) (i : BitVec 3) (v : MaskWord) : (s.setMask i v).eflags = s.eflags := rfl

@[simp] theorem setMask_segs (s : State) (i : BitVec 3) (v : MaskWord) : (s.setMask i v).segs = s.segs := rfl

@[simp] theorem setMask_csL (s : State) (i : BitVec 3) (v : MaskWord) : (s.setMask i v).csL = s.csL := rfl

@[simp] theorem setMask_csD (s : State) (i : BitVec 3) (v : MaskWord) : (s.setMask i v).csD = s.csD := rfl

@[simp] theorem setMask_cr0 (s : State) (i : BitVec 3) (v : MaskWord) : (s.setMask i v).cr0 = s.cr0 := rfl

@[simp] theorem setMask_cr2 (s : State) (i : BitVec 3) (v : MaskWord) : (s.setMask i v).cr2 = s.cr2 := rfl

@[simp] theorem setMask_cr4 (s : State) (i : BitVec 3) (v : MaskWord) : (s.setMask i v).cr4 = s.cr4 := rfl

@[simp] theorem setMask_xcr0 (s : State) (i : BitVec 3) (v : MaskWord) : (s.setMask i v).xcr0 = s.xcr0 := rfl

@[simp] theorem setMask_efer (s : State) (i : BitVec 3) (v : MaskWord) : (s.setMask i v).efer = s.efer := rfl

@[simp] theorem setMask_cpl (s : State) (i : BitVec 3) (v : MaskWord) : (s.setMask i v).cpl = s.cpl := rfl

@[simp] theorem setMask_hasAvx512f (s : State) (i : BitVec 3) (v : MaskWord) : (s.setMask i v).hasAvx512f = s.hasAvx512f := rfl

@[simp] theorem setMask_hasAvx512vl (s : State) (i : BitVec 3) (v : MaskWord) : (s.setMask i v).hasAvx512vl = s.hasAvx512vl := rfl

@[simp] theorem setMask_mxcsr (s : State) (i : BitVec 3) (v : MaskWord) : (s.setMask i v).mxcsr = s.mxcsr := rfl

@[simp] theorem setMask_x87 (s : State) (i : BitVec 3) (v : MaskWord) : (s.setMask i v).x87 = s.x87 := rfl

@[simp] theorem setMask_dr (s : State) (i : BitVec 3) (v : MaskWord) : (s.setMask i v).dr = s.dr := rfl

@[simp] theorem setMask_dr6 (s : State) (i : BitVec 3) (v : MaskWord) : (s.setMask i v).dr6 = s.dr6 := rfl

@[simp] theorem setMask_dr7 (s : State) (i : BitVec 3) (v : MaskWord) : (s.setMask i v).dr7 = s.dr7 := rfl

@[simp] theorem setMask_pendingTraps (s : State) (i : BitVec 3) (v : MaskWord) : (s.setMask i v).pendingTraps = s.pendingTraps := rfl

@[simp] theorem setMask_interruptPending (s : State) (i : BitVec 3) (v : MaskWord) : (s.setMask i v).interruptPending = s.interruptPending := rfl

@[simp] theorem setMask_mem (s : State) (i : BitVec 3) (v : MaskWord) : (s.setMask i v).mem = s.mem := rfl

@[simp] theorem setMask_regions (s : State) (i : BitVec 3) (v : MaskWord) : (s.setMask i v).regions = s.regions := rfl

@[simp] theorem setMask_oracle (s : State) (i : BitVec 3) (v : MaskWord) : (s.setMask i v).oracle = s.oracle := rfl

@[simp] theorem setMask_clock (s : State) (i : BitVec 3) (v : MaskWord) : (s.setMask i v).clock = s.clock := rfl

@[simp] theorem setMask_changed (s : State) (i : BitVec 3) (v : MaskWord) : (s.setMask i v).changed = s.changed := rfl

@[simp] theorem setMask_delivered (s : State) (i : BitVec 3) (v : MaskWord) : (s.setMask i v).delivered = s.delivered := rfl

@[simp] theorem setMask_outer (s : State) (i : BitVec 3) (v : MaskWord) : (s.setMask i v).outer = s.outer := rfl

@[simp] theorem setMask_handlers (s : State) (i : BitVec 3) (v : MaskWord) : (s.setMask i v).handlers = s.handlers := rfl

@[simp] theorem setMask_freeCount (s : State) (i : BitVec 3) (v : MaskWord) : (s.setMask i v).freeCount = s.freeCount := rfl

/-! ## setGpr -/

@[simp] theorem setGpr_zmm (s : State) (i : BitVec 4) (v : GprWord) : (s.setGpr i v).zmm = s.zmm := rfl

@[simp] theorem setGpr_k (s : State) (i : BitVec 4) (v : GprWord) : (s.setGpr i v).k = s.k := rfl

@[simp] theorem setGpr_rip (s : State) (i : BitVec 4) (v : GprWord) : (s.setGpr i v).rip = s.rip := rfl

@[simp] theorem setGpr_eflags (s : State) (i : BitVec 4) (v : GprWord) : (s.setGpr i v).eflags = s.eflags := rfl

@[simp] theorem setGpr_segs (s : State) (i : BitVec 4) (v : GprWord) : (s.setGpr i v).segs = s.segs := rfl

@[simp] theorem setGpr_csL (s : State) (i : BitVec 4) (v : GprWord) : (s.setGpr i v).csL = s.csL := rfl

@[simp] theorem setGpr_csD (s : State) (i : BitVec 4) (v : GprWord) : (s.setGpr i v).csD = s.csD := rfl

@[simp] theorem setGpr_cr0 (s : State) (i : BitVec 4) (v : GprWord) : (s.setGpr i v).cr0 = s.cr0 := rfl

@[simp] theorem setGpr_cr2 (s : State) (i : BitVec 4) (v : GprWord) : (s.setGpr i v).cr2 = s.cr2 := rfl

@[simp] theorem setGpr_cr4 (s : State) (i : BitVec 4) (v : GprWord) : (s.setGpr i v).cr4 = s.cr4 := rfl

@[simp] theorem setGpr_xcr0 (s : State) (i : BitVec 4) (v : GprWord) : (s.setGpr i v).xcr0 = s.xcr0 := rfl

@[simp] theorem setGpr_efer (s : State) (i : BitVec 4) (v : GprWord) : (s.setGpr i v).efer = s.efer := rfl

@[simp] theorem setGpr_cpl (s : State) (i : BitVec 4) (v : GprWord) : (s.setGpr i v).cpl = s.cpl := rfl

@[simp] theorem setGpr_hasAvx512f (s : State) (i : BitVec 4) (v : GprWord) : (s.setGpr i v).hasAvx512f = s.hasAvx512f := rfl

@[simp] theorem setGpr_hasAvx512vl (s : State) (i : BitVec 4) (v : GprWord) : (s.setGpr i v).hasAvx512vl = s.hasAvx512vl := rfl

@[simp] theorem setGpr_mxcsr (s : State) (i : BitVec 4) (v : GprWord) : (s.setGpr i v).mxcsr = s.mxcsr := rfl

@[simp] theorem setGpr_x87 (s : State) (i : BitVec 4) (v : GprWord) : (s.setGpr i v).x87 = s.x87 := rfl

@[simp] theorem setGpr_dr (s : State) (i : BitVec 4) (v : GprWord) : (s.setGpr i v).dr = s.dr := rfl

@[simp] theorem setGpr_dr6 (s : State) (i : BitVec 4) (v : GprWord) : (s.setGpr i v).dr6 = s.dr6 := rfl

@[simp] theorem setGpr_dr7 (s : State) (i : BitVec 4) (v : GprWord) : (s.setGpr i v).dr7 = s.dr7 := rfl

@[simp] theorem setGpr_pendingTraps (s : State) (i : BitVec 4) (v : GprWord) : (s.setGpr i v).pendingTraps = s.pendingTraps := rfl

@[simp] theorem setGpr_interruptPending (s : State) (i : BitVec 4) (v : GprWord) : (s.setGpr i v).interruptPending = s.interruptPending := rfl

@[simp] theorem setGpr_mem (s : State) (i : BitVec 4) (v : GprWord) : (s.setGpr i v).mem = s.mem := rfl

@[simp] theorem setGpr_regions (s : State) (i : BitVec 4) (v : GprWord) : (s.setGpr i v).regions = s.regions := rfl

@[simp] theorem setGpr_oracle (s : State) (i : BitVec 4) (v : GprWord) : (s.setGpr i v).oracle = s.oracle := rfl

@[simp] theorem setGpr_clock (s : State) (i : BitVec 4) (v : GprWord) : (s.setGpr i v).clock = s.clock := rfl

@[simp] theorem setGpr_changed (s : State) (i : BitVec 4) (v : GprWord) : (s.setGpr i v).changed = s.changed := rfl

@[simp] theorem setGpr_delivered (s : State) (i : BitVec 4) (v : GprWord) : (s.setGpr i v).delivered = s.delivered := rfl

@[simp] theorem setGpr_outer (s : State) (i : BitVec 4) (v : GprWord) : (s.setGpr i v).outer = s.outer := rfl

@[simp] theorem setGpr_handlers (s : State) (i : BitVec 4) (v : GprWord) : (s.setGpr i v).handlers = s.handlers := rfl

@[simp] theorem setGpr_freeCount (s : State) (i : BitVec 4) (v : GprWord) : (s.setGpr i v).freeCount = s.freeCount := rfl

/-! ## tick -/

@[simp] theorem tick_zmm (s : State) : (s.tick).zmm = s.zmm := rfl

@[simp] theorem tick_k (s : State) : (s.tick).k = s.k := rfl

@[simp] theorem tick_gpr (s : State) : (s.tick).gpr = s.gpr := rfl

@[simp] theorem tick_rip (s : State) : (s.tick).rip = s.rip := rfl

@[simp] theorem tick_eflags (s : State) : (s.tick).eflags = s.eflags := rfl

@[simp] theorem tick_segs (s : State) : (s.tick).segs = s.segs := rfl

@[simp] theorem tick_csL (s : State) : (s.tick).csL = s.csL := rfl

@[simp] theorem tick_csD (s : State) : (s.tick).csD = s.csD := rfl

@[simp] theorem tick_cr0 (s : State) : (s.tick).cr0 = s.cr0 := rfl

@[simp] theorem tick_cr2 (s : State) : (s.tick).cr2 = s.cr2 := rfl

@[simp] theorem tick_cr4 (s : State) : (s.tick).cr4 = s.cr4 := rfl

@[simp] theorem tick_xcr0 (s : State) : (s.tick).xcr0 = s.xcr0 := rfl

@[simp] theorem tick_efer (s : State) : (s.tick).efer = s.efer := rfl

@[simp] theorem tick_cpl (s : State) : (s.tick).cpl = s.cpl := rfl

@[simp] theorem tick_hasAvx512f (s : State) : (s.tick).hasAvx512f = s.hasAvx512f := rfl

@[simp] theorem tick_hasAvx512vl (s : State) : (s.tick).hasAvx512vl = s.hasAvx512vl := rfl

@[simp] theorem tick_mxcsr (s : State) : (s.tick).mxcsr = s.mxcsr := rfl

@[simp] theorem tick_x87 (s : State) : (s.tick).x87 = s.x87 := rfl

@[simp] theorem tick_dr (s : State) : (s.tick).dr = s.dr := rfl

@[simp] theorem tick_dr6 (s : State) : (s.tick).dr6 = s.dr6 := rfl

@[simp] theorem tick_dr7 (s : State) : (s.tick).dr7 = s.dr7 := rfl

@[simp] theorem tick_pendingTraps (s : State) : (s.tick).pendingTraps = s.pendingTraps := rfl

@[simp] theorem tick_interruptPending (s : State) : (s.tick).interruptPending = s.interruptPending := rfl

@[simp] theorem tick_mem (s : State) : (s.tick).mem = s.mem := rfl

@[simp] theorem tick_regions (s : State) : (s.tick).regions = s.regions := rfl

@[simp] theorem tick_oracle (s : State) : (s.tick).oracle = s.oracle := rfl

@[simp] theorem tick_clock (s : State) : (s.tick).clock = s.clock := rfl

@[simp] theorem tick_changed (s : State) : (s.tick).changed = s.changed := rfl

@[simp] theorem tick_delivered (s : State) : (s.tick).delivered = s.delivered := rfl

@[simp] theorem tick_outer (s : State) : (s.tick).outer = s.outer := rfl

@[simp] theorem tick_handlers (s : State) : (s.tick).handlers = s.handlers := rfl

/-! ## tock -/

@[simp] theorem tock_zmm (s : State) : (s.tock).zmm = s.zmm := rfl

@[simp] theorem tock_k (s : State) : (s.tock).k = s.k := rfl

@[simp] theorem tock_gpr (s : State) : (s.tock).gpr = s.gpr := rfl

@[simp] theorem tock_rip (s : State) : (s.tock).rip = s.rip := rfl

@[simp] theorem tock_eflags (s : State) : (s.tock).eflags = s.eflags := rfl

@[simp] theorem tock_segs (s : State) : (s.tock).segs = s.segs := rfl

@[simp] theorem tock_csL (s : State) : (s.tock).csL = s.csL := rfl

@[simp] theorem tock_csD (s : State) : (s.tock).csD = s.csD := rfl

@[simp] theorem tock_cr0 (s : State) : (s.tock).cr0 = s.cr0 := rfl

@[simp] theorem tock_cr2 (s : State) : (s.tock).cr2 = s.cr2 := rfl

@[simp] theorem tock_cr4 (s : State) : (s.tock).cr4 = s.cr4 := rfl

@[simp] theorem tock_xcr0 (s : State) : (s.tock).xcr0 = s.xcr0 := rfl

@[simp] theorem tock_efer (s : State) : (s.tock).efer = s.efer := rfl

@[simp] theorem tock_cpl (s : State) : (s.tock).cpl = s.cpl := rfl

@[simp] theorem tock_hasAvx512f (s : State) : (s.tock).hasAvx512f = s.hasAvx512f := rfl

@[simp] theorem tock_hasAvx512vl (s : State) : (s.tock).hasAvx512vl = s.hasAvx512vl := rfl

@[simp] theorem tock_mxcsr (s : State) : (s.tock).mxcsr = s.mxcsr := rfl

@[simp] theorem tock_x87 (s : State) : (s.tock).x87 = s.x87 := rfl

@[simp] theorem tock_dr (s : State) : (s.tock).dr = s.dr := rfl

@[simp] theorem tock_dr6 (s : State) : (s.tock).dr6 = s.dr6 := rfl

@[simp] theorem tock_dr7 (s : State) : (s.tock).dr7 = s.dr7 := rfl

@[simp] theorem tock_pendingTraps (s : State) : (s.tock).pendingTraps = s.pendingTraps := rfl

@[simp] theorem tock_interruptPending (s : State) : (s.tock).interruptPending = s.interruptPending := rfl

@[simp] theorem tock_mem (s : State) : (s.tock).mem = s.mem := rfl

@[simp] theorem tock_regions (s : State) : (s.tock).regions = s.regions := rfl

@[simp] theorem tock_oracle (s : State) : (s.tock).oracle = s.oracle := rfl

@[simp] theorem tock_changed (s : State) : (s.tock).changed = s.changed := rfl

@[simp] theorem tock_delivered (s : State) : (s.tock).delivered = s.delivered := rfl

@[simp] theorem tock_outer (s : State) : (s.tock).outer = s.outer := rfl

@[simp] theorem tock_handlers (s : State) : (s.tock).handlers = s.handlers := rfl

@[simp] theorem tock_freeCount (s : State) : (s.tock).freeCount = s.freeCount := rfl

/-! ## advance -/

@[simp] theorem advance_zmm (n : Nat) (s : State) : (advance n s).zmm = s.zmm := rfl

@[simp] theorem advance_k (n : Nat) (s : State) : (advance n s).k = s.k := rfl

@[simp] theorem advance_gpr (n : Nat) (s : State) : (advance n s).gpr = s.gpr := rfl

@[simp] theorem advance_eflags (n : Nat) (s : State) : (advance n s).eflags = s.eflags := rfl

@[simp] theorem advance_segs (n : Nat) (s : State) : (advance n s).segs = s.segs := rfl

@[simp] theorem advance_csL (n : Nat) (s : State) : (advance n s).csL = s.csL := rfl

@[simp] theorem advance_csD (n : Nat) (s : State) : (advance n s).csD = s.csD := rfl

@[simp] theorem advance_cr0 (n : Nat) (s : State) : (advance n s).cr0 = s.cr0 := rfl

@[simp] theorem advance_cr2 (n : Nat) (s : State) : (advance n s).cr2 = s.cr2 := rfl

@[simp] theorem advance_cr4 (n : Nat) (s : State) : (advance n s).cr4 = s.cr4 := rfl

@[simp] theorem advance_xcr0 (n : Nat) (s : State) : (advance n s).xcr0 = s.xcr0 := rfl

@[simp] theorem advance_efer (n : Nat) (s : State) : (advance n s).efer = s.efer := rfl

@[simp] theorem advance_cpl (n : Nat) (s : State) : (advance n s).cpl = s.cpl := rfl

@[simp] theorem advance_hasAvx512f (n : Nat) (s : State) : (advance n s).hasAvx512f = s.hasAvx512f := rfl

@[simp] theorem advance_hasAvx512vl (n : Nat) (s : State) : (advance n s).hasAvx512vl = s.hasAvx512vl := rfl

@[simp] theorem advance_mxcsr (n : Nat) (s : State) : (advance n s).mxcsr = s.mxcsr := rfl

@[simp] theorem advance_x87 (n : Nat) (s : State) : (advance n s).x87 = s.x87 := rfl

@[simp] theorem advance_dr (n : Nat) (s : State) : (advance n s).dr = s.dr := rfl

@[simp] theorem advance_dr6 (n : Nat) (s : State) : (advance n s).dr6 = s.dr6 := rfl

@[simp] theorem advance_dr7 (n : Nat) (s : State) : (advance n s).dr7 = s.dr7 := rfl

@[simp] theorem advance_pendingTraps (n : Nat) (s : State) : (advance n s).pendingTraps = s.pendingTraps := rfl

@[simp] theorem advance_interruptPending (n : Nat) (s : State) : (advance n s).interruptPending = s.interruptPending := rfl

@[simp] theorem advance_mem (n : Nat) (s : State) : (advance n s).mem = s.mem := rfl

@[simp] theorem advance_regions (n : Nat) (s : State) : (advance n s).regions = s.regions := rfl

@[simp] theorem advance_oracle (n : Nat) (s : State) : (advance n s).oracle = s.oracle := rfl

@[simp] theorem advance_clock (n : Nat) (s : State) : (advance n s).clock = s.clock := rfl

@[simp] theorem advance_changed (n : Nat) (s : State) : (advance n s).changed = s.changed := rfl

@[simp] theorem advance_delivered (n : Nat) (s : State) : (advance n s).delivered = s.delivered := rfl

@[simp] theorem advance_outer (n : Nat) (s : State) : (advance n s).outer = s.outer := rfl

@[simp] theorem advance_handlers (n : Nat) (s : State) : (advance n s).handlers = s.handlers := rfl

@[simp] theorem advance_freeCount (n : Nat) (s : State) : (advance n s).freeCount = s.freeCount := rfl

/-! ## takeEvent -/

@[simp] theorem takeEvent_zmm (ev : Event) (s : State) : (takeEvent ev s).zmm = s.zmm := rfl

@[simp] theorem takeEvent_k (ev : Event) (s : State) : (takeEvent ev s).k = s.k := rfl

@[simp] theorem takeEvent_gpr (ev : Event) (s : State) : (takeEvent ev s).gpr = s.gpr := rfl

@[simp] theorem takeEvent_rip (ev : Event) (s : State) : (takeEvent ev s).rip = s.rip := rfl

@[simp] theorem takeEvent_eflags (ev : Event) (s : State) : (takeEvent ev s).eflags = s.eflags := rfl

@[simp] theorem takeEvent_segs (ev : Event) (s : State) : (takeEvent ev s).segs = s.segs := rfl

@[simp] theorem takeEvent_csL (ev : Event) (s : State) : (takeEvent ev s).csL = s.csL := rfl

@[simp] theorem takeEvent_csD (ev : Event) (s : State) : (takeEvent ev s).csD = s.csD := rfl

@[simp] theorem takeEvent_cr0 (ev : Event) (s : State) : (takeEvent ev s).cr0 = s.cr0 := rfl

@[simp] theorem takeEvent_cr4 (ev : Event) (s : State) : (takeEvent ev s).cr4 = s.cr4 := rfl

@[simp] theorem takeEvent_xcr0 (ev : Event) (s : State) : (takeEvent ev s).xcr0 = s.xcr0 := rfl

@[simp] theorem takeEvent_efer (ev : Event) (s : State) : (takeEvent ev s).efer = s.efer := rfl

@[simp] theorem takeEvent_cpl (ev : Event) (s : State) : (takeEvent ev s).cpl = s.cpl := rfl

@[simp] theorem takeEvent_hasAvx512f (ev : Event) (s : State) : (takeEvent ev s).hasAvx512f = s.hasAvx512f := rfl

@[simp] theorem takeEvent_hasAvx512vl (ev : Event) (s : State) : (takeEvent ev s).hasAvx512vl = s.hasAvx512vl := rfl

@[simp] theorem takeEvent_mxcsr (ev : Event) (s : State) : (takeEvent ev s).mxcsr = s.mxcsr := rfl

@[simp] theorem takeEvent_x87 (ev : Event) (s : State) : (takeEvent ev s).x87 = s.x87 := rfl

@[simp] theorem takeEvent_dr (ev : Event) (s : State) : (takeEvent ev s).dr = s.dr := rfl

@[simp] theorem takeEvent_dr7 (ev : Event) (s : State) : (takeEvent ev s).dr7 = s.dr7 := rfl

@[simp] theorem takeEvent_pendingTraps (ev : Event) (s : State) : (takeEvent ev s).pendingTraps = s.pendingTraps := rfl

@[simp] theorem takeEvent_interruptPending (ev : Event) (s : State) : (takeEvent ev s).interruptPending = s.interruptPending := rfl

@[simp] theorem takeEvent_mem (ev : Event) (s : State) : (takeEvent ev s).mem = s.mem := rfl

@[simp] theorem takeEvent_regions (ev : Event) (s : State) : (takeEvent ev s).regions = s.regions := rfl

@[simp] theorem takeEvent_oracle (ev : Event) (s : State) : (takeEvent ev s).oracle = s.oracle := rfl

@[simp] theorem takeEvent_clock (ev : Event) (s : State) : (takeEvent ev s).clock = s.clock := rfl

@[simp] theorem takeEvent_changed (ev : Event) (s : State) : (takeEvent ev s).changed = s.changed := rfl

@[simp] theorem takeEvent_outer (ev : Event) (s : State) : (takeEvent ev s).outer = s.outer := rfl

@[simp] theorem takeEvent_handlers (ev : Event) (s : State) : (takeEvent ev s).handlers = s.handlers := rfl

@[simp] theorem takeEvent_freeCount (ev : Event) (s : State) : (takeEvent ev s).freeCount = s.freeCount := rfl

/-! ## resumeHandler -/

@[simp] theorem resumeHandler_zmm (fr : Frame) (s : State) : (resumeHandler fr s).zmm = s.zmm := rfl

@[simp] theorem resumeHandler_k (fr : Frame) (s : State) : (resumeHandler fr s).k = s.k := rfl

@[simp] theorem resumeHandler_gpr (fr : Frame) (s : State) : (resumeHandler fr s).gpr = s.gpr := rfl

@[simp] theorem resumeHandler_rip (fr : Frame) (s : State) : (resumeHandler fr s).rip = s.rip := rfl

@[simp] theorem resumeHandler_eflags (fr : Frame) (s : State) : (resumeHandler fr s).eflags = s.eflags := rfl

@[simp] theorem resumeHandler_segs (fr : Frame) (s : State) : (resumeHandler fr s).segs = s.segs := rfl

@[simp] theorem resumeHandler_csL (fr : Frame) (s : State) : (resumeHandler fr s).csL = s.csL := rfl

@[simp] theorem resumeHandler_csD (fr : Frame) (s : State) : (resumeHandler fr s).csD = s.csD := rfl

@[simp] theorem resumeHandler_cr0 (fr : Frame) (s : State) : (resumeHandler fr s).cr0 = s.cr0 := rfl

@[simp] theorem resumeHandler_cr2 (fr : Frame) (s : State) : (resumeHandler fr s).cr2 = s.cr2 := rfl

@[simp] theorem resumeHandler_cr4 (fr : Frame) (s : State) : (resumeHandler fr s).cr4 = s.cr4 := rfl

@[simp] theorem resumeHandler_xcr0 (fr : Frame) (s : State) : (resumeHandler fr s).xcr0 = s.xcr0 := rfl

@[simp] theorem resumeHandler_efer (fr : Frame) (s : State) : (resumeHandler fr s).efer = s.efer := rfl

@[simp] theorem resumeHandler_cpl (fr : Frame) (s : State) : (resumeHandler fr s).cpl = s.cpl := rfl

@[simp] theorem resumeHandler_hasAvx512f (fr : Frame) (s : State) : (resumeHandler fr s).hasAvx512f = s.hasAvx512f := rfl

@[simp] theorem resumeHandler_hasAvx512vl (fr : Frame) (s : State) : (resumeHandler fr s).hasAvx512vl = s.hasAvx512vl := rfl

@[simp] theorem resumeHandler_mxcsr (fr : Frame) (s : State) : (resumeHandler fr s).mxcsr = s.mxcsr := rfl

@[simp] theorem resumeHandler_x87 (fr : Frame) (s : State) : (resumeHandler fr s).x87 = s.x87 := rfl

@[simp] theorem resumeHandler_dr (fr : Frame) (s : State) : (resumeHandler fr s).dr = s.dr := rfl

@[simp] theorem resumeHandler_dr6 (fr : Frame) (s : State) : (resumeHandler fr s).dr6 = s.dr6 := rfl

@[simp] theorem resumeHandler_dr7 (fr : Frame) (s : State) : (resumeHandler fr s).dr7 = s.dr7 := rfl

@[simp] theorem resumeHandler_pendingTraps (fr : Frame) (s : State) : (resumeHandler fr s).pendingTraps = s.pendingTraps := rfl

@[simp] theorem resumeHandler_interruptPending (fr : Frame) (s : State) : (resumeHandler fr s).interruptPending = s.interruptPending := rfl

@[simp] theorem resumeHandler_mem (fr : Frame) (s : State) : (resumeHandler fr s).mem = s.mem := rfl

@[simp] theorem resumeHandler_regions (fr : Frame) (s : State) : (resumeHandler fr s).regions = s.regions := rfl

@[simp] theorem resumeHandler_oracle (fr : Frame) (s : State) : (resumeHandler fr s).oracle = s.oracle := rfl

@[simp] theorem resumeHandler_clock (fr : Frame) (s : State) : (resumeHandler fr s).clock = s.clock := rfl

@[simp] theorem resumeHandler_changed (fr : Frame) (s : State) : (resumeHandler fr s).changed = s.changed := rfl

@[simp] theorem resumeHandler_handlers (fr : Frame) (s : State) : (resumeHandler fr s).handlers = s.handlers := rfl

@[simp] theorem resumeHandler_freeCount (fr : Frame) (s : State) : (resumeHandler fr s).freeCount = s.freeCount := rfl

/-! ## returnFromEvent -/

@[simp] theorem returnFromEvent_zmm (d : Delivery) (s : State) : (returnFromEvent d s).zmm = s.zmm := rfl

@[simp] theorem returnFromEvent_k (d : Delivery) (s : State) : (returnFromEvent d s).k = s.k := rfl

@[simp] theorem returnFromEvent_gpr (d : Delivery) (s : State) : (returnFromEvent d s).gpr = s.gpr := rfl

@[simp] theorem returnFromEvent_segs (d : Delivery) (s : State) : (returnFromEvent d s).segs = s.segs := rfl

@[simp] theorem returnFromEvent_csL (d : Delivery) (s : State) : (returnFromEvent d s).csL = s.csL := rfl

@[simp] theorem returnFromEvent_csD (d : Delivery) (s : State) : (returnFromEvent d s).csD = s.csD := rfl

@[simp] theorem returnFromEvent_cr0 (d : Delivery) (s : State) : (returnFromEvent d s).cr0 = s.cr0 := rfl

@[simp] theorem returnFromEvent_cr2 (d : Delivery) (s : State) : (returnFromEvent d s).cr2 = s.cr2 := rfl

@[simp] theorem returnFromEvent_cr4 (d : Delivery) (s : State) : (returnFromEvent d s).cr4 = s.cr4 := rfl

@[simp] theorem returnFromEvent_xcr0 (d : Delivery) (s : State) : (returnFromEvent d s).xcr0 = s.xcr0 := rfl

@[simp] theorem returnFromEvent_efer (d : Delivery) (s : State) : (returnFromEvent d s).efer = s.efer := rfl

@[simp] theorem returnFromEvent_cpl (d : Delivery) (s : State) : (returnFromEvent d s).cpl = s.cpl := rfl

@[simp] theorem returnFromEvent_hasAvx512f (d : Delivery) (s : State) : (returnFromEvent d s).hasAvx512f = s.hasAvx512f := rfl

@[simp] theorem returnFromEvent_hasAvx512vl (d : Delivery) (s : State) : (returnFromEvent d s).hasAvx512vl = s.hasAvx512vl := rfl

@[simp] theorem returnFromEvent_mxcsr (d : Delivery) (s : State) : (returnFromEvent d s).mxcsr = s.mxcsr := rfl

@[simp] theorem returnFromEvent_x87 (d : Delivery) (s : State) : (returnFromEvent d s).x87 = s.x87 := rfl

@[simp] theorem returnFromEvent_dr (d : Delivery) (s : State) : (returnFromEvent d s).dr = s.dr := rfl

@[simp] theorem returnFromEvent_dr6 (d : Delivery) (s : State) : (returnFromEvent d s).dr6 = s.dr6 := rfl

@[simp] theorem returnFromEvent_dr7 (d : Delivery) (s : State) : (returnFromEvent d s).dr7 = s.dr7 := rfl

@[simp] theorem returnFromEvent_pendingTraps (d : Delivery) (s : State) : (returnFromEvent d s).pendingTraps = s.pendingTraps := rfl

@[simp] theorem returnFromEvent_interruptPending (d : Delivery) (s : State) : (returnFromEvent d s).interruptPending = s.interruptPending := rfl

@[simp] theorem returnFromEvent_mem (d : Delivery) (s : State) : (returnFromEvent d s).mem = s.mem := rfl

@[simp] theorem returnFromEvent_regions (d : Delivery) (s : State) : (returnFromEvent d s).regions = s.regions := rfl

@[simp] theorem returnFromEvent_oracle (d : Delivery) (s : State) : (returnFromEvent d s).oracle = s.oracle := rfl

@[simp] theorem returnFromEvent_clock (d : Delivery) (s : State) : (returnFromEvent d s).clock = s.clock := rfl

@[simp] theorem returnFromEvent_changed (d : Delivery) (s : State) : (returnFromEvent d s).changed = s.changed := rfl

@[simp] theorem returnFromEvent_outer (d : Delivery) (s : State) : (returnFromEvent d s).outer = s.outer := rfl

@[simp] theorem returnFromEvent_handlers (d : Delivery) (s : State) : (returnFromEvent d s).handlers = s.handlers := rfl

@[simp] theorem returnFromEvent_freeCount (d : Delivery) (s : State) : (returnFromEvent d s).freeCount = s.freeCount := rfl

/-! ## What the updates write -/

@[simp] theorem tick_freeCount (s : State) : s.tick.freeCount = s.freeCount + 1 := rfl

@[simp] theorem tock_clock (s : State) : s.tock.clock = s.clock + 1 := rfl

@[simp] theorem advance_rip (n : Nat) (s : State) :
    (advance n s).rip = truncW s (s.rip + BitVec.ofNat 64 n) := rfl

@[simp] theorem takeEvent_cr2 (ev : Event) (s : State) : (takeEvent ev s).cr2 = ev.cr2 s.cr2 := rfl

@[simp] theorem takeEvent_dr6 (ev : Event) (s : State) : (takeEvent ev s).dr6 = ev.dr6 s.dr6 := rfl

@[simp] theorem takeEvent_delivered (ev : Event) (s : State) :
    (takeEvent ev s).delivered = some
      { kind := ev.kind, errorCode := ev.errorCode, savedRip := s.rip
        savedFlags := if ev.setsRf then withRf s.eflags true else s.eflags, element := ev.element } := rfl

@[simp] theorem returnFromEvent_rip (d : Delivery) (s : State) : (returnFromEvent d s).rip = d.savedRip := rfl

@[simp] theorem returnFromEvent_eflags (d : Delivery) (s : State) :
    (returnFromEvent d s).eflags = d.savedFlags := rfl

@[simp] theorem returnFromEvent_delivered (d : Delivery) (s : State) :
    (returnFromEvent d s).delivered = none := rfl

@[simp] theorem resumeHandler_delivered (fr : Frame) (s : State) :
    (resumeHandler fr s).delivered = some fr.event := rfl

@[simp] theorem resumeHandler_outer (fr : Frame) (s : State) : (resumeHandler fr s).outer = s.outer.tail := rfl

/-! ## Register files -/

theorem getZmm_setZmm (s : State) (i j : BitVec 5) (v : VecWord) :
    (s.setZmm i v).getZmm j = if j = i then v else s.getZmm j := by
  simp only [State.getZmm, State.setZmm, Vector.getElem_set, BitVec.toNat_inj, eq_comm (a := i)]

theorem getMask_setMask (s : State) (i j : BitVec 3) (v : MaskWord) :
    (s.setMask i v).getMask j = if j = i then v else s.getMask j := by
  simp only [State.getMask, State.setMask, Vector.getElem_set, BitVec.toNat_inj, eq_comm (a := i)]

theorem getGpr_setGpr (s : State) (i j : BitVec 4) (v : Qword) :
    (s.setGpr i v).getGpr j = if j = i then v else s.getGpr j := by
  simp only [State.getGpr, State.setGpr, Vector.getElem_set, BitVec.toNat_inj, eq_comm (a := i)]

@[simp] theorem getZmm_setZmm_same (s : State) (i : BitVec 5) (v : VecWord) :
    (s.setZmm i v).getZmm i = v := by simp [getZmm_setZmm]

@[simp] theorem getMask_setMask_same (s : State) (i : BitVec 3) (v : MaskWord) :
    (s.setMask i v).getMask i = v := by simp [getMask_setMask]

@[simp] theorem getZmm_setMask (s : State) (i : BitVec 3) (v : MaskWord) (j : BitVec 5) :
    (s.setMask i v).getZmm j = s.getZmm j := rfl

@[simp] theorem getMask_setZmm (s : State) (i : BitVec 5) (v : VecWord) (j : BitVec 3) :
    (s.setZmm i v).getMask j = s.getMask j := rfl

end Sys2Proof.Laws
end

