-- ==== Sys2Proof/Laws/Gather.lean ====
section
/-! SUPPORT. What the gather relation can do, said once: the dispatch, the constants of a form, the commit of a set of
elements, the outcomes. -/

namespace Sys2Proof.Laws

open Sys2Proof.Machine

/-! ## Dispatch and forms -/

theorem exec_eq_gather (i : Instr) (s : State) : exec i s = gather i.form i.ops s := by
  cases i <;> rfl

theorem es_pos (f : Form) : 0 < f.es := by cases f <;> decide

theorem es_le (f : Form) : f.es ≤ 64 := by cases f <;> decide

theorem kl_le (f : Form) : f.kl ≤ 8 := by cases f <;> decide

theorem dw_le (f : Form) : f.dw ≤ 512 := by cases f <;> decide

theorem es_eq (f : Form) : f.es = 8 * f.elemBytes := by cases f <;> decide

theorem elemBytes_le (f : Form) : f.elemBytes ≤ 8 := by cases f <;> decide

/-- An element below `KL` lies below `DW`. -/
theorem elem_le_dw (f : Form) (j : Nat) (h : j < f.kl) : f.es * j + f.es ≤ f.dw := by
  have : f.es * (j + 1) ≤ f.es * f.kl := Nat.mul_le_mul_left _ h
  rw [Form.dw, Nat.mul_comm f.kl, Nat.mul_succ] at *
  exact this

theorem mem_active (f : Form) (o : Operands) (s : State) (j : Nat) :
    j ∈ active f o s ↔ j < f.kl ∧ isActive o s j = true := by
  simp [active]

/-! ## Values -/

theorem le_lt (bs : List Byte) (h : bs.length ≤ 8) : (le bs).toNat < 2 ^ (8 * bs.length) := by
  induction bs with
  | nil => simp [le]
  | cons b bs ih =>
    have h1 : bs.length ≤ 8 := by simp at h; omega
    have h2 := ih h1
    simp only [le, BitVec.toNat_or, BitVec.toNat_setWidth, BitVec.toNat_shiftLeft, List.length_cons]
    apply Nat.or_lt_two_pow
    · have : b.toNat < 2 ^ 8 := b.isLt
      have h3 : (2 : Nat) ^ 8 ≤ 2 ^ (8 * (bs.length + 1)) := Nat.pow_le_pow_right (by omega) (by omega)
      exact Nat.lt_of_le_of_lt (Nat.mod_le _ _) (Nat.lt_of_lt_of_le this h3)
    · apply Nat.lt_of_le_of_lt (Nat.mod_le _ _)
      rw [Nat.shiftLeft_eq, show 8 * (bs.length + 1) = 8 * bs.length + 8 by ring, Nat.pow_add]
      exact Nat.mul_lt_mul_of_pos_right h2 (by omega)

theorem readBytes_length (s : State) (las : List Qword) (bs : List Byte)
    (h : readBytes s las = .ok bs) : bs.length = las.length := by
  induction las generalizing bs with
  | nil => simp [readBytes] at h; simp [← h]
  | cons la las ih =>
    simp only [readBytes] at h
    split at h
    · cases h
    · split at h
      · cases h
      · rename_i h1
        simp only [Except.ok.injEq] at h
        simp [← h, ih _ h1]

/-- Everything a value of the concrete oracle says. -/
theorem mapAccess_ok (s : State) (g : Seg) (ea : Qword) (n : Nat) (v : Qword) (h : mapAccess s g ea n = .ok v) :
    ∃ bs, readBytes s ((List.range n).map (linear s g ea)) = .ok bs ∧ bs.length = n ∧ v = le bs := by
  unfold mapAccess at h
  split at h
  · cases h
  · split at h
    · cases h
    · split at h
      · cases h
      · rename_i bs hb
        split at h
        · cases h
        · simp only [Access.ok.injEq] at h
          exact ⟨bs, hb, by simpa using readBytes_length _ _ _ hb, h.symm⟩

theorem fit_ok_lt (n : Nat) (r : Access) (v : Qword) (h : r.fit n = .ok v) : v.toNat < 256 ^ n := by
  cases r with
  | ok w =>
    simp only [Access.fit, Access.ok.injEq] at h
    subst h
    rw [BitVec.toNat_ofNat]
    exact Nat.lt_of_le_of_lt (Nat.mod_le _ _) (Nat.mod_lt _ (by positivity))
  | fault e => cases h
  | sideEffect => cases h

/-- Whatever the oracle is, a value it answers has exactly the bytes asked for (20 R40). -/
theorem access_ok_lt (s : State) (j : Nat) (g : Seg) (ea : Qword) (n : Nat) (a : ASize) (v : Qword) (hn : n ≤ 8)
    (h : access s j g ea n a = .ok v) : v.toNat < 256 ^ n := by
  unfold access at h
  split at h
  · exact fit_ok_lt n _ v h
  · obtain ⟨bs, -, hl, rfl⟩ := mapAccess_ok _ _ _ _ _ h
    have := le_lt bs (by omega)
    rwa [hl, Nat.pow_mul] at this

theorem answer_ok_lt (f : Form) (o : Operands) (s : State) (j : Nat) (v : Qword)
    (h : answer f o s j = .ok v) : v.toNat < 2 ^ f.es := by
  rw [es_eq, Nat.pow_mul]
  exact access_ok_lt _ _ _ _ _ _ v (elemBytes_le f) h

theorem and_ones_of_lt (v : Qword) (w : Nat) (h : v.toNat < 2 ^ w) :
    v &&& BitVec.ofNat 64 (2 ^ w - 1) = v := by
  apply BitVec.eq_of_getLsbD_eq
  intro i hi
  simp only [BitVec.getLsbD_and, BitVec.getLsbD_ofNat, Nat.testBit_two_pow_sub_one, hi, decide_true,
    Bool.true_and]
  by_cases h1 : i < w
  · simp [h1]
  · have : v.toNat.testBit i = false :=
      Nat.testBit_lt_two_pow (Nat.lt_of_lt_of_le h (Nat.pow_le_pow_right (by omega) (by omega)))
    simp [h1, BitVec.getLsbD, this]

theorem elemValue_of_ok (f : Form) (o : Operands) (s : State) (j : Nat) (v : Qword)
    (h : answer f o s j = .ok v) : elemValue f o s j = v := by
  simp [elemValue, h]

theorem isOk_iff (f : Form) (o : Operands) (s : State) (j : Nat) :
    isOk f o s j = true ↔ ∃ v, answer f o s j = .ok v := by
  unfold isOk
  split
  · rename_i v h
    exact ⟨fun _ => ⟨v, h⟩, fun _ => rfl⟩
  · rename_i h
    simp only [Bool.false_eq_true, false_iff]
    rintro ⟨v, hv⟩
    exact h v hv

/-! ## Commit -/

/-- A commit changes the destination, the mask and the pending traps, nothing else. -/
theorem commit_frame (f : Form) (o : Operands) (done : List Nat) (zd zk : Bool) (s : State) :
    commit f o done zd zk s =
      { s with
        zmm := (commit f o done zd zk s).zmm
        k := (commit f o done zd zk s).k
        pendingTraps := (commit f o done zd zk s).pendingTraps } := rfl

theorem commit_pendingTraps (f : Form) (o : Operands) (done : List Nat) (zd zk : Bool) (s : State) :
    (commit f o done zd zk s).pendingTraps =
      Trap.union s.pendingTraps (dataTraps s (elemBytesOf f o s done)) := rfl

theorem commit_getZmm (f : Form) (o : Operands) (done : List Nat) (zd zk : Bool) (s : State) (r : BitVec 5) :
    (commit f o done zd zk s).getZmm r =
      if r = o.dest then
        (if zd then zeroFrom (writeElems f.es (elemValue f o s) done (s.getZmm o.dest)) f.dw
         else writeElems f.es (elemValue f o s) done (s.getZmm o.dest))
      else s.getZmm r := by
  exact getZmm_setZmm s o.dest r _

theorem commit_getMask (f : Form) (o : Operands) (done : List Nat) (zd zk : Bool) (s : State) (r : BitVec 3) :
    (commit f o done zd zk s).getMask r =
      if r = o.mask then
        (if zk then zeroMaskFrom (clearBits done (s.getMask o.mask)) f.kl
         else clearBits done (s.getMask o.mask))
      else s.getMask r := by
  exact getMask_setMask (s.setZmm o.dest _) o.mask r _

/-- An element of the destination after a commit of readable elements. -/
theorem commit_elem (f : Form) (o : Operands) (done : List Nat) (zd zk : Bool) (s : State) (j : Nat)
    (hj : j < f.kl) (hok : j ∈ done → isOk f o s j = true) :
    getField ((commit f o done zd zk s).getZmm o.dest) (f.es * j) f.es =
      if j ∈ done then elemValue f o s j else getField (s.getZmm o.dest) (f.es * j) f.es := by
  have hdw := elem_le_dw f j hj
  have h512 : f.es * j + f.es ≤ 512 := Nat.le_trans hdw (dw_le f)
  have hval : j ∈ done → elemValue f o s j &&& BitVec.ofNat 64 (2 ^ f.es - 1) = elemValue f o s j := by
    intro hd
    obtain ⟨v, hv⟩ := (isOk_iff f o s j).1 (hok hd)
    rw [elemValue_of_ok f o s j v hv]
    exact and_ones_of_lt v f.es (answer_ok_lt f o s j v hv)
  rw [commit_getZmm, if_pos rfl]
  have key : getField (writeElems f.es (elemValue f o s) done (s.getZmm o.dest)) (f.es * j) f.es =
      if j ∈ done then elemValue f o s j else getField (s.getZmm o.dest) (f.es * j) f.es := by
    rw [getField_writeElems f.es (es_pos f) (es_le f) _ _ _ _ h512]
    by_cases hd : j ∈ done
    · rw [if_pos hd, if_pos hd, hval hd]
    · rw [if_neg hd, if_neg hd]
  cases zd
  · exact key
  · rw [if_pos rfl, getField_zeroFrom _ _ _ _ hdw, key]

/-- A bit of the destination at or above `DW` after a commit. -/
theorem commit_upper (f : Form) (o : Operands) (done : List Nat) (zd zk : Bool) (s : State) (i : Nat)
    (hi : f.dw ≤ i) (hdone : ∀ j ∈ done, j < f.kl) :
    ((commit f o done zd zk s).getZmm o.dest).getLsbD i = (!zd && (s.getZmm o.dest).getLsbD i) := by
  have hnot : i / f.es ∉ done := by
    intro h
    have h1 := hdone _ h
    have h2 : f.kl ≤ i / f.es := (Nat.le_div_iff_mul_le (es_pos f)).2 hi
    omega
  rw [commit_getZmm, if_pos rfl]
  cases zd
  · simp only [Bool.false_eq_true, if_false, Bool.not_false, Bool.true_and]
    rw [getLsbD_writeElems f.es (es_pos f) (es_le f), if_neg hnot]
    by_cases h : i < 512
    · simp [h]
    · simp [h, BitVec.getLsbD_of_ge (s.getZmm o.dest) i (by simpa using h)]
  · rw [if_pos rfl, getLsbD_zeroFrom]
    have : ¬ i < f.dw := by omega
    simp [this]

/-- A mask bit after a commit. -/
theorem commit_maskBit (f : Form) (o : Operands) (done : List Nat) (zd zk : Bool) (s : State) (i : Nat) :
    ((commit f o done zd zk s).getMask o.mask).getLsbD i =
      ((s.getMask o.mask).getLsbD i && decide (i ∉ done) && (!zk || decide (i < f.kl))) := by
  rw [commit_getMask, if_pos rfl]
  cases zk
  · simp [getLsbD_clearBits]
  · simp [getLsbD_clearBits, getLsbD_zeroMaskFrom]

/-- Committing every active element with the upper part zeroed leaves the mask zero. -/
theorem commit_active_mask (f : Form) (o : Operands) (zd : Bool) (s : State) :
    (commit f o (active f o s) zd true s).getMask o.mask = 0 := by
  apply BitVec.eq_of_getLsbD_eq
  intro i hi
  rw [commit_maskBit]
  have h0 : (0 : MaskWord).getLsbD i = false := by simp
  rw [h0]
  by_cases h1 : i < f.kl
  · by_cases h2 : (s.getMask o.mask).getLsbD i = true
    · have : i ∈ active f o s := (mem_active f o s i).2 ⟨h1, h2⟩
      simp [this]
    · simp [h2]
  · simp [h1]

/-! ## The outcomes -/

theorem firstFault_none_iff (f : Form) (o : Operands) (s : State) :
    firstFault f o s = none ↔
      ∀ j < f.kl, isActive o s j = true → ∀ e, answer f o s j ≠ .fault e := by
  unfold firstFault
  rw [List.findSome?_eq_none_iff]
  constructor
  · intro h j hj ha e he
    have := h j ((mem_active f o s j).2 ⟨hj, ha⟩)
    simp [he] at this
  · intro h j hj
    obtain ⟨h1, h2⟩ := (mem_active f o s j).1 hj
    split
    · rename_i e he
      exact absurd he (h j h1 h2 e)
    · rfl

theorem allReadable_iff (f : Form) (o : Operands) (s : State) :
    AllReadable f o s ↔ hitsSideEffect f o s = false ∧ firstFault f o s = none := by
  rw [firstFault_none_iff]
  unfold hitsSideEffect AllReadable
  constructor
  · intro h
    refine ⟨?_, fun j hj ha e he => ?_⟩
    · rw [List.any_eq_false]
      intro j hj
      obtain ⟨h1, h2⟩ := (mem_active f o s j).1 hj
      obtain ⟨v, hv⟩ := h j h1 h2
      simp [hv]
    · obtain ⟨v, hv⟩ := h j hj ha
      rw [hv] at he
      cases he
  · rintro ⟨h1, h2⟩ j hj ha
    rw [List.any_eq_false] at h1
    have h3 := h1 j ((mem_active f o s j).2 ⟨hj, ha⟩)
    cases h4 : answer f o s j with
    | ok v => exact ⟨v, rfl⟩
    | fault e => exact absurd h4 (h2 j hj ha e)
    | sideEffect => simp [h4] at h3

/-- `Ready` as one decidable conjunction. -/
theorem ready_iff (f : Form) (o : Operands) (s : State) :
    Ready f o s ↔
      s.rip.toNat + o.ilen ≤ spaceSize s ∧ asize o s ≠ .a16 ∧ s.osEnabled = true ∧ s.hasFeatures f = true ∧
        o.mask ≠ 0#3 ∧ o.dest ≠ o.index ∧ (s.mode64 = true ∨ lowRegs o = true) ∧ s.ts = false :=
  ⟨fun ⟨a, b, c, d, e, f, g, h⟩ => ⟨a, b, c, d, e, f, g, h⟩, fun ⟨a, b, c, d, e, f, g, h⟩ => ⟨a, b, c, d, e, f, g, h⟩⟩

/-- Nothing before execution stops a ready gather. -/
theorem gatherWith_begins (ch : Choices) (f : Form) (o : Operands) (s : State) (h : Ready f o s) :
    gatherWith ch f o s = gatherBody ch f o s := by
  have h1 : crossesTop s o.ilen = false := by
    simp only [crossesTop, decide_eq_false_iff_not]
    have := h.fits
    omega
  have h2 : udCondition f o s = false := by
    simp [udCondition, h.addressSize, h.enabled, h.features, h.notK0, h.distinct]
  have h3 : (!s.mode64 && !lowRegs o) = false := by
    rcases h.registers with h | h <;> simp [h]
  simp only [gatherWith, h1, h2, h3, h.notTs, Bool.false_eq_true, if_false]

/-- With no interrupt pending, a gather that has begun completes or is suspended. -/
theorem gatherBody_quiet (ch : Choices) (f : Form) (o : Operands) (s : State)
    (hi : s.interruptPending = false) :
    gatherBody ch f o s =
      if hitsSideEffect f o s then .refused .sideEffectingMemory
      else
        match firstFault f o s with
        | some (j0, e) => .next (suspended ch f o s j0 e)
        | none => .next (completed f o s) := by
  rw [gatherBody, hi]
  rfl

/-- R87: a ready gather whose active elements are all readable completes. -/
theorem gather_completes (f : Form) (o : Operands) (s : State) (h : Ready f o s)
    (hi : s.interruptPending = false) (hr : AllReadable f o s) :
    gather f o s = .next (completed f o s) := by
  obtain ⟨h1, h2⟩ := (allReadable_iff f o s).1 hr
  rw [gather, gatherWith_begins _ _ _ _ h, gatherBody_quiet _ _ _ _ hi, h1, h2]
  rfl

theorem firstFault_some (f : Form) (o : Operands) (s : State) (j0 : Nat) (e : AccessFault)
    (hff : FirstFault f o s j0 e) : firstFault f o s = some (j0, e) := by
  obtain ⟨h1, h2, h3, h4⟩ := hff
  unfold firstFault
  have key : ∀ n, j0 < n → (((List.range n).filter (isActive o s)).findSome? fun j =>
      match answer f o s j with
      | .fault e => some (j, e)
      | _ => none) = some (j0, e) := by
    intro n hn
    induction n with
    | zero => omega
    | succ n ih =>
      rw [List.range_succ, List.filter_append, List.findSome?_append]
      by_cases hlt : j0 < n
      · rw [ih hlt]
        rfl
      · have hn' : j0 = n := by omega
        subst hn'
        have hnone : (((List.range j0).filter (isActive o s)).findSome? fun j =>
            match answer f o s j with
            | .fault e => some (j, e)
            | _ => none) = none := by
          rw [List.findSome?_eq_none_iff]
          intro j hj
          simp only [List.mem_filter, List.mem_range] at hj
          obtain ⟨v, hv⟩ := h4 j hj.1 hj.2
          simp [hv]
        rw [hnone]
        simp [h2, h3]
  exact key f.kl h1

/-- R88, R92: a ready gather with a faulting element and no side-effecting one is suspended by the first fault, or ended by a
pending interrupt. -/
theorem gather_faults (f : Form) (o : Operands) (s : State) (j0 : Nat) (e : AccessFault)
    (h : Ready f o s) (hs : NoSideEffects f o s) (hff : FirstFault f o s j0 e) :
    gather f o s = .next
      (if s.interruptPending && (choicesOf f o s).interrupted then interrupted (choicesOf f o s) f o s
        else suspended (choicesOf f o s) f o s j0 e) := by
  have h1 : hitsSideEffect f o s = false := by
    unfold hitsSideEffect
    rw [List.any_eq_false]
    intro j hj
    obtain ⟨ha, hb⟩ := (mem_active f o s j).1 hj
    simp [hs j ha hb]
  rw [gather, gatherWith_begins _ _ _ _ h, gatherBody, h1, firstFault_some f o s j0 e hff]
  simp only [Bool.false_eq_true, if_false]
  split <;> rfl

/-- R88: with no interrupt pending it is suspended by the first fault. -/
theorem gather_suspends (f : Form) (o : Operands) (s : State) (j0 : Nat) (e : AccessFault)
    (h : Ready f o s) (hi : s.interruptPending = false) (hs : NoSideEffects f o s)
    (hff : FirstFault f o s j0 e) :
    gather f o s = .next (suspended (choicesOf f o s) f o s j0 e) := by
  rw [gather_faults f o s j0 e h hs hff, hi]
  rfl

/-- Everything an execution can do when it answers a next state (R85, R86, R87, R88, R92). -/
theorem gatherWith_cases (ch : Choices) (f : Form) (o : Operands) (s t : State)
    (h : gatherWith ch f o s = .next t) :
    (udCondition f o s = true ∧ t = takeEvent .invalidOpcode s) ∨
    (udCondition f o s = false ∧ s.ts = true ∧ t = takeEvent .deviceNotAvailable s) ∨
    (s.interruptPending = true ∧ t = interrupted ch f o s) ∨
    (∃ j0 e, firstFault f o s = some (j0, e) ∧ t = suspended ch f o s j0 e) ∨
    (AllReadable f o s ∧ t = completed f o (if s.interruptPending then s.tick else s)) := by
  unfold gatherWith at h
  split at h
  · cases h
  · split at h
    · rename_i h1
      simp only [Host.Outcome.next.injEq] at h
      exact .inl ⟨h1, h.symm⟩
    · rename_i h1
      split at h
      · cases h
      · split at h
        · rename_i h2
          simp only [Host.Outcome.next.injEq] at h
          exact .inr (.inl ⟨by simpa using h1, h2, h.symm⟩)
        · unfold gatherBody at h
          split at h
          · cases h
          · rename_i h3
            split at h
            · rename_i h4
              simp only [Host.Outcome.next.injEq] at h
              simp only [Bool.and_eq_true] at h4
              exact .inr (.inr (.inl ⟨h4.1, h.symm⟩))
            · split at h
              · rename_i j0 e h5
                simp only [Host.Outcome.next.injEq] at h
                exact .inr (.inr (.inr (.inl ⟨j0, e, h5, h.symm⟩)))
              · rename_i h5
                simp only [Host.Outcome.next.injEq] at h
                exact .inr (.inr (.inr (.inr ⟨(allReadable_iff f o s).2 ⟨by simpa using h3, h5⟩, h.symm⟩)))

end Sys2Proof.Laws
end

