-- ==== Sys2Proof/Laws/Memory.lean ====
section
/-! SUPPORT. The laws of memory: read after write, read after erase, and that every operation keeps the canonical
form. -/

namespace Sys2Proof.Laws

open Sys2Proof.Machine

theorem read_write (m : List Host.Cell) (x y : Nat) (v : Byte) :
    Memory.read (Memory.write m x v) y = if y = x then some v else Memory.read m y := by
  induction m with
  | nil => simp [Memory.write, Memory.read]
  | cons c m ih =>
    obtain ⟨a, b⟩ := c
    simp only [Memory.write]
    split
    · simp [Memory.read]
    · split
      · rename_i h
        subst h
        simp only [Memory.read]
        split <;> rfl
      · rename_i h1 h2
        simp only [Memory.read, ih]
        by_cases h3 : y = a
        · have : y ≠ x := fun h => h2 (by omega)
          simp [h3, show ¬ a = x from fun h => h2 h.symm]
        · simp [h3]

@[simp] theorem read_write_same (m : List Host.Cell) (x : Nat) (v : Byte) :
    Memory.read (Memory.write m x v) x = some v := by simp [read_write]

theorem read_erase (m : List Host.Cell) (x y : Nat) :
    Memory.read (Memory.erase m x) y = if y = x then none else Memory.read m y := by
  induction m with
  | nil => simp [Memory.erase, Memory.read]
  | cons c m ih =>
    obtain ⟨a, b⟩ := c
    have ih' : Memory.read (List.filter (fun c => decide (c.1 ≠ x)) m) y =
        if y = x then none else Memory.read m y := ih
    simp only [Memory.erase, List.filter_cons]
    by_cases h : a = x
    · subst h
      simp only [ne_eq, not_true, decide_false, Bool.false_eq_true, if_false]
      rw [show (List.filter (fun c => decide ¬c.1 = a) m) = List.filter (fun c => decide (c.1 ≠ a)) m from rfl, ih']
      simp only [Memory.read]
      split <;> rfl
    · simp only [ne_eq, h, not_false_eq_true, decide_true, if_true, Memory.read]
      rw [show (List.filter (fun c => decide ¬c.1 = x) m) = List.filter (fun c => decide (c.1 ≠ x)) m from rfl, ih']
      by_cases h1 : y = a
      · have : y ≠ x := by omega
        simp [h1, h]
      · simp [h1]

theorem mem_write (m : List Host.Cell) (x : Nat) (v : Byte) (c : Host.Cell)
    (h : c ∈ Memory.write m x v) : c = (x, v) ∨ c ∈ m := by
  induction m with
  | nil => simpa [Memory.write] using h
  | cons d m ih =>
    obtain ⟨a, b⟩ := d
    simp only [Memory.write] at h
    split at h
    · simpa using h
    · split at h
      · rename_i h1
        subst h1
        rcases List.mem_cons.1 h with h | h
        · exact .inl h
        · exact .inr (List.mem_cons_of_mem _ h)
      · rcases List.mem_cons.1 h with h | h
        · exact .inr (h ▸ List.mem_cons_self)
        · exact (ih h).imp_right (List.mem_cons_of_mem _)

/-- Writing keeps the canonical form. -/
theorem wf_write (m : List Host.Cell) (x : Nat) (v : Byte) (hx : x < 2 ^ 64) (hm : Memory.wf m) :
    Memory.wf (Memory.write m x v) := by
  obtain ⟨hp, hb⟩ := hm
  refine ⟨?_, fun c hc => ?_⟩
  · induction m with
    | nil => simp [Memory.write]
    | cons d m ih =>
      obtain ⟨a, b⟩ := d
      have hd := List.pairwise_cons.1 hp
      simp only [Memory.write]
      split
      · rename_i h
        refine List.pairwise_cons.2 ⟨fun c hc => ?_, hp⟩
        rcases List.mem_cons.1 hc with h1 | h1
        · subst h1
          exact h
        · exact Nat.lt_trans h (hd.1 c h1)
      · split
        · rename_i h
          exact List.pairwise_cons.2 ⟨hd.1, hd.2⟩
        · rename_i h1 h2
          refine List.pairwise_cons.2 ⟨fun c hc => ?_, ih hd.2 fun c hc => hb c (List.mem_cons_of_mem _ hc)⟩
          rcases mem_write m x v c hc with h | h
          · subst h
            show a < x
            omega
          · exact hd.1 c h
  · rcases mem_write m x v c hc with h | h
    · subst h
      exact hx
    · exact hb c h

/-- Erasing keeps the canonical form. -/
theorem wf_erase (m : List Host.Cell) (x : Nat) (hm : Memory.wf m) : Memory.wf (Memory.erase m x) :=
  ⟨hm.1.filter _, fun c hc => hm.2 c (List.mem_filter.1 hc).1⟩

end Sys2Proof.Laws
end

