-- ==== Sys2Proof/Laws/Ops.lean ====
section
/-! SUPPORT. What each shared operation can do, said once: events, pending events, handlers' edits, fetch, and what the
oracle's answers depend on. -/

namespace Sys2Proof.Laws

open Sys2Proof.Machine

/-! ## Flags -/

theorem getLsbD_withRf (fl : Qword) (b : Bool) (i : Nat) :
    (withRf fl b).getLsbD i = if i = rfBit then b else fl.getLsbD i := by
  by_cases h : i = rfBit
  · subst h
    cases b
    · simp [withRf, rfBit]
    · simp [withRf, rfBit]
  · rw [if_neg h]
    have h1 : i < 16 ∨ ¬ (i - 16 = 0) := by
      simp only [rfBit] at h
      omega
    cases b
    · simp only [withRf, rfBit, Bool.false_eq_true, if_false, BitVec.getLsbD_and, BitVec.getLsbD_not,
        BitVec.getLsbD_shiftLeft]
      by_cases h2 : i < 64
      · rcases h1 with h1 | h1 <;> simp [h1, h2]
      · simp [h2, BitVec.getLsbD_of_ge fl i (by omega)]
    · simp only [withRf, rfBit, if_true, BitVec.getLsbD_or, BitVec.getLsbD_shiftLeft]
      rcases h1 with h1 | h1 <;> simp [h1]

@[simp] theorem withRf_rf (fl : Qword) (b : Bool) : (withRf fl b).getLsbD rfBit = b := by
  rw [getLsbD_withRf, if_pos rfl]

/-! ## Events -/

/-- Every event delivers something 60 R120 allows. -/
theorem takeEvent_legal (ev : Event) (s : State) (d : Delivery) (h : (takeEvent ev s).delivered = some d) :
    d.legal = true := by
  simp only [takeEvent_delivered, Option.some.injEq] at h
  subst h
  cases ev with
  | elementFault f ea e => cases e <;> rfl
  | _ => rfl

/-! ## Pending events -/

theorem pick_mem (n : Nat) (ps : List Pending) (h : ps ≠ []) : pick n ps ∈ ps := by
  have hl : 0 < ps.length := List.length_pos_iff.2 h
  have hlt : n % ps.length < ps.length := Nat.mod_lt _ hl
  rw [pick, List.getD_eq_getElem?_getD, List.getElem?_eq_getElem hlt]
  exact List.getElem_mem hlt

theorem trap_mem_pendings (s : State) (t : Trap) : Pending.trap t ∈ pendings s ↔ t ∈ s.pendingTraps := by
  simp only [pendings, List.mem_append, List.mem_map, Pending.trap.injEq, exists_eq_right]
  constructor
  · rintro (h | h)
    · exact h
    · split at h <;> simp at h
  · exact .inl

theorem interrupt_mem_pendings (s : State) : Pending.interrupt ∈ pendings s ↔ s.interruptPending = true := by
  simp only [pendings, List.mem_append, List.mem_map]
  constructor
  · rintro (⟨_, _, h⟩ | h)
    · cases h
    · split at h
      · assumption
      · simp at h
  · intro h
    simp [h]

/-- Everything the delivery of a pending event changes. -/
theorem deliverPending_frame (l : Bool) (p : Pending) (s : State) :
    deliverPending l p s =
      { s with
        cr2 := (deliverPending l p s).cr2
        dr6 := (deliverPending l p s).dr6
        pendingTraps := (deliverPending l p s).pendingTraps
        interruptPending := (deliverPending l p s).interruptPending
        delivered := (deliverPending l p s).delivered } := by
  cases p <;> rfl

theorem union_nodup (a b : List Trap) (ha : a.Nodup) (hb : b.Nodup) : (Trap.union a b).Nodup := by
  unfold Trap.union
  rw [List.nodup_append]
  refine ⟨ha, hb.filter _, fun x hx y hy h => ?_⟩
  subst h
  simp [hx] at hy

theorem dataTraps_nodup (s : State) (las : List Qword) : (dataTraps s las).Nodup := by
  unfold dataTraps
  refine List.Nodup.map (fun a b h => by simpa using h) (List.Nodup.filter _ (by decide))

@[simp] theorem union_nil (a : List Trap) : Trap.union a [] = a := by simp [Trap.union]

/-- With no data breakpoint matching, no read makes a trap pending. -/
theorem dataTraps_of_noMatch (s : State) (las : List Qword) (h : ∀ n la, dataMatch s n la = false) :
    dataTraps s las = [] := by
  simp [dataTraps, h]

theorem mem_dataTraps (s : State) (las : List Qword) (x : Trap) :
    x ∈ dataTraps s las ↔ ∃ n, x = .breakpoint n ∧ ∃ la ∈ las, dataMatch s n la = true := by
  have hall : ∀ n : Fin 4, n ∈ allBreakpoints := by decide
  simp only [dataTraps, List.mem_map, List.mem_filter, List.any_eq_true]
  constructor
  · rintro ⟨n, ⟨-, la, hla, hm⟩, rfl⟩
    exact ⟨n, rfl, la, hla, hm⟩
  · rintro ⟨n, rfl, la, hla, hm⟩
    exact ⟨n, ⟨hall n, la, hla, hm⟩, rfl⟩

/-- R20: a commit adds the traps that the elements done set. -/
theorem commit_trapsAdded (f : Form) (o : Operands) (done : List Nat) (zd zk : Bool) (s : State) :
    TrapsAdded f o done s (commit f o done zd zk s).pendingTraps := by
  refine ⟨_, commit_pendingTraps f o done zd zk s, (dataTraps_nodup _ _).filter _, fun x => ?_⟩
  have h : x ∈ dataTraps s (elemBytesOf f o s done) ↔ SetsTrap f o s done x := by
    rw [mem_dataTraps]
    simp [SetsTrap, elemBytesOf]
  simp [h, and_comm]

@[simp] theorem dataTraps_nil (s : State) : dataTraps s [] = [] := by simp [dataTraps]

/-! ## Suspended and interrupted executions -/

/-- The elements a suspended execution completes: `Right`, then the chosen `Left`. -/
theorem mem_suspended_done (ch : Choices) (f : Form) (o : Operands) (s : State) (j0 j : Nat) :
    j ∈ rightOf f o s j0 ++ leftOf ch f o s j0 ↔
      (j < f.kl ∧ isActive o s j = true) ∧
        (j < j0 ∨ (j0 < j ∧ isOk f o s j = true ∧ ch.left.getLsbD j = true)) := by
  simp only [rightOf, leftOf, List.mem_append, List.mem_filter, mem_active, decide_eq_true_eq, Bool.and_eq_true]
  constructor
  · rintro (⟨h1, h2⟩ | ⟨h1, ⟨h2, h3⟩, h4⟩)
    · exact ⟨h1, .inl h2⟩
    · exact ⟨h1, .inr ⟨h2, h3, h4⟩⟩
  · rintro ⟨h1, h2 | ⟨h2, h3, h4⟩⟩
    · exact .inl ⟨h1, h2⟩
    · exact .inr ⟨h1, ⟨h2, h3⟩, h4⟩

/-- What a suspended execution delivers: the fault, or something pending in lieu of it. -/
theorem suspended_cases (ch : Choices) (f : Form) (o : Operands) (s : State) (j0 : Nat) (e : AccessFault) :
    let done := rightOf f o s j0 ++ leftOf ch f o s j0
    let t := commit f o done ch.zd ch.zk s.tick
    ((done = [] ∨ pendings t = []) ∧
      suspended ch f o s j0 e = takeEvent (.elementFault j0 (effectiveAddress f o s j0) e) t) ∨
    (done ≠ [] ∧ pick ch.pick (pendings t) ∈ pendings t ∧
      suspended ch f o s j0 e = deliverPending true (pick ch.pick (pendings t)) t) := by
  intro done t
  by_cases h : (done.isEmpty || (pendings t).isEmpty) = true
  · refine .inl ⟨by simpa using h, ?_⟩
    show (if (done.isEmpty || (pendings t).isEmpty) = true then _ else _) = _
    rw [if_pos h]
  · refine .inr ⟨?_, pick_mem _ _ ?_, ?_⟩
    · intro h1
      simp [h1] at h
    · intro h1
      simp [h1] at h
    · show (if (done.isEmpty || (pendings t).isEmpty) = true then _ else _) = _
      rw [if_neg h]

/-- With nothing pending and no data breakpoint that matches, what is delivered is the fault. -/
theorem suspended_fault (ch : Choices) (f : Form) (o : Operands) (s : State) (j0 : Nat) (e : AccessFault)
    (hp : pendings s = []) (hm : ∀ n la, dataMatch s n la = false) :
    suspended ch f o s j0 e = takeEvent (.elementFault j0 (effectiveAddress f o s j0) e)
      (commit f o (rightOf f o s j0 ++ leftOf ch f o s j0) ch.zd ch.zk s.tick) := by
  rcases suspended_cases ch f o s j0 e with ⟨-, h⟩ | ⟨-, h, -⟩
  · exact h
  · have h1 : pendings (commit f o (rightOf f o s j0 ++ leftOf ch f o s j0) ch.zd ch.zk s.tick) = pendings s := by
      unfold pendings
      rw [commit_pendingTraps, dataTraps_of_noMatch s.tick _ hm, union_nil]
      rfl
    rw [h1, hp] at h
    cases h

/-- With one thing pending, no data breakpoint that matches and an element done, that is what is delivered. -/
theorem suspended_pending (ch : Choices) (f : Form) (o : Operands) (s : State) (j0 : Nat) (e : AccessFault) (p : Pending)
    (hr : rightOf f o s j0 ≠ []) (hp : pendings s = [p]) (hm : ∀ n la, dataMatch s n la = false) :
    suspended ch f o s j0 e = deliverPending true p
      (commit f o (rightOf f o s j0 ++ leftOf ch f o s j0) ch.zd ch.zk s.tick) := by
  have h1 : pendings (commit f o (rightOf f o s j0 ++ leftOf ch f o s j0) ch.zd ch.zk s.tick) = [p] := by
    unfold pendings
    rw [commit_pendingTraps, dataTraps_of_noMatch s.tick _ hm, union_nil]
    exact hp
  rcases suspended_cases ch f o s j0 e with ⟨h | h, -⟩ | ⟨-, h2, h3⟩
  · exact absurd (List.append_eq_nil_iff.1 h).1 hr
  · rw [h1] at h
    cases h
  · rw [h3]
    rw [h1] at h2 ⊢
    rw [List.mem_singleton.1 h2]

/-- Everything a suspended execution leaves unchanged, and where its registers come from. -/
theorem suspended_frame (ch : Choices) (f : Form) (o : Operands) (s : State) (j0 : Nat) (e : AccessFault) :
    suspended ch f o s j0 e =
      { commit f o (rightOf f o s j0 ++ leftOf ch f o s j0) ch.zd ch.zk s.tick with
        cr2 := (suspended ch f o s j0 e).cr2
        dr6 := (suspended ch f o s j0 e).dr6
        pendingTraps := (suspended ch f o s j0 e).pendingTraps
        interruptPending := (suspended ch f o s j0 e).interruptPending
        delivered := (suspended ch f o s j0 e).delivered } := by
  rcases suspended_cases ch f o s j0 e with ⟨-, h⟩ | ⟨-, -, h⟩
  · rw [h]
    rfl
  · rw [h]
    exact deliverPending_frame _ _ _

/-- Whatever is delivered when a gather is suspended saves the gather's address and a flags image with RF set; it is the
fault, a debug exception or an interrupt. -/
theorem suspended_delivered (ch : Choices) (f : Form) (o : Operands) (s : State) (j0 : Nat) (e : AccessFault) :
    ∃ d, (suspended ch f o s j0 e).delivered = some d ∧ d.savedRip = s.rip ∧
      d.savedFlags = withRf s.eflags true ∧
      (d = faultRecord s e.exc (some e.errorCode) (some ⟨j0, effectiveAddress f o s j0⟩) ∨
        (rightOf f o s j0 ++ leftOf ch f o s j0 ≠ [] ∧ d.errorCode = none ∧ d.element = none ∧
          (d.kind = .exception .db ∨ d.kind = .interrupt ∧ s.interruptPending = true))) := by
  rcases suspended_cases ch f o s j0 e with ⟨-, h⟩ | ⟨h1, h2, h⟩
  · exact ⟨_, congrArg State.delivered h, rfl, rfl, .inl rfl⟩
  · rw [h]
    generalize hp : pick ch.pick _ = p at h2 ⊢
    cases p with
    | trap x => exact ⟨_, rfl, rfl, rfl, .inr ⟨h1, rfl, rfl, .inl rfl⟩⟩
    | interrupt =>
      have h3 := (interrupt_mem_pendings _).1 h2
      exact ⟨_, rfl, rfl, rfl, .inr ⟨h1, rfl, rfl, .inr ⟨rfl, h3⟩⟩⟩

/-! ## Handlers -/

/-- Everything an edit leaves unchanged. -/
theorem applyEdit_frame (s : State) (e : HandlerEdit) :
    applyEdit s e =
      { s with
        mem := (applyEdit s e).mem
        changed := (applyEdit s e).changed
        zmm := (applyEdit s e).zmm
        k := (applyEdit s e).k
        gpr := (applyEdit s e).gpr
        regions := (applyEdit s e).regions
        cr0 := (applyEdit s e).cr0
        cr4 := (applyEdit s e).cr4
        xcr0 := (applyEdit s e).xcr0
        dr := (applyEdit s e).dr
        dr7 := (applyEdit s e).dr7
        interruptPending := (applyEdit s e).interruptPending
        delivered := (applyEdit s e).delivered } := by
  cases e <;> rfl

/-! ## Bytes read -/

/-- Byte `i` of a value is the `i`-th byte read (20 R31). -/
theorem le_byte (bs : List Byte) (i : Nat) (hi : i < bs.length) (hl : bs.length ≤ 8) :
    (le bs).extractLsb' (8*i) 8 = bs[i] := by
  induction bs generalizing i with
  | nil => simp at hi
  | cons b bs ih =>
    apply BitVec.eq_of_getLsbD_eq
    intro k hk
    rw [BitVec.getLsbD_extractLsb']
    simp only [List.length_cons] at hi hl
    rcases i with _ | i
    · simp [le, hk, BitVec.getLsbD_setWidth]
      intro h; omega
    · have := ih i (by omega) (by omega)
      have h2 := congrArg (fun v => v.getLsbD k) this
      rw [BitVec.getLsbD_extractLsb'] at h2
      simp only [hk, decide_true, Bool.true_and] at h2
      simp only [le, hk, decide_true, Bool.true_and, BitVec.getLsbD_or, BitVec.getLsbD_setWidth, BitVec.getLsbD_shiftLeft, List.getElem_cons_succ]
      rw [← h2]
      have e1 : 8 * (i+1) + k < 64 := by omega
      have e2 : ¬ 8 * (i+1) + k < 8 := by omega
      have e3 : 8 * (i+1) + k - 8 = 8 * i + k := by omega
      rw [e3]
      simp [e1, e2, BitVec.getLsbD_of_ge b (8*(i+1)+k) (by omega)]

/-- A successful read of several bytes read each of them. -/
theorem readBytes_get (s : State) (las : List Qword) (bs : List Byte) (h : readBytes s las = .ok bs) (i : Nat)
    (hi : i < las.length) (hi' : i < bs.length) : readByte s las[i] = .ok bs[i] := by
  induction las generalizing bs i with
  | nil => simp at hi
  | cons la las ih =>
    simp only [readBytes] at h
    split at h
    · cases h
    · rename_i b hb
      split at h
      · cases h
      · rename_i bs' h1
        simp only [Except.ok.injEq] at h
        subst h
        rcases i with _ | i
        · exact hb
        · exact ih _ h1 i (by simpa using hi) (by simpa using hi')

/-- A byte that was read is the byte of memory. -/
theorem readByte_ok (s : State) (la : Qword) (b : Byte) (h : readByte s la = .ok b) :
    Memory.read s.mem la.toNat = some b := by
  unfold readByte at h
  split at h
  · cases h
  · split at h
    · cases h
    · rename_i b' hb
      split at h
      · cases h
      · simp only [Except.ok.injEq] at h
        rw [hb, h]

/-! ## What the oracle's answers depend on -/

/-- Two states that agree on everything address generation and the oracle read (10 R23). -/
structure SameAccess (s s' : State) : Prop where
  oracle : s.oracle = s'.oracle
  clock : s.clock = s'.clock
  mem : s.mem = s'.mem
  regions : s.regions = s'.regions
  segs : s.segs = s'.segs
  efer : s.efer = s'.efer
  csL : s.csL = s'.csL
  csD : s.csD = s'.csD
  cpl : s.cpl = s'.cpl

theorem SameAccess.codeSize {s s' : State} (h : SameAccess s s') : s.codeSize = s'.codeSize := by
  simp [State.codeSize, State.lma, h.efer, h.csL, h.csD]

theorem SameAccess.mode64 {s s' : State} (h : SameAccess s s') : s.mode64 = s'.mode64 := by
  simp [State.mode64, h.codeSize]

theorem SameAccess.linear {s s' : State} (h : SameAccess s s') (g : Seg) (ea : Qword) (i : Nat) :
    Machine.linear s g ea i = Machine.linear s' g ea i := by
  simp [Machine.linear, truncW, segBase, State.getSeg, h.mode64, h.segs]

theorem SameAccess.readByte {s s' : State} (h : SameAccess s s') (la : Qword) :
    Machine.readByte s la = Machine.readByte s' la := by
  simp [Machine.readByte, regionFault, pfCode, State.inRegion, h.mem, h.regions, h.cpl]

theorem SameAccess.readBytes {s s' : State} (h : SameAccess s s') (las : List Qword) :
    Machine.readBytes s las = Machine.readBytes s' las := by
  induction las with
  | nil => rfl
  | cons la las ih => simp only [Machine.readBytes, h.readByte, ih]

theorem SameAccess.mapAccess {s s' : State} (h : SameAccess s s') (g : Seg) (ea : Qword) (n : Nat) :
    mapAccess s g ea n = mapAccess s' g ea n := by
  have hl : Machine.linear s g ea = Machine.linear s' g ea := funext (h.linear g ea)
  have hs : segmentFault s g ea n = segmentFault s' g ea n := by
    simp only [segmentFault, State.getSeg, h.mode64, h.segs, hl]
    rfl
  have hr : regionFault s true = regionFault s' true := by
    funext la
    simp [regionFault, h.regions]
  simp only [Machine.mapAccess, State.inRegion, hs, hl, hr, h.readBytes, h.regions]
  rfl

/-- The oracle answers alike in two such states. -/
theorem SameAccess.access {s s' : State} (h : SameAccess s s') (j : Nat) (g : Seg) (ea : Qword) (n : Nat) (a : ASize) :
    access s j g ea n a = access s' j g ea n a := by
  simp only [Machine.access, h.oracle, h.clock, h.mapAccess]

theorem SameAccess.segOf {s s' : State} (h : SameAccess s s') (o : Operands) : segOf o s = segOf o s' := by
  simp [Machine.segOf, h.mode64]

theorem SameAccess.asize {s s' : State} (h : SameAccess s s') (o : Operands) : asize o s = asize o s' := by
  simp [Machine.asize, h.codeSize]

/-- An element's answer depends on the oracle's data, the base register and that index element. -/
theorem answer_congr {s s' : State} (h : SameAccess s s') (f : Form) (o : Operands) (j : Nat)
    (hg : truncA (asize o s) (baseValue o s) = truncA (asize o s) (baseValue o s'))
    (hi : truncA (asize o s) (indexElem o s j) = truncA (asize o s) (indexElem o s' j)) :
    answer f o s j = answer f o s' j ∧ effectiveAddress f o s j = effectiveAddress f o s' j := by
  have he : effectiveAddress f o s j = effectiveAddress f o s' j := by
    simp only [effectiveAddress, ← h.asize o, hg, hi]
  exact ⟨by rw [answer, answer, he, h.segOf, h.asize, h.access], he⟩

end Sys2Proof.Laws
end

