-- ==== Sys2Proof/Laws/Cycle.lean ====
section
/-! SUPPORT. What a step can do, said once, and the placing of an instruction. -/

namespace Sys2Proof.Laws

open Sys2Proof.Machine

theorem endingHandler_some (s : State) (fr : Frame) (h : endingHandler s = some fr) :
    s.outer.head? = some fr ∧ s.rip = fr.stop := by
  simpa [endingHandler, Option.filter_eq_some_iff] using h

theorem endingHandler_none (s : State) :
    endingHandler s = none ↔ ∀ fr, s.outer.head? = some fr → s.rip ≠ fr.stop := by
  simp [endingHandler, Option.filter_eq_none_iff]

/-- Nothing of a byte has changed iff the check finds none. -/
theorem textChanged_eq_false (s : State) (n : Nat) :
    textChanged s n = false ↔ ∀ k < n, (linear s .cs s.rip k).toNat ∉ s.changed := by
  simp [textChanged]

/-- What running at an instruction answers when it answers a next state. -/
theorem atInstruction_next (s t : State) (n : Nat) (run : Host.Outcome State Fault Refusal)
    (h : atInstruction s n run = .next t) :
    textChanged s n = false ∧
      (instrBreakpoints s ≠ [] ∧ t = takeEvent (.instructionBreakpoint (instrBreakpoints s)) s ∨
        instrBreakpoints s = [] ∧ run = .next t) := by
  unfold atInstruction at h
  split at h
  · cases h
  · rename_i h1
    refine ⟨by simpa using h1, ?_⟩
    unfold withBreakpoints at h
    split at h
    · rename_i hb
      exact .inr ⟨hb, h⟩
    · rename_i hb
      simp only [Host.Outcome.next.injEq] at h
      exact .inl ⟨by simpa using hb, h.symm⟩

/-- Everything a step at `rip` does when it answers a next state. -/
theorem runAtRip_cases (s t : State) (h : runAtRip s = .next t) :
    (instrBreakpoints s ≠ [] ∧ t = takeEvent (.instructionBreakpoint (instrBreakpoints s)) s) ∨
    (instrBreakpoints s = [] ∧ t = takeEvent .invalidOpcode s) ∨
    (∃ i rest u, instrBreakpoints s = [] ∧ decode s.codeSize (fetchBytes s) = .instr i rest ∧
      exec i s = .next u ∧ t = if u.delivered.isNone then afterCompletion s u else u) := by
  unfold runAtRip at h
  split at h
  · rename_i i rest hd
    obtain ⟨-, ⟨hb, ht⟩ | ⟨hb, hr⟩⟩ := atInstruction_next _ _ _ _ h
    · exact .inl ⟨hb, ht⟩
    · unfold execute at hr
      split at hr
      · rename_i u hu
        simp only [Host.Outcome.next.injEq] at hr
        exact .inr (.inr ⟨i, rest, u, hb, hd, hu, hr.symm⟩)
      · cases hr
      · cases hr
  · unfold takeUd at h
    split at h
    · cases h
    · obtain ⟨-, ⟨hb, ht⟩ | ⟨hb, hr⟩⟩ := atInstruction_next _ _ _ _ h
      · exact .inl ⟨hb, ht⟩
      · simp only [Host.Outcome.next.injEq] at hr
        exact .inr (.inl ⟨hb, hr.symm⟩)
  · cases h
  · cases h
  · cases h
  · unfold truncatedFetch at h
    repeat' split at h
    all_goals cases h

/-- Everything a step does when it answers a next state; the clock aside. -/
theorem step_cases (s t : State) (h : step s = .next t) : ∃ t', t = t'.tock ∧
    ((∃ d r hs u d', s.delivered = some d ∧ s.handlers = r :: hs ∧
      applyEdits { s with handlers := hs } r.edits = some u ∧ u.delivered = some d' ∧
      t' = leaveHandler r.exit d' u) ∨
    (s.delivered = none ∧ s.pendingTraps ≠ [] ∧ t' = deliverBetween s) ∨
    (∃ fr, s.delivered = none ∧ s.pendingTraps = [] ∧ endingHandler s = some fr ∧ t' = resumeHandler fr s) ∨
    (s.delivered = none ∧ s.pendingTraps = [] ∧ endingHandler s = none ∧
      (instrBreakpoints s ≠ [] ∧ t' = takeEvent (.instructionBreakpoint (instrBreakpoints s)) s ∨
      instrBreakpoints s = [] ∧ t' = takeEvent .invalidOpcode s ∨
      ∃ i rest u, instrBreakpoints s = [] ∧ decode s.codeSize (fetchBytes s) = .instr i rest ∧
        exec i s = .next u ∧ t' = if u.delivered.isNone then afterCompletion s u else u))) := by
  simp only [step, cycle] at h
  split at h
  · rename_i t' ha
    simp only [Host.Outcome.next.injEq] at h
    refine ⟨t', h.symm, ?_⟩
    unfold act at ha
    split at ha
    · rename_i h1
      obtain ⟨d, hd⟩ := Option.isSome_iff_exists.1 h1
      simp only [runHandler] at ha
      split at ha
      · cases ha
      · rename_i r hs hh
        split at ha
        · cases ha
        · rename_i u hu
          split at ha
          · cases ha
          · rename_i d' hd'
            simp only [Host.Outcome.next.injEq] at ha
            exact .inl ⟨d, r, hs, u, d', hd, hh, hu, hd', ha.symm⟩
    · rename_i h1
      have hn : s.delivered = none := by simpa using h1
      split at ha
      · rename_i h2
        have hp : s.pendingTraps = [] := by simpa using h2
        split at ha
        · rename_i fr hf
          simp only [Host.Outcome.next.injEq] at ha
          exact .inr (.inr (.inl ⟨fr, hn, hp, hf, ha.symm⟩))
        · rename_i hf
          exact .inr (.inr (.inr ⟨hn, hp, hf, runAtRip_cases s t' ha⟩))
      · rename_i h2
        simp only [Host.Outcome.next.injEq] at ha
        exact .inr (.inl ⟨hn, by simpa using h2, ha.symm⟩)
  · cases h
  · cases h

/-- Where a step looks at `rip`, it runs what stands there. -/
theorem act_of_looksAtRip (s : State) (h : LooksAtRip s) : act s = runAtRip s := by
  simp [act, h.quiet, h.noTrap, (endingHandler_none s).2 h.notEnding]

theorem textChanged_of_fetchesHere (s : State) (n : Nat) (h : FetchesHere s n) : textChanged s n = false :=
  (textChanged_eq_false s n).2 h.unchanged

/-- A decoded instruction whose bytes have not changed, with no breakpoint firing, is what it runs. -/
theorem act_of_decoded (s : State) (i : Instr) (rest : List Byte) (h : FetchesHere s i.ops.ilen)
    (hb : instrBreakpoints s = []) (hd : decode s.codeSize (fetchBytes s) = .instr i rest) :
    act s = execute i s := by
  rw [act_of_looksAtRip s h.toLooksAtRip]
  simp [runAtRip, hd, atInstruction, textChanged_of_fetchesHere s _ h, withBreakpoints, hb]

/-- What a step does with a handler run that may do its edits. -/
theorem step_handlerRun (s t : State) (d d' : Delivery) (r : HandlerRun) (hs : List HandlerRun)
    (hd : s.delivered = some d) (hh : s.handlers = r :: hs)
    (ht : applyEdits { s with handlers := hs } r.edits = some t) (hd' : t.delivered = some d') :
    step s = .next (leaveHandler r.exit d' t).tock := by
  have h1 : runHandler s = .next (leaveHandler r.exit d' t) := by simp only [runHandler, hh, ht, hd']
  have h2 : act s = runHandler s := by simp [act, hd]
  simp only [step, cycle, h2, h1]

/-- Placing bytes changes memory only. -/
theorem placeBytes_frame (s : State) (n : Nat) (bs : List Byte) :
    placeBytes s n bs = { s with mem := (placeBytes s n bs).mem } := by
  induction bs generalizing s n with
  | nil => rfl
  | cons b bs ih => rw [placeBytes, ih]

/-- Placing bytes keeps memory's canonical form. -/
theorem placeBytes_wf (s : State) (n : Nat) (bs : List Byte) (h : Memory.wf s.mem) :
    Memory.wf (placeBytes s n bs).mem := by
  induction bs generalizing s n with
  | nil => exact h
  | cons b bs ih => exact ih _ _ (wf_write _ _ _ (BitVec.isLt _) h)

/-- An edit keeps memory's canonical form. -/
theorem applyEdit_wf (s : State) (e : HandlerEdit) (h : Memory.wf s.mem) : Memory.wf (applyEdit s e).mem := by
  cases e with
  | mapByte la b => exact wf_write _ _ _ la.isLt h
  | unmapByte la => exact wf_erase _ _ h
  | _ => exact h

theorem applyEdits_wf (s t : State) (es : List HandlerEdit) (h : Memory.wf s.mem)
    (ht : applyEdits s es = some t) : Memory.wf t.mem := by
  induction es generalizing s with
  | nil =>
    simp only [applyEdits, Option.some.injEq] at ht
    exact ht ▸ h
  | cons e es ih =>
    simp only [applyEdits] at ht
    split at ht
    · cases ht
    · exact ih _ (applyEdit_wf s e h) ht

/-- Edits keep a recorded event's legality: they change its saved instruction pointer and flags only. -/
theorem applyEdits_legal (s t : State) (es : List HandlerEdit) (ht : applyEdits s es = some t)
    (h : ∀ d, s.delivered = some d → d.legal = true) : ∀ d, t.delivered = some d → d.legal = true := by
  induction es generalizing s with
  | nil =>
    simp only [applyEdits, Option.some.injEq] at ht
    exact ht ▸ h
  | cons e es ih =>
    simp only [applyEdits] at ht
    split at ht
    · cases ht
    · refine ih _ ht fun d hd => ?_
      cases e with
      | setSavedRip v =>
        obtain ⟨d', h1, rfl⟩ := Option.map_eq_some_iff.1 hd
        exact h d' h1
      | setSavedFlags v =>
        obtain ⟨d', h1, rfl⟩ := Option.map_eq_some_iff.1 hd
        exact h d' h1
      | _ => exact h d hd

/-- Edits neither handle nor forget an interrupted event. -/
theorem applyEdits_outer (s t : State) (es : List HandlerEdit) (ht : applyEdits s es = some t) :
    t.outer = s.outer ∧ t.pendingTraps = s.pendingTraps := by
  induction es generalizing s with
  | nil =>
    simp only [applyEdits, Option.some.injEq] at ht
    exact ht ▸ ⟨rfl, rfl⟩
  | cons e es ih =>
    simp only [applyEdits] at ht
    split at ht
    · cases ht
    · obtain ⟨h1, h2⟩ := ih _ ht
      rw [h1, h2]
      cases e <;> exact ⟨rfl, rfl⟩

theorem reset_mem_wf : Memory.wf State.reset.mem := by decide

end Sys2Proof.Laws
end

