-- ==== Sys2Proof/Laws/PerInstr.lean ====
section
/-! SUPPORT. Statements about every instruction as syntax, one lemma per constructor. -/

namespace Sys2Proof.Laws.EncodeLength

/-- An instruction's encoding has `np + 7 + nd` bytes (30 R50), and an encoding without prefixes begins with 62H. -/
def Statement (i : Instr) : Prop :=
  (encode i).length = i.ops.ilen ∧ (i.ops.prefixLength = 0 → (encode i).head? = some 0x62#8)

theorem prefixBytes_length (o : Operands) : o.prefixBytes.length = o.prefixLength := by
  obtain ⟨_, _, _, _, _, seg, a⟩ := o
  cases seg <;> cases a <;> rfl

theorem dispBytes_length (a : Addr) : a.dispBytes.length = a.dispLength := by
  rcases a with _ | ⟨_, _ | _ | _⟩ <;> rfl

theorem all (i : Instr) : Statement i := by
  refine ⟨?_, fun h => ?_⟩
  · simp [encode, Operands.ilen, prefixBytes_length, dispBytes_length]
    omega
  · have h1 : i.ops.prefixBytes = [] := List.length_eq_zero_iff.1 (by rw [prefixBytes_length, h])
    simp [encode, h1]

theorem vpgatherqdXmmVm64x (o : Operands) : Statement (.vpgatherqdXmmVm64x o) := all _

theorem vpgatherqdXmmVm64y (o : Operands) : Statement (.vpgatherqdXmmVm64y o) := all _

theorem vpgatherqdYmmVm64z (o : Operands) : Statement (.vpgatherqdYmmVm64z o) := all _

theorem vpgatherqqXmmVm64x (o : Operands) : Statement (.vpgatherqqXmmVm64x o) := all _

theorem vpgatherqqYmmVm64y (o : Operands) : Statement (.vpgatherqqYmmVm64y o) := all _

theorem vpgatherqqZmmVm64z (o : Operands) : Statement (.vpgatherqqZmmVm64z o) := all _

end Sys2Proof.Laws.EncodeLength
end

