-- ==== Sys2Proof/Tests/Slice0.lean ====
section
/-! SUPPORT. The model's own tests. Expected values are those of spec/95_test_vectors.md and of the worked examples in
spec/41 and spec/42. The second half has, for every obligation with hypotheses, a concrete state and operands
that meet them (`witness_<Name>`, one per clause where there are several). -/

namespace Sys2Proof.Tests

open Sys2Proof.Machine

set_option Elab.async false

/-! ## Well-formedness -/

/-- The operands of E1 (T3). -/
def opsE1 : Operands := ⟨1, 2, 1, .base 0 .absent, .x4, none, false⟩

/-- The operands of E4 (T3). -/
def opsE4 : Operands := ⟨1, 2, 1, .base 0 .absent, .x8, none, false⟩

theorem test_wf_accepts : (Instr.vpgatherqdXmmVm64x opsE1).wf = true := by decide

/-- R66 -/
theorem test_wf_refuses_k0 : (Instr.vpgatherqdXmmVm64y { opsE1 with mask := 0 }).wf = false := by decide

/-- R67 -/
theorem test_wf_refuses_dest_index : (Instr.vpgatherqqZmmVm64z { opsE1 with dest := 2 }).wf = false := by decide

/-- R60, R62: r13 without a displacement. -/
theorem test_wf_refuses_base : (Instr.vpgatherqqXmmVm64x { opsE1 with addr := .base 13 .absent }).wf = false := by
  decide

/-! ## Decoding: words written out from the spec (T3, T4) -/

/-- E1 bit by bit (R52 to R57): 62H; R X B R' 0 mmm; W vvvv 1 pp; z L'L b V' aaa; 91H; mod reg rm; ss index base. -/
theorem test_decode_E1 :
    decode .code64 [0b01100010#8, 0b11110010#8, 0b01111101#8, 0b00001001#8, 0b10010001#8, 0b00001100#8, 0b10010000#8] =
      .instr (.vpgatherqdXmmVm64x opsE1) [] := by decide

/-- E18 -/
theorem test_decode_E18 :
    decode .code64 [0x62#8, 0xF2#8, 0x7D#8, 0x29#8, 0x91#8, 0x8C#8, 0x10#8, 0x03#8, 0x00#8, 0x00#8, 0x00#8] =
      .instr (.vpgatherqdXmmVm64y ⟨1, 2, 1, .base 0 (.disp32 3), .x1, none, false⟩) [] := by decide

/-- E9 -/
theorem test_decode_E9 :
    decode .code64 [0x62#8, 0x52#8, 0x7D#8, 0x42#8, 0x91#8, 0x4C#8, 0xA4#8, 0xFF#8] =
      .instr (.vpgatherqdYmmVm64z ⟨9, 20, 2, .base 12 (.disp8 0xFF), .x4, none, false⟩) [] := by decide

/-- E8 -/
theorem test_decode_E8 :
    decode .code64 [0x62#8, 0x42#8, 0xFD#8, 0x05#8, 0x91#8, 0x7C#8, 0x07#8, 0x01#8] =
      .instr (.vpgatherqqXmmVm64x ⟨31, 16, 5, .base 15 (.disp8 1), .x1, none, false⟩) [] := by decide

/-- E5 -/
theorem test_decode_E5 :
    decode .code64 [0x62#8, 0xF2#8, 0xFD#8, 0x29#8, 0x91#8, 0x0C#8, 0xD0#8] =
      .instr (.vpgatherqqYmmVm64y opsE4) [] := by decide

/-- E7 bit by bit, as the spec takes it apart under T3. -/
theorem test_decode_E7 :
    decode .code64 [0b01100010#8, 0b10000010#8, 0b11111101#8, 0b01000111#8, 0b10010001#8, 0b01001100#8, 0b11110101#8,
        0b00001000#8] =
      .instr (.vpgatherqqZmmVm64z ⟨17, 30, 7, .base 13 (.disp8 8), .x8, none, false⟩) [] := by decide

/-- E11: no base register. -/
theorem test_decode_E11 :
    decode .code64 [0x62#8, 0xF2#8, 0xFD#8, 0x4B#8, 0x91#8, 0x1C#8, 0x25#8, 0x00#8, 0x10#8, 0x00#8, 0x00#8] =
      .instr (.vpgatherqqZmmVm64z ⟨3, 4, 3, .noBase 0x1000, .x1, none, false⟩) [] := by decide

/-- E14 and E15: the two allowed prefixes. -/
theorem test_decode_prefixes :
    decode .code64 [0x67#8, 0x62#8, 0xF2#8, 0xFD#8, 0x4B#8, 0x91#8, 0x1C#8, 0x60#8] =
        .instr (.vpgatherqqZmmVm64z ⟨3, 4, 3, .base 0 .absent, .x2, none, true⟩) [] ∧
      decode .code64 [0x64#8, 0x62#8, 0xF2#8, 0xFD#8, 0x4B#8, 0x91#8, 0x1C#8, 0x60#8] =
        .instr (.vpgatherqqZmmVm64z ⟨3, 4, 3, .base 0 .absent, .x2, some .fs, false⟩) [] := by decide

/-- N2, N3, N5 to N8, N11, N12 -/
theorem test_decode_ud :
    decode .code64 [0x62#8, 0xF2#8, 0x7D#8, 0x89#8, 0x91#8, 0x0C#8, 0x90#8] = .ud .zeroing 7 ∧
      decode .code64 [0x62#8, 0xF2#8, 0x7D#8, 0x19#8, 0x91#8, 0x0C#8, 0x90#8] = .ud .broadcast 7 ∧
      decode .code64 [0x62#8, 0xF2#8, 0x7D#8, 0x09#8, 0x91#8, 0xC8#8, 0x90#8] = .ud .noVsib 6 ∧
      decode .code64 [0x62#8, 0xF2#8, 0x7D#8, 0x09#8, 0x91#8, 0x08#8, 0x90#8] = .ud .noVsib 6 ∧
      decode .code64 [0x62#8, 0xF2#8, 0x75#8, 0x09#8, 0x91#8, 0x0C#8, 0x90#8] = .ud .vvvv 7 ∧
      decode .code64 [0x62#8, 0xF2#8, 0x7D#8, 0x69#8, 0x91#8, 0x0C#8, 0x90#8] = .ud .vectorLength 7 ∧
      decode .code64 [0x62#8, 0xFA#8, 0x7D#8, 0x09#8, 0x91#8, 0x0C#8, 0x90#8] = .ud .reservedP0 7 ∧
      decode .code64 [0x62#8, 0xF2#8, 0x79#8, 0x09#8, 0x91#8, 0x0C#8, 0x90#8] = .ud .reservedP1 7 := by decide

/-- N9, N10, N13, N16, N17 -/
theorem test_decode_prefix_and_mode :
    decode .code64 [0xF0#8, 0x62#8, 0xF2#8, 0x7D#8, 0x09#8, 0x91#8, 0x0C#8, 0x90#8] = .ud .lockPrefix 8 ∧
      decode .code64 [0x66#8, 0x62#8, 0xF2#8, 0x7D#8, 0x09#8, 0x91#8, 0x0C#8, 0x90#8] = .ud .mandatoryPrefix 8 ∧
      decode .code64 [0x48#8, 0x62#8, 0xF2#8, 0x7D#8, 0x09#8, 0x91#8, 0x0C#8, 0x90#8] = .ud .rexPrefix 8 ∧
      decode .code32 [0x67#8, 0x62#8, 0xF2#8, 0x7D#8, 0x09#8, 0x91#8, 0x0C#8, 0x90#8] = .ud .addressSize16 8 ∧
      decode .code32 [0x62#8, 0xF2#8, 0x7D#8, 0x01#8, 0x91#8, 0x0C#8, 0x90#8] = .mode32ExtensionBits := by decide

/-- N18 to N20, and D27's repeated prefix. -/
theorem test_decode_refused :
    decode .code64 [0x62#8, 0xF1#8, 0x7D#8, 0x09#8, 0x91#8, 0x0C#8, 0x90#8] = .notThisInstruction ∧
      decode .code64 [0x62#8, 0xF2#8, 0x7C#8, 0x09#8, 0x91#8, 0x0C#8, 0x90#8] = .notThisInstruction ∧
      decode .code64 [0x62#8, 0xF2#8, 0x7D#8, 0x09#8, 0x90#8, 0x0C#8, 0x90#8] = .notThisInstruction ∧
      decode .code64 [0x67#8, 0x67#8, 0x62#8, 0xF2#8, 0x7D#8, 0x09#8, 0x91#8, 0x0C#8, 0x90#8] = .repeatedPrefix := by
  decide

/-- 62H 00H in a 32-bit code segment, nothing after it: bits 7:6 are not 11b, so it is not EVEX (R52, R72); with 62H C0H more
bytes are needed. -/
theorem test_decode_not_evex :
    decode .code32 [0x62#8, 0x00#8] = .notThisInstruction ∧ decode .code32 [0x62#8, 0xC0#8] = .truncated ∧
      decode .code64 [0x62#8, 0x00#8] = .truncated := by decide

/-- N21, N22 -/
theorem test_decode_index :
    decode .code64 [0x62#8, 0xF2#8, 0x7D#8, 0x01#8, 0x91#8, 0x0C#8, 0x90#8] =
        .instr (.vpgatherqdXmmVm64x { opsE1 with index := 18 }) [] ∧
      decode .code64 [0x62#8, 0xF2#8, 0x7D#8, 0x09#8, 0x91#8, 0x0C#8, 0xA0#8] =
        .instr (.vpgatherqdXmmVm64x { opsE1 with index := 4 }) [] := by decide

/-- A word of the opcode table, 62H in its top byte, VSIB zero after it. -/
theorem test_decode_table_word :
    decodeTableWord 48 0x62F2FD49910C =
      some (.vpgatherqqZmmVm64z ⟨1, 0, 1, .base 0 .absent, .x1, none, false⟩) := by decide

/-! ## Executing: the worked examples and the vectors of T6 to T12 -/

/-- T-conventions: the byte `a mod 256` at every address from 1000H to 10FFH. -/
def memory : List Host.Cell := (List.range 256).map fun i => (0x1000 + i, BitVec.ofNat 8 i)

/-- A vector of qwords, element 0 first. -/
def vec (l : List Nat) : VecWord := BitVec.ofNat 512 (l.foldr (fun a r => r * 2 ^ 64 + a % 2 ^ 64) 0)

def ones : VecWord := BitVec.allOnes 512

/-- The launch state with that memory, one base register, destination of ones, indices and mask. -/
def start (o : Operands) (base : Qword) (indices : List Nat) (mask : MaskWord) : State :=
  let s := { State.reset with mem := memory }
  let s := match o.addr with
    | .base r _ => s.setGpr r base
    | .noBase _ => s
  ((s.setZmm o.dest ones).setZmm o.index (vec indices)).setMask o.mask mask

/-- Destination, mask and `rip` of a next state. -/
def result (o : Operands) : Host.Outcome State Fault Refusal → Option (VecWord × MaskWord × Qword)
  | .next t => some (t.getZmm o.dest, t.getMask o.mask, t.rip)
  | _ => none

/-- What a next state has delivered. -/
def deliveredOf : Host.Outcome State Fault Refusal → Option Delivery
  | .next t => t.delivered
  | _ => none

def cr2Of : Host.Outcome State Fault Refusal → Option Qword
  | .next t => some t.cr2
  | _ => none

/-- Is the outcome this next state? -/
def nextIs (out : Host.Outcome State Fault Refusal) (t : State) : Bool :=
  match out with
  | .next u => decide (u = t)
  | _ => false

def isNext : Host.Outcome State Fault Refusal → Bool
  | .next _ => true
  | _ => false

def exQd128 : State := start opsE1 0x1000 [1, 3] 3
def exQd256 : State := start opsE1 0x1000 [1, 3, 5, 7] 10
def exQd512 : State := start opsE1 0x1000 [0, 2, 4, 6, 8, 10, 12, 14] (BitVec.allOnes 64)
def exQq128 : State := start opsE4 0x1000 [2, 4] 3
def exQq256 : State := start opsE4 0x1000 [0, 1, 2, 3] 5
def opsE7 : Operands := ⟨17, 30, 7, .base 13 (.disp8 8), .x8, none, false⟩
def exQq512 : State :=
  start opsE7 0x1040 [2 ^ 64 - 8, 2 ^ 64 - 7, 2 ^ 64 - 6, 2 ^ 64 - 5, 2 ^ 64 - 4, 2 ^ 64 - 3, 2 ^ 64 - 2, 2 ^ 64 - 1] 0xFF

/-- The worked example of R100. -/
theorem test_exec_qd128 : result opsE1 (exec (.vpgatherqdXmmVm64x opsE1) exQd128) =
    some (0x0F0E0D0C07060504, 0, 0x400007) := by decide +kernel

/-- The worked example of R101. -/
theorem test_exec_qd256 : result opsE1 (exec (.vpgatherqdXmmVm64y opsE1) exQd256) =
    some (0x1F1E1D1CFFFFFFFF0F0E0D0CFFFFFFFF, 0, 0x400007) := by decide +kernel

/-- The worked example of R102: element `j` is the dword at `1000H + 8j`. -/
theorem test_exec_qd512 : result opsE1 (exec (.vpgatherqdYmmVm64z opsE1) exQd512) =
    some (0x3B3A3938333231302B2A2928232221201B1A1918131211100B0A090803020100, 0, 0x400007) := by decide +kernel

/-- The worked example of R110. -/
theorem test_exec_qq128 : result opsE4 (exec (.vpgatherqqXmmVm64x opsE4) exQq128) =
    some (0x27262524232221201716151413121110, 0, 0x400007) := by decide +kernel

/-- The worked example of R111. -/
theorem test_exec_qq256 : result opsE4 (exec (.vpgatherqqYmmVm64y opsE4) exQq256) =
    some (0xFFFFFFFFFFFFFFFF1716151413121110FFFFFFFFFFFFFFFF0706050403020100, 0, 0x400007) := by decide +kernel

/-- The worked example of R112: element `j` is the qword at `1040H + 8j`. -/
theorem test_exec_qq512 : result opsE7 (exec (.vpgatherqqZmmVm64z opsE7) exQq512) =
    some (vec [0x4746454443424140, 0x4F4E4D4C4B4A4948, 0x5756555453525150, 0x5F5E5D5C5B5A5958,
      0x6766656463626160, 0x6F6E6D6C6B6A6968, 0x7776757473727170, 0x7F7E7D7C7B7A7978], 0, 0x400008) := by
  decide +kernel

/-- S2: only mask bits above KL set. -/
theorem test_exec_empty_mask :
    result opsE1 (exec (.vpgatherqdXmmVm64x opsE1)
        (start opsE1 0x1000 [0x7FFFFFFFFFFFFFFF, 0x123456789] 0xFFFFFFFFFFFFFFFC)) =
      some (0xFFFFFFFFFFFFFFFF, 0, 0x400007) := by decide +kernel

/-- S3: negative indices. -/
theorem test_exec_negative_indices :
    result opsE1 (exec (.vpgatherqdXmmVm64y opsE1) (start opsE1 0x1010 [2 ^ 64 - 1, 2 ^ 64 - 4, 0, 3] 0xF)) =
      some (0x1F1E1D1C13121110030201000F0E0D0C, 0, 0x400007) := by decide +kernel

/-- S4: a 32-bit address size. -/
theorem test_exec_address_size :
    let o := { opsE1 with addrSizePrefix := true }
    result o (exec (.vpgatherqdYmmVm64z o) (start o 0xDEADBEEF00001000
        ((List.range 8).map fun j => (j + 1) * 0x100000000 + j) 0xFF)) =
      some (vec [0x0706050403020100, 0x0F0E0D0C0B0A0908, 0x1716151413121110, 0x1F1E1D1C1B1A1918], 0, 0x400008) := by
  decide +kernel

/-- S9: the scaled index wraps. -/
theorem test_exec_wrap :
    result opsE4 (exec (.vpgatherqqXmmVm64x opsE4)
        (start opsE4 0x1000 [0x2000000000000001, 0x8000000000000002] 3)) =
      some (0x17161514131211100F0E0D0C0B0A0908, 0, 0x400007) := by decide +kernel

/-- S7: misaligned qwords, one inactive. -/
theorem test_exec_misaligned :
    let o := { opsE4 with addr := .base 0 (.disp32 1) }
    result o (exec (.vpgatherqqYmmVm64y o) (start o 0x1000 [0, 1, 2, 3] 11)) =
      some (vec [0x0807060504030201, 0x100F0E0D0C0B0A09, 0xFFFFFFFFFFFFFFFF, 0x201F1E1D1C1B1A19], 0, 0x40000B) := by
  decide +kernel

/-- S5: no base register, two of eight elements. -/
theorem test_exec_no_base :
    let o : Operands := ⟨3, 4, 3, .noBase 0x1000, .x1, none, false⟩
    result o (exec (.vpgatherqqZmmVm64z o) (start o 0 [0, 8, 0x10, 0x18, 0x20, 0x28, 0x30, 0xF8] 0x81)) =
      some (vec [0x0706050403020100, 2 ^ 64 - 1, 2 ^ 64 - 1, 2 ^ 64 - 1, 2 ^ 64 - 1, 2 ^ 64 - 1, 2 ^ 64 - 1,
        0xFFFEFDFCFBFAF9F8], 0, 0x40000B) := by decide +kernel

/-- T7: its operands and start state. -/
def opsT7 : Operands := ⟨5, 6, 3, .base 0 .absent, .x4, none, false⟩
def exT7 : State := start opsT7 0x1000 [0, 1, 0x1000, 3, 4, 0x2000, 6, 7] (BitVec.allOnes 64)

/-- The choices of F1a: nothing. -/
def noChoice : Choices := ⟨0, false, false, false, 0, 0⟩

/-- F1b: every candidate for `Left`, both upper parts zeroed. -/
theorem test_suspended_F1b :
    result opsT7 (gatherWith { noChoice with left := 0xFF, zd := true, zk := true } .qd512 opsT7 exT7) =
      some (0x1F1E1D1C1B1A1918FFFFFFFF131211100F0E0D0CFFFFFFFF0706050403020100, 0x24, 0x400000) := by decide +kernel

/-- F1c: `Left = {6}`, the destination's upper part zeroed, the mask's not; the fault is element 2's. -/
theorem test_suspended_F1c :
    result opsT7 (gatherWith { noChoice with left := 0x40, zd := true } .qd512 opsT7 exT7) =
        some (0xFFFFFFFF1B1A1918FFFFFFFFFFFFFFFFFFFFFFFFFFFFFFFF0706050403020100, 0xFFFFFFFFFFFFFFBC, 0x400000) ∧
      deliveredOf (gatherWith { noChoice with left := 0x40, zd := true } .qd512 opsT7 exT7) =
        some (faultRecord exT7 .pf (some 0) (some ⟨2, 0x5000⟩)) := by decide +kernel

/-- T9: an element that straddles the end of mapped memory; CR2 is the first unmapped byte. -/
theorem test_suspended_straddle :
    let o := { opsE4 with addr := .base 0 (.disp32 1) }
    let out := gatherWith { noChoice with left := 0xFF, zd := true, zk := true } .qq256 o
      (start o 0x1000 [0, 0x1F, 2, 3] 7)
    result o out = some (vec [0x0807060504030201, 2 ^ 64 - 1, 0x1817161514131211, 2 ^ 64 - 1], 2, 0x400000) ∧
      cr2Of out = some 0x1100 := by decide +kernel

/-- T11: a trap pending in lieu of the fault. -/
theorem test_trap_in_lieu :
    (deliveredOf (gatherWith noChoice .qd512 opsT7 { exT7 with pendingTraps := [.breakpoint 2] })).map Delivery.kind =
      some (.exception .db) := by decide +kernel

/-- F6: CR0.TS. -/
theorem test_nm : nextIs (gatherWith noChoice .qd512 opsT7 { exT7 with cr0 := 9 })
    { exT7 with cr0 := 9, delivered := some (faultRecord exT7 .nm none none) } = true := by decide +kernel

/-- F7, N4: destination = index. -/
theorem test_ud : nextIs (gatherWith noChoice .qq128 { opsE4 with dest := 2 } exQq128)
    { exQq128 with delivered := some (faultRecord exQq128 .ud none none) } = true := by decide +kernel

def refusalOf : Host.Outcome State Fault Refusal → Option Refusal
  | .refused r => some r
  | _ => none

/-- The three refusals of an instruction, each where the spec's decision has it (D21, D28, D11). -/
theorem test_refusals :
    refusalOf (gatherWith noChoice .qd128 opsE1 { exQd128 with rip := 0xFFFFFFFFFFFFFFFA }) = some .ripWrap ∧
      refusalOf (gatherWith noChoice .qd128 { opsE1 with dest := 9 }
        { exQd128 with csL := false, csD := true }) = some .mode32ExtensionBits ∧
      refusalOf (gatherWith noChoice .qd128 opsE1
        { exQd128 with regions := [⟨0x100C, 0x100D, .sideEffect⟩] }) = some .sideEffectingMemory := by decide +kernel

/-! ## Steps -/

/-- E1's bytes at `rip`, in the state of R100's example. -/
def exStep : State := placeInstruction exQd128 [0x62, 0xF2, 0x7D, 0x09, 0x91, 0x0C, 0x90]

/-- A step fetches, decodes and runs E1. -/
theorem test_step_E1 : result opsE1 (step exStep) = some (0x0F0E0D0C07060504, 0, 0x400007) := by decide +kernel

/-- A word of the opcode table, placed in the launch state, is the first instruction `step` runs: with k1 zero it
completes. -/
theorem test_step_table_word :
    nextIs (step (State.reset.withFetchWord 48 0x62F2FD49910C))
      { State.reset.withFetchWord 48 0x62F2FD49910C with rip := 0x400007, clock := 1 } = true := by decide +kernel

/-- With k0, as the opcode table's bare match word has it, that step takes #UD (R66). -/
theorem test_step_table_word_k0 :
    deliveredOf (step (State.reset.withFetchWord 48 0x62F2FD49110C)) = none ∧
      deliveredOf (step (State.reset.withFetchWord 48 0x62F2FD48910C)) =
        some (faultRecord State.reset .ud none none) := by decide +kernel

/-! ## Witnesses: each meets every hypothesis of the obligation it names

`calm`: ready, no interrupt pending, every active element readable. `faulty`: ready, no side-effecting element, a first
faulting element. -/

def readyB (f : Form) (o : Operands) (s : State) : Bool :=
  decide (s.rip.toNat + o.ilen ≤ spaceSize s ∧ asize o s ≠ .a16 ∧ s.osEnabled = true ∧ s.hasFeatures f = true ∧
    o.mask ≠ 0#3 ∧ o.dest ≠ o.index ∧ (s.mode64 = true ∨ lowRegs o = true) ∧ s.ts = false)

theorem ready_of (f : Form) (o : Operands) (s : State) (h : readyB f o s = true) : Ready f o s :=
  (Laws.ready_iff f o s).2 (of_decide_eq_true h)

def calm (f : Form) (o : Operands) (s : State) : Bool :=
  readyB f o s && !s.interruptPending && !hitsSideEffect f o s && decide (firstFault f o s = none)

theorem calm_of (f : Form) (o : Operands) (s : State) (h : calm f o s = true) :
    Ready f o s ∧ s.interruptPending = false ∧ AllReadable f o s := by
  simp only [calm, Bool.and_eq_true, Bool.not_eq_true', decide_eq_true_eq] at h
  exact ⟨ready_of f o s h.1.1.1, h.1.1.2, (Laws.allReadable_iff f o s).2 ⟨h.1.2, h.2⟩⟩

def faulty (f : Form) (o : Operands) (s : State) (j0 : Nat) (e : AccessFault) : Bool :=
  readyB f o s && !hitsSideEffect f o s && decide (j0 < f.kl) && isActive o s j0 &&
    decide (answer f o s j0 = .fault e) && (List.range j0).all fun j => !isActive o s j || isOk f o s j

theorem faulty_of (f : Form) (o : Operands) (s : State) (j0 : Nat) (e : AccessFault) (h : faulty f o s j0 e = true) :
    Ready f o s ∧ NoSideEffects f o s ∧ FirstFault f o s j0 e := by
  simp only [faulty, Bool.and_eq_true, Bool.not_eq_true', decide_eq_true_eq, List.all_eq_true, List.mem_range,
    Bool.or_eq_true] at h
  obtain ⟨⟨⟨⟨⟨h1, h2⟩, h3⟩, h4⟩, h5⟩, h6⟩ := h
  refine ⟨ready_of f o s h1, fun j hj ha he => ?_, h3, h4, h5, fun j hj ha => ?_⟩
  · rw [hitsSideEffect, List.any_eq_false] at h2
    exact h2 j ((Laws.mem_active f o s j).2 ⟨hj, ha⟩) (by simp [he])
  · rcases h6 j hj with h7 | h7
    · rw [ha] at h7
      cases h7
    · exact (Laws.isOk_iff f o s j).1 h7

theorem next_of (out : Host.Outcome State Fault Refusal) (h : isNext out = true) : ∃ t, out = .next t := by
  cases out with
  | next t => exact ⟨t, rfl⟩
  | fault r => cases h
  | refused r => cases h

theorem delivered_of (out : Host.Outcome State Fault Refusal) (h : (deliveredOf out).isSome = true) :
    ∃ t d, out = .next t ∧ t.delivered = some d := by
  cases out with
  | next t =>
    obtain ⟨d, hd⟩ := Option.isSome_iff_exists.1 h
    exact ⟨t, d, rfl, hd⟩
  | fault r => cases h
  | refused r => cases h

/-! ### Encoding -/

theorem witness_EncodeThenDecode64 : (Instr.vpgatherqqZmmVm64z opsE7).wf = true := by decide

theorem witness_EncodeThenDecode32 :
    (CodeSize.code32 ≠ .code64 ∧ (Instr.vpgatherqdXmmVm64x opsE1).wf = true ∧
      lowRegs (Instr.vpgatherqdXmmVm64x opsE1).ops = true ∧ asizeOf .code32 opsE1.addrSizePrefix ≠ .a16) ∧
    (CodeSize.code16 ≠ .code64 ∧ lowRegs { opsE4 with addrSizePrefix := true, dest := 7 } = true ∧
      asizeOf .code16 true ≠ .a16) := by decide

/-- The longest instruction: both prefixes and a disp32. -/
theorem witness_DecodedInstructionLength :
    decode .code64 [0x64#8, 0x67#8, 0x62#8, 0xF2#8, 0x7D#8, 0x29#8, 0x91#8, 0x8C#8, 0x10#8, 3#8, 0#8, 0#8, 0#8, 0x90#8] =
      .instr (.vpgatherqdXmmVm64y ⟨1, 2, 1, .base 0 (.disp32 3), .x1, some .fs, true⟩) [0x90#8] := by decide

/-- A payload for each `bad` condition of the statement, one for each stored extension bit in 32-bit mode, and E1's bytes, which
meet none; the prefix 67H in 16-bit code. -/
theorem witness_OpcodePointIsPartitioned :
    ([0x67#8, 0x64#8] : List Byte) =
      (Operands.prefixBytes { opsE1 with segOverride := some .fs, addrSizePrefix := true }).reverse ∧
    (GatherPoint .code64 0xFA 0x7D ∧ (0xFA#8).getLsbD 3 = true) ∧
    (GatherPoint .code64 0xF2 0x79 ∧ (0x79#8).getLsbD 2 = false) ∧
    (0x69#8).extractLsb' 5 2 = 3#2 ∧ (0x75#8).extractLsb' 3 4 ≠ 15#4 ∧ (0x19#8).getLsbD 4 = true ∧
    (0x89#8).getLsbD 7 = true ∧ (0xC8#8).extractLsb' 6 2 = 3#2 ∧ (0x08#8).extractLsb' 0 3 ≠ 4#3 ∧
    (GatherPoint .code32 0xE2 0x7D ∧ GatherPoint .code32 0xD2 0x7D ∧ GatherPoint .code16 0xF2 0x7D ∧
      (0xE2#8).getLsbD 4 = false ∧ (0xD2#8).getLsbD 5 = false ∧ (0x01#8).getLsbD 3 = false) ∧
    (GatherPoint .code32 0xF2 0x7D ∧
      ¬ ((0xF2#8).getLsbD 3 = true ∨ (0x7D#8).getLsbD 2 = false ∨ (0x09#8).extractLsb' 5 2 = 3#2 ∨
        (0x7D#8).extractLsb' 3 4 ≠ 15#4 ∨ (0x09#8).getLsbD 4 = true ∨ (0x09#8).getLsbD 7 = true ∨
        (0x0C#8).extractLsb' 6 2 = 3#2 ∨ (0x0C#8).extractLsb' 0 3 ≠ 4#3)) := by
  unfold GatherPoint
  decide

/-- The clauses, each point by itself, 67H before the segment override. -/
theorem witness_OtherOpcodePointsAreNotThisInstruction :
    ([0x67#8, 0x64#8] : List Byte) =
      (Operands.prefixBytes { opsE1 with segOverride := some .fs, addrSizePrefix := true }).reverse ∧
      (0xF1#8).extractLsb' 0 3 ≠ 2#3 ∧ (0x7C#8).extractLsb' 0 2 ≠ 1#2 ∧ 0x90#8 ≠ 0x91#8 ∧
      (CodeSize.code32 ≠ .code64 ∧ (0x72#8).extractLsb' 6 2 ≠ 3#2) ∧
      (0x40#8 ≠ 0x62#8 ∧ prefixByte .code32 0x40 = none) := by decide

/-- LOCK and 66H; REX bytes at both ends of their range among the allowed prefixes; all that 32-bit mode has. -/
theorem witness_ForbiddenPrefixRaisesUd :
    ∀ p ∈ [(CodeSize.code64, [0xF0#8, 0x66#8]), (.code64, [0x67#8, 0x40#8, 0x64#8]), (.code64, [0x4F#8]),
        (.code32, [0x2E#8, 0xF2#8, 0x67#8, 0xF3#8, 0xF0#8, 0x66#8])],
      (∀ z ∈ p.2, (prefixByte p.1 z).isSome = true) ∧ p.2.Pairwise (fun x y => ¬ SamePrefix p.1 x y) ∧
        (∃ x ∈ p.2, ForbiddenPrefix p.1 x) ∧ GatherPoint p.1 0xF2 0x7D := by
  have hseg : ∀ x : Byte, (∃ g : Seg, x = g.prefixByte) ↔ x ∈ [0x2E#8, 0x36#8, 0x3E#8, 0x26#8, 0x64#8, 0x65#8] := by
    intro x
    constructor
    · rintro ⟨g, rfl⟩
      cases g <;> decide
    · intro h
      simp only [List.mem_cons, List.not_mem_nil, or_false] at h
      rcases h with h | h | h | h | h | h
      exacts [⟨.cs, h⟩, ⟨.ss, h⟩, ⟨.ds, h⟩, ⟨.es, h⟩, ⟨.fs, h⟩, ⟨.gs, h⟩]
  simp only [SamePrefix, ForbiddenPrefix, GatherPoint, exists_and_left, exists_and_right, hseg]
  decide +kernel

/-- Two segment overrides around 67H; 67H twice in 16-bit code; two different REX bytes. -/
theorem witness_RepeatedPrefixIsRefused :
    ((∀ z ∈ [] ++ [0x67#8] ++ [], (prefixByte .code64 z).isSome = true) ∧ SamePrefix .code64 0x64 0x2E) ∧
    SamePrefix .code16 0x67 0x67 ∧ SamePrefix .code64 0x40 0x4F ∧ GatherPoint .code16 0xF2 0x7D :=
  ⟨⟨by decide, .inl ⟨.fs, .cs, by decide, by decide⟩⟩, .inr (.inl (by decide)), .inr (.inr (by decide)), by
    unfold GatherPoint; decide⟩

/-! ### Steps -/

/-- `LooksAtRip` and `FetchesHere`, checked. -/
theorem looksAtRip_of (s : State) (h : s.delivered = none ∧ s.pendingTraps = [] ∧ endingHandler s = none) :
    LooksAtRip s :=
  ⟨h.1, h.2.1, (Laws.endingHandler_none s).1 h.2.2⟩

theorem fetchesHere_of (s : State) (n : Nat)
    (h : (s.delivered = none ∧ s.pendingTraps = [] ∧ endingHandler s = none) ∧ textChanged s n = false) :
    FetchesHere s n :=
  ⟨looksAtRip_of s h.1, (Laws.textChanged_eq_false s n).1 h.2⟩

theorem witness_StepRunsDecodedInstruction :
    FetchesHere exStep opsE1.ilen ∧ instrBreakpoints exStep = [] ∧
      decode exStep.codeSize (fetchBytes exStep) = .instr (.vpgatherqdXmmVm64x opsE1) [] :=
  ⟨fetchesHere_of _ _ (by decide +kernel), by decide +kernel⟩

/-- E1 in memory at `rip`; in 32-bit mode with a CS base of 1000H. -/
def exStep32 : State :=
  placeInstruction
    { exQd128 with csL := false, csD := true, segs := exQd128.segs.set 0 { base := 0x1000, limit := 0xFFFFFFFF, usable := true } }
    [0x62, 0xF2, 0x7D, 0x09, 0x91, 0x0C, 0x90]

/-- The clauses of the second part in both modes; the first has no hypotheses. -/
theorem witness_FetchReadsMemory :
    (Encodable (.vpgatherqdXmmVm64x opsE1) exStep ∧ FetchesHere exStep opsE1.ilen ∧ instrBreakpoints exStep = [] ∧
      exStep.rip.toNat + opsE1.ilen ≤ spaceSize exStep ∧
      ∀ k < opsE1.ilen, Memory.read exStep.mem (linear exStep .cs exStep.rip k).toNat =
        (encode (.vpgatherqdXmmVm64x opsE1))[k]?) ∧
    (Encodable (.vpgatherqdXmmVm64x opsE1) exStep32 ∧ FetchesHere exStep32 opsE1.ilen ∧ instrBreakpoints exStep32 = [] ∧
      exStep32.rip.toNat + opsE1.ilen ≤ spaceSize exStep32 ∧
      ∀ k < opsE1.ilen, Memory.read exStep32.mem (linear exStep32 .cs exStep32.rip k).toNat =
        (encode (.vpgatherqdXmmVm64x opsE1))[k]?) :=
  ⟨⟨⟨by decide, by decide +kernel⟩, fetchesHere_of _ _ (by decide +kernel), by decide +kernel⟩,
    ⟨by decide, by decide +kernel⟩, fetchesHere_of _ _ (by decide +kernel), by decide +kernel⟩

/-- N3 at `rip`. -/
def exUd : State := placeInstruction exQd128 [0x62, 0xF2, 0x7D, 0x19, 0x91, 0x0C, 0x90]

/-- N2 without its VSIB byte, ending at the top of the address space. -/
def exUdTop : State :=
  placeInstruction { exQd128 with rip := 0xFFFFFFFFFFFFFFFA } [0x62, 0xF2, 0x7D, 0x89, 0x91, 0x0C]

/-- The clauses: an #UD encoding that fits, and one whose VSIB byte would lie past the top. -/
theorem witness_UdEncodingTakesUd :
    (FetchesHere exUd 7 ∧ instrBreakpoints exUd = [] ∧
      decode exUd.codeSize (fetchBytes exUd) = .ud .broadcast 7 ∧ exUd.rip.toNat + 7 ≤ spaceSize exUd) ∧
    (FetchesHere exUdTop 7 ∧ instrBreakpoints exUdTop = [] ∧
      decode exUdTop.codeSize (fetchBytes exUdTop) = .ud .zeroing 7 ∧ spaceSize exUdTop < exUdTop.rip.toNat + 7) :=
  ⟨⟨fetchesHere_of _ _ (by decide +kernel), by decide +kernel⟩, fetchesHere_of _ _ (by decide +kernel), by decide +kernel⟩

/-- Those bytes are refused (R14, D21). -/
theorem test_ud_crossing_top : refusalOf (step exUdTop) = some .ripWrap := by decide +kernel

def faultOf : Host.Outcome State Fault Refusal → Option Fault
  | .fault r => some r
  | _ => none

/-- Every stop of a step happens: E1 cut off before its VSIB byte; a handler not said; another opcode byte; 67H twice; V' stored 0
in 32-bit mode; a gather across the top; an active element in side-effecting memory. (Changed text: `test_changed_instruction`.) -/
theorem test_step_stops :
    faultOf (step (placeInstruction exQd128 [0x62, 0xF2, 0x7D, 0x09, 0x91, 0x0C])) = some .fetchUnmapped ∧
    faultOf (step { exStep with delivered := some (faultRecord exStep .ud none none) }) = some .awaitingHandler ∧
    refusalOf (step (placeInstruction exQd128 [0x62, 0xF2, 0x7D, 0x09, 0x90, 0x0C])) = some .notThisInstruction ∧
    refusalOf (step (placeInstruction exQd128 [0x67, 0x67, 0x62, 0xF2, 0x7D, 0x09, 0x91, 0x0C, 0x90])) = some .repeatedPrefix ∧
    refusalOf (step (placeInstruction { exQd128 with csL := false, csD := true } [0x62, 0xF2, 0x7D, 0x01, 0x91, 0x0C, 0x90])) =
      some .mode32ExtensionBits ∧
    refusalOf (step (placeInstruction { exQd128 with rip := 0xFFFFFFFFFFFFFFFA } [0x62, 0xF2, 0x7D, 0x09, 0x91, 0x0C])) =
      some .ripWrap ∧
    refusalOf (step { exStep with regions := [⟨0x100C, 0x100D, .sideEffect⟩] }) = some .sideEffectingMemory := by
  decide +kernel

/-- An event being handled around an #UD encoding. -/
def exNested : State := { exUd with outer := [⟨faultRecord exQd128 .pf (some 0) (some ⟨1, 0x5000⟩), 0x700000⟩] }

theorem witness_StepKeepsInvariant : exNested.Inv ∧ ∃ t, step exNested = .next t :=
  ⟨⟨by decide +kernel, by decide, (fun d h => by cases h), by decide +kernel⟩, next_of _ (by decide +kernel)⟩

theorem witness_StepsOutsideHandlersKeepTheRest : exStep.delivered = none ∧ ∃ t, step exStep = .next t :=
  ⟨by decide +kernel, next_of _ (by decide +kernel)⟩

theorem witness_DeliverySavesTheInstruction :
    exNested.delivered = none ∧ exNested.pendingTraps = [] ∧ endingHandler exNested = none ∧
      ∃ t d, step exNested = .next t ∧ t.delivered = some d :=
  ⟨by decide +kernel, by decide +kernel, by decide +kernel, delivered_of _ (by decide +kernel)⟩

theorem witness_BreakpointIsNotRetriggered :
    exNested.delivered = none ∧ exNested.pendingTraps = [] ∧ endingHandler exNested = none ∧
      ∃ t d, step exNested = .next t ∧ t.delivered = some d :=
  witness_DeliverySavesTheInstruction

theorem witness_TrapBetweenInstructions :
    ({ exQd128 with pendingTraps := [.breakpoint 2, .singleStep] } : State).delivered = none ∧
      ({ exQd128 with pendingTraps := [.breakpoint 2, .singleStep] } : State).pendingTraps ≠ [] := by decide +kernel

/-! ### Handlers -/

/-- A fault recorded, and one handler run. -/
def handled (edits : List HandlerEdit) (x : HandlerExit) : State :=
  { exQd128 with delivered := some (faultRecord exQd128 .ud none none), handlers := [⟨edits, x⟩] }

theorem witness_HandlerReturns :
    (handled [] .ret).delivered = some (faultRecord exQd128 .ud none none) ∧
      (handled [] .ret).handlers = { edits := [], exit := .ret } :: [] := ⟨rfl, rfl⟩

/-- The page that was missing, mapped; a byte unmapped; both registers of a gather; what is saved. -/
theorem witness_HandlerEditsTakeEffect :
    ∀ e ∈ [HandlerEdit.mapByte 0x5000 0xDD, .unmapByte 0x1000, .setZmm 1 ones, .setMask 1 5, .setGpr 4 7,
        .setRegions [⟨0x1000, 0x1010, .supervisor⟩], .setCr0 9, .setCr4 0, .setXcr0 7, .setDr 3 8, .setDr7 0x401,
        .setInterruptPending true, .setSavedRip 0x400007, .setSavedFlags 2],
      (handled [e] .ret).delivered = some (faultRecord exQd128 .ud none none) ∧
        (handled [e] .ret).handlers = { edits := [e], exit := .ret } :: [] ∧ touchesText (handled [e] .ret) e = false := by
  decide +kernel

theorem witness_HandlerEditsAreInOrder :
    let es := [HandlerEdit.mapByte 0x5000 0xDD, .mapByte 0x5000 0xCC]
    (handled es .ret).delivered = some (faultRecord exQd128 .ud none none) ∧
      (handled es .ret).handlers = { edits := .mapByte 0x5000 0xDD :: [.mapByte 0x5000 0xCC], exit := .ret } :: [] ∧
      touchesText (handled es .ret) (.mapByte 0x5000 0xDD) = false := by decide +kernel

/-- Program text declared at 1000H to 100FH. -/
def exText (e : HandlerEdit) : State := { handled [e] .ret with regions := [⟨0x1000, 0x1010, .text⟩] }

/-- E1 and N3 at `rip` with the byte after their opcode changed. -/
def exChanged (s : State) : State := { s with changed := [0x400005] }

/-- The clauses: a byte of text written, unmapped, text declared no longer; an instruction and an #UD encoding with a
changed byte. -/
theorem witness_ModifiedTextIsRefused :
    (let r : Region := ⟨0x1000, 0x1010, .text⟩
     (∀ e, (exText e).delivered = some (faultRecord exQd128 .ud none none) ∧
       (exText e).handlers = { edits := e :: [], exit := .ret } :: [] ∧ r ∈ (exText e).regions) ∧
     Memory.read (exText (.mapByte 0x100F 0)).mem (0x100F#64).toNat ≠ some 0 ∧
     Memory.read (exText (.unmapByte 0x1000)).mem (0x1000#64).toNat = some 0 ∧ r.kind = .text ∧
     r.lo ≤ (0x1000#64).toNat ∧ (0x100F#64).toNat < r.hi ∧ r ∉ ([] : List Region)) ∧
    (LooksAtRip (exChanged exStep) ∧ (exChanged exStep).rip.toNat + opsE1.ilen ≤ spaceSize (exChanged exStep) ∧
      decode (exChanged exStep).codeSize (fetchBytes (exChanged exStep)) = .instr (.vpgatherqdXmmVm64x opsE1) [] ∧
      5 < opsE1.ilen ∧ (linear (exChanged exStep) .cs (exChanged exStep).rip 5).toNat ∈ (exChanged exStep).changed) ∧
    (LooksAtRip (exChanged exUd) ∧ (exChanged exUd).rip.toNat + 7 ≤ spaceSize (exChanged exUd) ∧
      decode (exChanged exUd).codeSize (fetchBytes (exChanged exUd)) = .ud .broadcast 7 ∧
      (linear (exChanged exUd) .cs (exChanged exUd).rip 5).toNat ∈ (exChanged exUd).changed) :=
  ⟨⟨fun _ => ⟨rfl, rfl, .head _⟩, by decide +kernel⟩, ⟨looksAtRip_of _ (by decide +kernel), by decide +kernel⟩,
    looksAtRip_of _ (by decide +kernel), by decide +kernel⟩

/-- A handler maps a byte over an instruction and returns to it: the instruction is refused (R47, D23). -/
theorem test_changed_instruction :
    (match step { exStep with
        delivered := some (faultRecord exStep .ud none none), handlers := [⟨[.mapByte 0x400006 0xD0], .ret⟩] } with
      | .next t => refusalOf (step t)
      | _ => none) = some .textModified := by decide +kernel

/-- The clauses: a handler's code begins, and ends. -/
theorem witness_HandlerRunsItsOwnCode :
    (handled [] (.code 0x400000 0x400007 2)).delivered = some (faultRecord exQd128 .ud none none) ∧
      (handled [] (.code 0x400000 0x400007 2)).handlers = { edits := [], exit := .code 0x400000 0x400007 2 } :: [] ∧
      (let s : State := { exNested with rip := 0x700000 }
       s.delivered = none ∧ s.pendingTraps = [] ∧
         s.outer = ⟨faultRecord exQd128 .pf (some 0) (some ⟨1, 0x5000⟩), 0x700000⟩ :: [] ∧ s.rip = 0x700000) := by
  decide +kernel

/-- A gather that a handler runs (R137): it completes, and the event that is being handled is there when it ends. -/
theorem test_gather_in_handler :
    (match step { exStep with
        delivered := some (faultRecord exStep .nm none none), handlers := [⟨[], .code 0x400000 0x400007 2⟩, ⟨[], .ret⟩] } with
      | .next t =>
        match step t with
        | .next u => deliveredOf (step u)
        | _ => none
      | _ => none) = some (faultRecord exStep .nm none none) := by decide +kernel

/-- The event of `exNested`, with a second one handled around it whose handler's code ends where `rip` is. -/
def exNested2 : State :=
  { exNested with outer := exNested.outer ++ [⟨faultRecord exQd128 .nm none none, exNested.rip⟩] }

/-- The clauses: an instruction that completes; a step inside a handler's code, also where an outer handler's ends; a trap
pending where the innermost ends. -/
theorem witness_NestedEventsAreIndependent :
    (∃ t, exec (.vpgatherqdXmmVm64x opsE1) exQd128 = .next t) ∧
    (exNested2.delivered = none ∧ (∀ fr, exNested2.outer.head? = some fr → exNested2.rip ≠ fr.stop) ∧
      ∃ t, step exNested2 = .next t) ∧
    (let s : State := { exNested with rip := 0x700000, pendingTraps := [.singleStep] }
     s.delivered = none ∧ s.pendingTraps ≠ [] ∧ ∃ t, step s = .next t) :=
  ⟨next_of _ (by decide +kernel),
    ⟨by decide +kernel, (Laws.endingHandler_none _).1 (by decide +kernel), next_of _ (by decide +kernel)⟩,
    by decide +kernel, by decide +kernel, next_of _ (by decide +kernel)⟩

/-! ### Breakpoints -/

/-- An execution breakpoint at `rip` (DR0, enabled, type 00b). -/
def exBreak (s : State) : State := { s with dr := s.dr.set 0 0x400000, dr7 := 0x401 }

theorem witness_InstructionBreakpointComesFirst :
    (FetchesHere (exBreak exStep) opsE1.ilen ∧
      (exBreak exStep).rip.toNat + opsE1.ilen ≤ spaceSize (exBreak exStep) ∧ (exBreak exStep).rf = false ∧
      instrMatch (exBreak exStep) 0 (linear (exBreak exStep) .cs (exBreak exStep).rip 0) = true ∧
      decode (exBreak exStep).codeSize (fetchBytes (exBreak exStep)) = .instr (.vpgatherqdXmmVm64x opsE1) []) ∧
    (FetchesHere (exBreak exUd) 7 ∧ (exBreak exUd).rip.toNat + 7 ≤ spaceSize (exBreak exUd) ∧ (exBreak exUd).rf = false ∧
      instrMatch (exBreak exUd) 0 (linear (exBreak exUd) .cs (exBreak exUd).rip 0) = true ∧
      decode (exBreak exUd).codeSize (fetchBytes (exBreak exUd)) = .ud .broadcast 7) :=
  ⟨⟨fetchesHere_of _ _ (by decide +kernel), by decide +kernel⟩, fetchesHere_of _ _ (by decide +kernel), by decide +kernel⟩

/-! ### Addresses -/

/-- A state of 32-bit mode (`CS.D = 1`). -/
def in32 (s : State) : State := { s with csL := false, csD := true }

/-- The clauses: 64-bit and 32-bit address size, a base and none, an instruction that answers a next state. -/
theorem witness_EffectiveAddressFormula :
    asize opsE1 exQd128 = .a64 ∧ asize opsE1 (in32 exQd128) = .a32 ∧
      asize { opsE1 with addrSizePrefix := true } exQd128 = .a32 ∧ opsE1.addr = .base 0 .absent ∧
      ({ opsE1 with addr := .noBase 0x1000 } : Operands).addr = .noBase 0x1000 ∧
      (∃ t, exec (.vpgatherqdXmmVm64x opsE1) exQd128 = .next t) :=
  ⟨by decide, by decide, by decide, rfl, rfl, next_of _ (by decide +kernel)⟩

theorem witness_SignedIndexReading : asize opsE7 exQq512 = .a64 := by decide

/-- The clauses, at boundary values: disp8 80H is -128 and scaled by 4 or 8; disp32 80000000H is -2^31. -/
theorem witness_DisplacementValue :
    (dispValue .qd128 { opsE1 with addr := .base 0 (.disp8 0x80) }).toInt = -512 ∧
      (dispValue .qq128 { opsE1 with addr := .base 0 (.disp8 0x80) }).toInt = -1024 ∧
      (dispValue .qq128 { opsE1 with addr := .base 0 (.disp32 0x80000000) }).toInt = -2147483648 ∧
      (dispValue .qd512 { opsE1 with addr := .noBase 0x80000000 }).toInt = -2147483648 ∧
      dispValue .qd512 opsE1 = 0 := by decide

/-- FS with base 1000H. -/
def exFs : State := { exQd128 with segs := exQd128.segs.set 4 { base := 0x1000, limit := 0xFFFFFFFF, usable := true } }

/-- The clauses: FS and DS in 64-bit mode, FS in 32-bit mode, each where the sum wraps. -/
theorem witness_LinearAddressFormula :
    exFs.mode64 = true ∧ (linear exFs .fs 0xFFFFFFFFFFFFF000 0).toNat = 0 ∧
      (linear exFs .ds 0xFFFFFFFFFFFFFFFF 1).toNat = 0 ∧
      (in32 exFs).mode64 = false ∧ (linear (in32 exFs) .fs 0xFFFFF000 0).toNat = 0 := by decide +kernel

/-- The clauses: FS, GS, an ignored override, none; in 32-bit mode every override counts. -/
theorem witness_SegmentChoice :
    exQd128.mode64 = true ∧ segOf { opsE1 with segOverride := some .fs } exQd128 = .fs ∧
      segOf { opsE1 with segOverride := some .gs, addr := .base 4 .absent } exQd128 = .gs ∧
      segOf { opsE1 with segOverride := some .es } exQd128 = .ds ∧
      segOf { opsE1 with segOverride := some .ds, addr := .base 4 .absent } exQd128 = .ss ∧
      segOf { opsE1 with addr := .base 12 .absent } exQd128 = .ds ∧
      (in32 exQd128).mode64 = false ∧ segOf { opsE1 with segOverride := some .es } (in32 exQd128) = .es ∧
      segOf { opsE1 with segOverride := some .ds, addr := .base 4 .absent } (in32 exQd128) = .ds ∧
      segOf { opsE1 with addr := .base 5 (.disp8 0) } (in32 exQd128) = .ss := by decide +kernel

/-! ### The oracle -/

/-- The clauses: an answer of exactly four bytes, a question listed, one that is not. -/
theorem witness_OracleIsAParameter :
    (∀ v, Access.ok 0xFFFFFFFF = .ok v → v.toNat < 256 ^ 4) ∧ (∀ v, Access.sideEffect = .ok v → v.toNat < 256 ^ 4) ∧
      4 ≤ 8 ∧ access exQd128 1 .ds 0x100C 4 .a64 = .ok 0x0F0E0D0C ∧
      ∀ r, (⟨exQd128.clock, 1, .ds, 0x100C, 4, .a64⟩, r) ∉ exQd128.oracle :=
  ⟨fun v h => by cases h; decide, (fun v h => by cases h), by decide, by decide +kernel, fun r h => by cases h⟩

/-- At one time the oracle answers otherwise for element 1, and the gather takes its answer (R40). -/
theorem test_oracle :
    result opsE1 (exec (.vpgatherqdXmmVm64x opsE1)
        { exQd128 with oracle := [(⟨0, 1, .ds, 0x100C, 4, .a64⟩, .ok 0xAABBCCDD)] }) =
      some (0xAABBCCDD07060504, 0, 0x400007) := by decide +kernel

theorem witness_AccessIsLittleEndian : 4 ≤ 8 ∧ mapAccess exQd128 .ds 0x10FC 4 = .ok 0xFFFEFDFC := by decide +kernel

theorem witness_QwordIsTwoDwords : mapAccess exQd128 .ds 0x10F8 8 = .ok 0xFFFEFDFCFBFAF9F8 := by decide +kernel

/-- A limit of FFFH in every segment of 32-bit mode; `bad`: an unusable one. -/
def exLimit (usable : Bool) : State :=
  { in32 exQd128 with segs := Vector.replicate 6 { base := 0, limit := 0xFFF, usable := usable } }

/-- The clauses at both ends of the non-canonical range, past the limit, and with an unusable segment. -/
theorem witness_SegmentCheckComesFirst :
    (exQd128.mode64 = true ∧ (linear exQd128 .ss 0x7FFFFFFFFFFF 1).toNat = 2 ^ 47 ∧
      (linear exQd128 .ds 0xFFFF7FFFFFFFFFFF 0).toNat = 2 ^ 64 - 2 ^ 47 - 1) ∧
    ((exLimit true).mode64 = false ∧ ((exLimit true).getSeg .ss).limit.toNat < (0xFFD#64).toNat + 3) ∧
    ((exLimit false).getSeg .ds).usable = false ∧
    mapAccess exQd128 .ss 0x7FFFFFFFFFFF 4 = .fault .ss0 ∧ mapAccess (exLimit true) .ds 0xFFD 4 = .fault .gp0 := by
  decide +kernel

def readableB (s : State) (la : Qword) : Bool :=
  decide (regionFault s false la = none) && (Memory.read s.mem la.toNat).isSome &&
    !(decide (s.cpl = 3#2) && s.inRegion (fun k => decide (k = .supervisor)) la)

theorem readable_of (s : State) (la : Qword) (h : readableB s la = true) : Readable s la := by
  simp only [readableB, Bool.and_eq_true, decide_eq_true_eq, Bool.not_eq_true', Bool.and_eq_false_iff,
    decide_eq_false_iff_not] at h
  exact ⟨h.1.1, Option.isSome_iff_exists.1 h.1.2, fun hs => h.2.elim (fun hc => hc hs.1) fun hr => by simp [hr] at hs⟩

/-- T9's straddle, with `k = 7`, at privilege levels 0 and 3; a harmless region is in the way. -/
def exStraddle (cpl : BitVec 2) : State := { exQd128 with cpl := cpl, regions := [⟨0x1000, 0x2000, .text⟩] }

theorem witness_FirstUnmappedByteFaults :
    7 < 8 ∧ PassesSegment (exStraddle 3) .ds 0x10F9 8 ∧
      (∀ i < 7, Readable (exStraddle 3) (linear (exStraddle 3) .ds 0x10F9 i)) ∧
      regionFault (exStraddle 3) false (linear (exStraddle 3) .ds 0x10F9 7) = none ∧
      Memory.read (exStraddle 3).mem (linear (exStraddle 3) .ds 0x10F9 7).toNat = none ∧
      mapAccess (exStraddle 3) .ds 0x10F9 8 = .fault (.pf 4 0x1100) := by
  have h : ∀ i < 7, readableB (exStraddle 3) (linear (exStraddle 3) .ds 0x10F9 i) = true := by decide +kernel
  exact ⟨by decide, ⟨by decide +kernel, by decide +kernel⟩, fun i hi => readable_of _ _ (h i hi), by decide +kernel,
    by decide +kernel, by decide +kernel⟩

/-- Bytes 1002H and 1003H are the supervisor's. -/
def exSupervisor (cpl : BitVec 2) : State := { exQd128 with cpl := cpl, regions := [⟨0x1002, 0x1004, .supervisor⟩] }

/-- The clauses, at `k = 2`: privilege level 3, and below it. -/
theorem witness_SupervisorBytes :
    2 < 4 ∧ (∀ c, c = 3#2 ∨ c = 0#2 → PassesSegment (exSupervisor c) .ds 0x1000 4 ∧
      regionFault (exSupervisor c) false (linear (exSupervisor c) .ds 0x1000 2) = none ∧
      (∃ b, Memory.read (exSupervisor c).mem (linear (exSupervisor c) .ds 0x1000 2).toNat = some b) ∧
      (exSupervisor c).inRegion (fun x => decide (x = .supervisor)) (linear (exSupervisor c) .ds 0x1000 2) = true) ∧
    (∀ i < 2, Readable (exSupervisor 3) (linear (exSupervisor 3) .ds 0x1000 i)) ∧
    ((exSupervisor 0).cpl ≠ 3#2 ∧ ∀ i < 4,
      regionFault (exSupervisor 0) false (linear (exSupervisor 0) .ds 0x1000 i) = none ∧
      (∃ b, Memory.read (exSupervisor 0).mem (linear (exSupervisor 0) .ds 0x1000 i).toNat = some b) ∧
      (exSupervisor 0).inRegion (fun x => decide (x = .sideEffect)) (linear (exSupervisor 0) .ds 0x1000 i) = false) ∧
    mapAccess (exSupervisor 3) .ds 0x1000 4 = .fault (.pf 5 0x1002) ∧
    mapAccess (exSupervisor 0) .ds 0x1000 4 = .ok 0x03020100 := by
  have hm : ∀ c, ∀ i < 4, (Memory.read (exSupervisor c).mem (linear (exSupervisor c) .ds 0x1000 i).toNat).isSome = true := by
    decide +kernel
  refine ⟨by decide, ?_, ?_, ⟨by decide, fun i hi => ?_⟩, by decide +kernel, by decide +kernel⟩
  · rintro c (rfl | rfl) <;>
      exact ⟨⟨by decide +kernel, by decide +kernel⟩, by decide +kernel,
        Option.isSome_iff_exists.1 (hm _ 2 (by decide)), by decide +kernel⟩
  · have h : ∀ i < 2, readableB (exSupervisor 3) (linear (exSupervisor 3) .ds 0x1000 i) = true := by decide +kernel
    exact fun i hi => readable_of _ _ (h i hi)
  · have h : ∀ i < 4, regionFault (exSupervisor 0) false (linear (exSupervisor 0) .ds 0x1000 i) = none ∧
        (exSupervisor 0).inRegion (fun x => decide (x = .sideEffect)) (linear (exSupervisor 0) .ds 0x1000 i) = false := by
      decide +kernel
    exact ⟨(h i hi).1, Option.isSome_iff_exists.1 (hm 0 i hi), (h i hi).2⟩

/-- Bytes 10FCH to 10FFH fault with `e`. -/
def exFaulting (e : AccessFault) : State := { exQd128 with regions := [⟨0x10FC, 0x1100, .faults e⟩] }

/-- The clauses: #GP(0) of a byte after one that is not mapped has come first; a page fault of its own; what the region says. -/
theorem witness_RegionFaults :
    (segmentFault (exFaulting .gp0) .ds 0x0FFC 0x104 = false ∧
      regionFault (exFaulting .gp0) true (linear (exFaulting .gp0) .ds 0x0FFC 0x100) = some .gp0 ∧
      (∀ i < 0x100, regionFault (exFaulting .gp0) true (linear (exFaulting .gp0) .ds 0x0FFC i) = none) ∧
      Memory.read (exFaulting .gp0).mem 0x0FFC = none) ∧
    (segmentFault (exFaulting (.pf 9 7)) .ds 0x10F8 8 = false ∧
      regionFault (exFaulting (.pf 9 7)) false (linear (exFaulting (.pf 9 7)) .ds 0x10F8 4) = some (.pf 9 7) ∧
      (∀ i < 8, regionFault (exFaulting (.pf 9 7)) true (linear (exFaulting (.pf 9 7)) .ds 0x10F8 i) = none) ∧
      ∀ i < 4, Readable (exFaulting (.pf 9 7)) (linear (exFaulting (.pf 9 7)) .ds 0x10F8 i)) ∧
    (let s : State := { exQd128 with
       regions := [⟨0, 0x10FC, .faults .gp0⟩, ⟨0x1000, 0x2000, .text⟩, ⟨0x10FC, 0x1100, .faults .ss0⟩] }
     (⟨0x10FC, 0x1100, .faults .ss0⟩ : Region) ∈ s.regions ∧ 0x10FC ≤ (0x10FC#64).toNat ∧ (0x10FF#64).toNat < 0x1100 ∧
       (∀ r ∈ s.regions, r = ⟨0x10FC, 0x1100, .faults .ss0⟩ ∨ r.kind = .text ∨ r.hi ≤ (0x10FC#64).toNat) ∧
       ∀ r ∈ s.regions, r.kind = .text ∨ (0x1100#64).toNat < r.lo ∨ r.hi ≤ (0x1100#64).toNat) := by
  have h : ∀ i < 4, readableB (exFaulting (.pf 9 7)) (linear (exFaulting (.pf 9 7)) .ds 0x10F8 i) = true := by
    decide +kernel
  exact ⟨by decide +kernel, ⟨by decide +kernel, by decide +kernel, by decide +kernel, fun i hi => readable_of _ _ (h i hi)⟩,
    by decide +kernel⟩

/-! ### Completed executions: every instruction -/

theorem witness_VpgatherqdCompletes :
    (Ready .qd128 opsE1 exQd128 ∧ exQd128.interruptPending = false ∧ AllReadable .qd128 opsE1 exQd128) ∧
    (Ready .qd256 opsE1 exQd256 ∧ exQd256.interruptPending = false ∧ AllReadable .qd256 opsE1 exQd256) ∧
    (Ready .qd512 opsE1 exQd512 ∧ exQd512.interruptPending = false ∧ AllReadable .qd512 opsE1 exQd512) :=
  ⟨calm_of _ _ _ (by decide +kernel), calm_of _ _ _ (by decide +kernel), calm_of _ _ _ (by decide +kernel)⟩

theorem witness_VpgatherqqCompletes :
    (Ready .qq128 opsE4 exQq128 ∧ exQq128.interruptPending = false ∧ AllReadable .qq128 opsE4 exQq128) ∧
    (Ready .qq256 opsE4 exQq256 ∧ exQq256.interruptPending = false ∧ AllReadable .qq256 opsE4 exQq256) ∧
    (Ready .qq512 opsE7 exQq512 ∧ exQq512.interruptPending = false ∧ AllReadable .qq512 opsE7 exQq512) :=
  ⟨calm_of _ _ _ (by decide +kernel), calm_of _ _ _ (by decide +kernel), calm_of _ _ _ (by decide +kernel)⟩

theorem no_match (s : State) (h : s.dr7 = 0x400) (n : Fin 4) (la : Qword) : dataMatch s n la = false := by
  have hb : bpEnabled s n = false := by
    rw [bpEnabled, h]
    revert n
    decide
  simp [dataMatch, hb]

/-- R101's example, and a data breakpoint on the dword that its element 1 reads. -/
def exTrap : State := { exQd256 with dr := exQd256.dr.set 0 0x100C, dr7 := 0xF0401 }

theorem witness_CompletedGather :
    (Ready .qd256 opsE1 exQd256 ∧ exQd256.interruptPending = false ∧ AllReadable .qd256 opsE1 exQd256) ∧
      (Ready .qd256 opsE1 exTrap ∧ exTrap.interruptPending = false ∧ AllReadable .qd256 opsE1 exTrap) :=
  ⟨witness_VpgatherqdCompletes.2.1, calm_of _ _ _ (by decide +kernel)⟩

/-- The gather makes that trap pending, once (R20). -/
theorem test_data_breakpoint : (completed .qd256 opsE1 exTrap).pendingTraps = [.breakpoint 0] := by decide +kernel

/-- S2's state: the mask is empty below KL. -/
def exEmpty : State := start opsE1 0x1000 [0x7FFFFFFFFFFFFFFF, 0x123456789] 0xFFFFFFFFFFFFFFFC

theorem witness_EmptyMaskCompletes :
    Ready .qd128 opsE1 exEmpty ∧ exEmpty.interruptPending = false ∧
      ∀ j < (Form.qd128).kl, isActive opsE1 exEmpty j = false :=
  ⟨ready_of _ _ _ (by decide +kernel), by decide +kernel, by decide +kernel⟩

/-- R101's example has elements 1 and 3 active: indices 0 and 2 may be anything. -/
theorem witness_InactiveIndicesDoNotMatter_completed :
    opsE1.dest ≠ opsE1.index ∧
      (∀ j < (Form.qd256).kl, isActive opsE1 exQd256 j = true →
        getField (vec [0x7FFFFFFFFFFFFFFF, 3, 0x123456789, 7]) (64 * j) 64 = indexElem opsE1 exQd256 j) ∧
      Ready .qd256 opsE1 exQd256 ∧ exQd256.interruptPending = false ∧ AllReadable .qd256 opsE1 exQd256 :=
  ⟨by decide, by decide +kernel, witness_VpgatherqdCompletes.2.1⟩

/-- Element 0 kept, element 1 and the rest different; the mask's upper bits different. -/
theorem witness_OverwrittenPartsDoNotMatter :
    (Ready .qd128 opsE1 { exQd128 with k := exQd128.k.set 1 2 } ∧
      ({ exQd128 with k := exQd128.k.set 1 2 } : State).interruptPending = false ∧
      AllReadable .qd128 opsE1 { exQd128 with k := exQd128.k.set 1 2 }) ∧
    (∀ j < (Form.qd128).kl, (0xFFFFFFFFFFFFFFFE#64).getLsbD j =
      isActive opsE1 { exQd128 with k := exQd128.k.set 1 2 } j) ∧
    (∀ j < (Form.qd128).kl, isActive opsE1 { exQd128 with k := exQd128.k.set 1 2 } j = false →
      getField (vec [0x12345678FFFFFFFF]) ((Form.qd128).es * j) (Form.qd128).es =
        getField (({ exQd128 with k := exQd128.k.set 1 2 } : State).getZmm opsE1.dest) ((Form.qd128).es * j)
          (Form.qd128).es) :=
  ⟨calm_of _ _ _ (by decide +kernel), by decide +kernel, by decide +kernel⟩

/-- S4's state and another with other high halves. -/
def opsS4 : Operands := { opsE1 with addrSizePrefix := true }

theorem witness_HighHalvesDoNotMatter :
    (Ready .qd128 opsS4 exQd128 ∧ exQd128.interruptPending = false ∧ AllReadable .qd128 opsS4 exQd128) ∧
      asize opsS4 exQd128 = .a32 ∧ opsS4.addr = .base 0 .absent ∧
      (0xDEADBEEF00001000#64).setWidth 32 = (exQd128.getGpr 0).setWidth 32 ∧
      (∀ j < (Form.qd128).kl, (getField (vec [0xFFFFFFFF00000001, 0x700000003]) (64 * j) 64).setWidth 32 =
        (indexElem opsS4 exQd128 j).setWidth 32) ∧
      (let o : Operands := { opsS4 with addr := .noBase 0x1000 }
       Ready .qd128 o exQd128 ∧ exQd128.interruptPending = false ∧ AllReadable .qd128 o exQd128 ∧ asize o exQd128 = .a32) :=
  ⟨calm_of _ _ _ (by decide +kernel), by decide +kernel, rfl, by decide +kernel, by decide +kernel,
    (calm_of _ _ _ (by decide +kernel)).1, by decide +kernel, (calm_of _ _ _ (by decide +kernel)).2.2, by decide +kernel⟩

/-- T14: the second gather names k1 again. -/
theorem witness_MaskIsConsumed :
    ∃ t, (Ready .qd128 opsE1 exQd128 ∧ exQd128.interruptPending = false ∧ AllReadable .qd128 opsE1 exQd128) ∧
      exec (.vpgatherqdXmmVm64x opsE1) exQd128 = .next t ∧ ({ opsE1 with dest := 3 } : Operands).mask = opsE1.mask ∧
      Ready .qd128 { opsE1 with dest := 3 } t := by
  have h := witness_VpgatherqdCompletes.1
  exact ⟨_, h, Laws.gather_completes .qd128 opsE1 exQd128 h.1 h.2.1 h.2.2, rfl, ready_of _ _ _ (by decide +kernel)⟩

/-! ### Refused, suspended and interrupted executions -/

/-- Each #UD condition by itself, and #NM. -/
theorem witness_RefusedBeforeExecution :
    exQd128.rip.toNat + opsE1.ilen ≤ spaceSize exQd128 ∧
      asize opsS4 (in32 exQd128) = .a16 ∧ ({ exQd128 with cr4 := 0 } : State).osEnabled = false ∧
      ({ exQd128 with hasAvx512f := false } : State).hasAvx512f = false ∧
      ((Form.qd128).ll ≠ 2#2 ∧ ({ exQd128 with hasAvx512vl := false } : State).hasAvx512vl = false) ∧
      ({ opsE1 with mask := 0 } : Operands).mask = 0#3 ∧
      ({ opsE1 with dest := 2 } : Operands).dest = ({ opsE1 with dest := 2 } : Operands).index ∧
      (({ exQd128 with cr0 := 9 } : State).cr0.getLsbD 3 = true ∧
        ({ exQd128 with cr0 := 9 } : State).mode64 = true ∧
        ¬ (asize opsE1 { exQd128 with cr0 := 9 } = .a16 ∨ ({ exQd128 with cr0 := 9 } : State).osEnabled = false ∨
          exQd128.hasAvx512f = false ∨ ((Form.qd128).ll ≠ 2#2 ∧ exQd128.hasAvx512vl = false) ∨
          opsE1.mask = 0#3 ∨ opsE1.dest = opsE1.index)) := by decide +kernel

/-- T7: element 2 is the first that faults; at privilege level 0 the code is 0. -/
theorem witness_SuspendedGather :
    exT7.interruptPending = false ∧ Ready .qd512 opsT7 exT7 ∧ NoSideEffects .qd512 opsT7 exT7 ∧
      FirstFault .qd512 opsT7 exT7 2 (.pf 0 0x5000) :=
  ⟨by decide +kernel, faulty_of _ _ _ _ _ (by decide +kernel)⟩

/-- The same at another time, with other records and another choice drawn. -/
theorem witness_SuspensionIsRepeatable :
    (Ready .qd512 opsT7 exT7 ∧ exT7.interruptPending = false ∧ NoSideEffects .qd512 opsT7 exT7 ∧
      FirstFault .qd512 opsT7 exT7 2 (.pf 0 0x5000)) ∧
      ∀ j < (Form.qd512).kl, isActive opsT7 exT7 j = true →
        answer .qd512 opsT7 { exT7 with
          freeCount := 5, clock := 9, handlers := [⟨[], .ret⟩], oracle := [(⟨0, 0, .ds, 0, 4, .a64⟩, .sideEffect)],
          changed := [0x1000], outer := exNested.outer, delivered := none } j = answer .qd512 opsT7 exT7 j :=
  ⟨⟨witness_SuspendedGather.2.1, witness_SuspendedGather.1, witness_SuspendedGather.2.2⟩, by decide +kernel⟩

/-- T7 with an inactive element 1 whose index does not matter. -/
def exT7k : State := { exT7 with k := exT7.k.set 3 0xFD }

theorem witness_InactiveIndicesDoNotMatter_suspended :
    opsT7.dest ≠ opsT7.index ∧
      (∀ j < (Form.qd512).kl, isActive opsT7 exT7k j = true →
        getField (vec [0, 0x123456789, 0x1000, 3, 4, 0x2000, 6, 7]) (64 * j) 64 = indexElem opsT7 exT7k j) ∧
      FirstFault .qd512 opsT7 exT7k 2 (.pf 0 0x5000) :=
  ⟨by decide, by decide +kernel, (faulty_of _ _ _ _ _ (by decide +kernel)).2.2⟩

/-- A page fault; a non-canonical address through DS; the same through SS. -/
theorem witness_ElementFaultIsDelivered :
    (faulty .qd512 opsT7 exT7 2 (.pf 0 0x5000) = true ∧ exT7.interruptPending = false ∧ exT7.pendingTraps = []) ∧
    faulty .qd128 opsE1 (start opsE1 0x1000 [1, 2 ^ 60] 3) 1 .gp0 = true ∧
    faulty .qd128 { opsE1 with addr := .base 5 (.disp8 0) }
      (start { opsE1 with addr := .base 5 (.disp8 0) } 0x1000 [1, 2 ^ 60] 3) 1 .ss0 = true ∧
    exT7.dr7 = 0x400 := by decide +kernel

theorem witness_ElementFaultIsDelivered_noMatch (n : Fin 4) (la : Qword) : dataMatch exT7 n la = false :=
  no_match _ rfl n la

/-- T7 with element 2 the first active one, which faults: no element before it. -/
def exT7r : State := { exT7 with k := exT7.k.set 3 0xFC }

/-- T11: a trap pending; an interrupt pending; both; the same with no active element before the faulting one; nothing. -/
theorem witness_PendingEventInLieuOfFault :
    ∀ s ∈ [exT7, exT7r], ∀ b ∈ [false, true], ∀ p ∈ [[], [Trap.breakpoint 2, .singleStep]],
      let s' : State := { s with interruptPending := b, pendingTraps := p }
      Ready .qd512 opsT7 s' ∧ NoSideEffects .qd512 opsT7 s' ∧ FirstFault .qd512 opsT7 s' 2 (.pf 0 0x5000) := by
  have h : ∀ s ∈ [exT7, exT7r], ∀ b ∈ [false, true], ∀ p ∈ [[], [Trap.breakpoint 2, .singleStep]],
      faulty .qd512 opsT7 { s with interruptPending := b, pendingTraps := p } 2 (.pf 0 0x5000) = true := by decide +kernel
  exact fun s hs b hb p hp => faulty_of _ _ _ _ _ (h s hs b hb p hp)

/-- The second half of T11: a trap is pending and no element is done, so the page fault is delivered, CR2 written and the trap still
pending. -/
theorem test_fault_before_pending :
    let out := gatherWith noChoice .qd512 opsT7 { exT7r with pendingTraps := [.breakpoint 2] }
    (deliveredOf out).map Delivery.kind = some (.exception .pf) ∧ cr2Of out = some 0x5000 := by decide +kernel

/-- DR0 watches the dword at 1004H, which element 1 reads. -/
def exWatch : State := { exT7 with dr := exT7.dr.set 0 0x1004, dr7 := 0xF0401 }

theorem witness_DataBreakpointInLieuOfFault :
    faulty .qd512 opsT7 exWatch 2 (.pf 0 0x5000) = true ∧ exWatch.interruptPending = false ∧
      isActive opsT7 exWatch 1 = true ∧ 0 < (Form.qd512).elemBytes ∧
      dataMatch exWatch 0 (linear exWatch (segOf opsT7 exWatch) (effectiveAddress .qd512 opsT7 exWatch 1) 0) = true ∧
      exWatch.pendingTraps = [] ∧ ∀ m la, dataMatch exWatch m la = true → m = 0 := by
  refine ⟨by decide +kernel, by decide +kernel, by decide +kernel, by decide +kernel, by decide +kernel, rfl, fun m la h => ?_⟩
  have hb : ∀ m, bpEnabled exWatch m = true → m = 0 := by decide +kernel
  simp only [dataMatch, Bool.and_eq_true] at h
  exact hb m h.1.1

/-- Two elements active; none (S2). -/
theorem witness_InterruptedGather :
    ∀ s ∈ [exQd128, exEmpty], Ready .qd128 opsE1 { s with interruptPending := true } ∧
      ({ s with interruptPending := true } : State).interruptPending = true ∧
      AllReadable .qd128 opsE1 { s with interruptPending := true } := by
  have h : ∀ s ∈ [exQd128, exEmpty], readyB .qd128 opsE1 { s with interruptPending := true } = true ∧
      hitsSideEffect .qd128 opsE1 { s with interruptPending := true } = false ∧
      firstFault .qd128 opsE1 { s with interruptPending := true } = none := by decide +kernel
  exact fun s hs => ⟨ready_of _ _ _ (h s hs).1, rfl, (Laws.allReadable_iff _ _ _).2 (h s hs).2⟩

/-- T7's execution is a suspension by element 2, whatever the implementation chooses. -/
theorem exec_exT7 : exec (.vpgatherqdYmmVm64z opsT7) exT7 =
    .next (suspended (choicesOf .qd512 opsT7 exT7) .qd512 opsT7 exT7 2 (.pf 0 0x5000)) := by
  obtain ⟨h0, h1, h2, h3⟩ := witness_SuspendedGather
  exact (Laws.exec_eq_gather _ _).trans (Laws.gather_suspends _ _ _ _ _ h1 h0 h2 h3)

/-- T15's handler has mapped every byte that T7's elements read; two steps later. -/
def exMapped : State :=
  { exT7 with
    mem := memory ++ [(0x5000, 0xDD), (0x5001, 0xCC), (0x5002, 0xBB), (0x5003, 0xAA), (0x9000, 0x44), (0x9001, 0x33),
      (0x9002, 0x22), (0x9003, 0x11)]
    regions := [], oracle := [], clock := 2, interruptPending := false }

/-- T7 with an interrupt pending. -/
def exT7i : State := { exT7 with interruptPending := true }

/-- Whether or not an interrupt was pending, what T7 could read it reads as before, and now everything. -/
theorem exMapped_answers (s : State) (hs : s ∈ [exT7, exT7i]) :
    (∀ j < (Form.qd512).kl, isActive opsT7 s j = true → ∀ v,
      answer .qd512 opsT7 s j = .ok v → answer .qd512 opsT7 exMapped j = .ok v) ∧
      AllReadable .qd512 opsT7 exMapped := by
  refine ⟨fun j hj _ v hv => ?_, (Laws.allReadable_iff _ _ _).2 (by decide +kernel)⟩
  have h : ∀ s ∈ [exT7, exT7i], ∀ j < (Form.qd512).kl, answer .qd512 opsT7 s j = answer .qd512 opsT7 exMapped j ∨
      isOk .qd512 opsT7 s j = false := by decide +kernel
  rcases h s hs j hj with h | h
  · rw [← h, hv]
  · simp [isOk, hv] at h

theorem witness_ContinuationFinishesTheGather :
    ∃ t d, (Ready .qd512 opsT7 exT7 ∧ exT7.delivered = none) ∧
      exec (.vpgatherqdYmmVm64z opsT7) exT7 = .next t ∧ t.delivered = some d ∧
      (∀ j < (Form.qd512).kl, isActive opsT7 exT7 j = true → ∀ v, answer .qd512 opsT7 exT7 j = .ok v →
        answer .qd512 opsT7 exMapped j = .ok v) ∧
      AllReadable .qd512 opsT7 exMapped := by
  obtain ⟨-, h1, -, -⟩ := witness_SuspendedGather
  obtain ⟨d, hd, -⟩ := Laws.suspended_delivered (choicesOf .qd512 opsT7 exT7) .qd512 opsT7 exT7 2 (.pf 0 0x5000)
  exact ⟨_, d, ⟨h1, by decide +kernel⟩, exec_exT7, hd, exMapped_answers _ (.head _)⟩

/-- With an interrupt pending T7's gather is ended by it, whatever the implementation chooses. -/
theorem witness_ContinuationFinishesTheGather_interrupted :
    ∃ t d, (Ready .qd512 opsT7 exT7i ∧ exT7i.delivered = none) ∧
      exec (.vpgatherqdYmmVm64z opsT7) exT7i = .next t ∧ (t.delivered = some d ∧ d.kind = .interrupt) ∧
      (∀ j < (Form.qd512).kl, isActive opsT7 exT7i j = true → ∀ v, answer .qd512 opsT7 exT7i j = .ok v →
        answer .qd512 opsT7 exMapped j = .ok v) ∧
      AllReadable .qd512 opsT7 exMapped := by
  have hf : faulty .qd512 opsT7 exT7i 2 (.pf 0 0x5000) = true := by decide +kernel
  obtain ⟨h1, h2, h3⟩ := faulty_of _ _ _ _ _ hf
  have hg := (Laws.exec_eq_gather (.vpgatherqdYmmVm64z opsT7) exT7i).trans (Laws.gather_faults _ _ _ _ _ h1 h2 h3)
  rw [Laws.suspended_pending _ _ _ _ _ _ .interrupt (by decide +kernel) (by decide +kernel) (no_match _ rfl)] at hg
  split at hg <;>
    exact ⟨_, _, ⟨h1, by decide +kernel⟩, hg, ⟨rfl, rfl⟩, exMapped_answers _ (.tail _ (.head _))⟩

/-! ### Every outcome -/

/-- A completed execution (no mask bit left), and one that leaves element 2's bit. -/
theorem witness_MaskRecordsProgress :
    (∃ t, exec (.vpgatherqdXmmVm64x opsE1) exQd128 = .next t ∧ (exQd256.getMask 1).getLsbD 0 = false) ∧
      ∃ t, exec (.vpgatherqdYmmVm64z opsT7) exT7 = .next t ∧ (t.getMask 3).getLsbD 2 = true := by
  refine ⟨(next_of _ (by decide +kernel)).imp fun t h => ⟨h, by decide +kernel⟩, _, exec_exT7, ?_⟩
  have hb : isActive opsT7 exT7 2 = true := by decide +kernel
  generalize choicesOf .qd512 opsT7 exT7 = ch
  generalize exT7 = s at hb ⊢
  rw [Laws.suspended_frame]
  show (State.getMask (commit _ _ _ _ _ _) opsT7.mask).getLsbD 2 = true
  rw [Laws.commit_maskBit]
  have hd : ¬ (2 ∈ rightOf .qd512 opsT7 s 2 ++ leftOf ch .qd512 opsT7 s 2) := by
    rw [Laws.mem_suspended_done]
    omega
  have hm : (s.tick.getMask opsT7.mask).getLsbD 2 = true := hb
  simp [hd, hm, Form.kl]

theorem witness_WhatNeverChanges : ∃ t, exec (.vpgatherqdXmmVm64x opsE1) exQd128 = .next t :=
  next_of _ (by decide +kernel)

/-- Its CR2 clause: T7's page fault writes CR2, whatever the implementation chooses. -/
theorem witness_WhatNeverChanges_cr2 :
    exT7.cr2 = 0 ∧ ∃ t, exec (.vpgatherqdYmmVm64z opsT7) exT7 = .next t ∧ t.cr2 = 0x5000 := by
  refine ⟨by decide +kernel, _, exec_exT7, ?_⟩
  rw [Laws.suspended_fault _ _ _ _ _ _ (by decide +kernel) (no_match _ rfl)]
  rfl

/-- Its DR6 clause: T11's trap is delivered in lieu of that fault, and writes DR6. -/
theorem witness_WhatNeverChanges_dr6 :
    let s : State := { exT7 with pendingTraps := [.breakpoint 2] }
    s.dr6.getLsbD 2 = false ∧ ∃ t, exec (.vpgatherqdYmmVm64z opsT7) s = .next t ∧ t.dr6.getLsbD 2 = true := by
  obtain ⟨h1, h2, h3⟩ := faulty_of .qd512 opsT7 { exT7 with pendingTraps := [.breakpoint 2] } 2 (.pf 0 0x5000)
    (by decide +kernel)
  refine ⟨by decide +kernel, _, (Laws.exec_eq_gather _ _).trans (Laws.gather_suspends _ _ _ _ _ h1 rfl h2 h3), ?_⟩
  rw [Laws.suspended_pending _ _ _ _ _ _ (.trap (.breakpoint 2)) (by decide +kernel) (by decide +kernel) (no_match _ rfl)]
  show (exT7.dr6 ||| _).getLsbD 2 = true
  decide +kernel

theorem witness_RipMovesOnlyOnCompletion :
    exQd128.delivered = none ∧ ∃ t, exec (.vpgatherqdXmmVm64x opsE1) exQd128 = .next t :=
  ⟨by decide +kernel, next_of _ (by decide +kernel)⟩

/-- #UD is delivered. -/
theorem witness_NeverAlignmentCheck :
    exQd128.delivered = none ∧ ∃ t d, exec (.vpgatherqdXmmVm64x { opsE1 with mask := 0 }) exQd128 = .next t ∧
      t.delivered = some d := ⟨by decide +kernel, delivered_of _ (by decide +kernel)⟩

theorem witness_NoSimdFloatingPointException :
    exQd128.delivered = none ∧ ∃ t d, exec (.vpgatherqdXmmVm64x { opsE1 with mask := 0 }) exQd128 = .next t ∧
      t.delivered = some d := witness_NeverAlignmentCheck

end Sys2Proof.Tests
end

section
/-! The completed gather, beside the laws of the model: what it writes, and what its result depends on. -/

namespace Sys2Proof.Proofs

open Sys2Proof.Machine Sys2Proof.Laws

/-! ## Register files written twice -/

theorem setZmm_setZmm (s : State) (r : BitVec 5) (v w : VecWord) : (s.setZmm r v).setZmm r w = s.setZmm r w := by
  simp [State.setZmm]

theorem setMask_setMask (s : State) (r : BitVec 3) (m n : MaskWord) :
    (s.setMask r m).setMask r n = s.setMask r n := by
  simp [State.setMask]

theorem setZmm_comm (s : State) {r q : BitVec 5} (v w : VecWord) (h : r ≠ q) :
    (s.setZmm r v).setZmm q w = (s.setZmm q w).setZmm r v := by
  have hn : r.toNat ≠ q.toNat := fun e => h (BitVec.eq_of_toNat_eq e)
  simp only [State.setZmm, Vector.set_comm _ _ hn]

/-! ## Readiness -/

/-- Readiness looks at `rip`, the code size, the enabling state, the feature flags and CR0.TS only. -/
theorem ready_congr {f : Form} {o : Operands} {s s' : State} (h : Ready f o s) (hrip : s'.rip = s.rip)
    (hcode : s'.codeSize = s.codeSize) (hos : s'.osEnabled = s.osEnabled) (hf : s'.hasFeatures f = s.hasFeatures f)
    (hts : s'.ts = s.ts) : Ready f o s' := by
  have h64 : s'.mode64 = s.mode64 := by simp only [State.mode64, hcode]
  have hspace : spaceSize s' = spaceSize s := by simp only [spaceSize, h64]
  have hasize : asize o s' = asize o s := by simp only [asize, hcode]
  exact ⟨by rw [hrip, hspace]; exact h.fits, hasize ▸ h.addressSize, hos.trans h.enabled, hf.trans h.features, h.notK0,
    h.distinct, h64 ▸ h.registers, hts.trans h.notTs⟩

/-! ## Vector words -/

/-- A vector word is its elements and the bits above them. -/
theorem vecWord_eq_of_elems (f : Form) (z z' : VecWord)
    (helem : ∀ j < f.kl, getField z (f.es * j) f.es = getField z' (f.es * j) f.es)
    (hupper : ∀ n, f.dw ≤ n → z.getLsbD n = z'.getLsbD n) : z = z' := by
  apply BitVec.eq_of_getLsbD_eq
  intro n _
  by_cases hn : f.dw ≤ n
  · exact hupper n hn
  · have hj : n / f.es < f.kl := (Nat.div_lt_iff_lt_mul (es_pos f)).2 (Nat.lt_of_not_le hn)
    have hb : n % f.es < f.es := Nat.mod_lt _ (es_pos f)
    have hb64 : n % f.es < 64 := Nat.lt_of_lt_of_le hb (es_le f)
    have h := congrArg (fun v : Qword => v.getLsbD (n % f.es)) (helem _ hj)
    simpa only [getLsbD_getField, hb, hb64, decide_true, Bool.true_and, Nat.div_add_mod] using h

/-! ## The completed result -/

/-- A commit writes the destination, the mask and the pending traps. -/
theorem commit_eq (f : Form) (o : Operands) (done : List Nat) (zd zk : Bool) (s : State) :
    commit f o done zd zk s =
      { (s.setZmm o.dest ((commit f o done zd zk s).getZmm o.dest)).setMask o.mask
          ((commit f o done zd zk s).getMask o.mask) with
        pendingTraps := (commit f o done zd zk s).pendingTraps } := by
  rw [commit_getZmm, if_pos rfl, commit_getMask, if_pos rfl]
  rfl

/-- R87: a completed gather writes the destination, clears the mask, moves `rip` and adds traps. -/
theorem completed_eq (f : Form) (o : Operands) (s : State) :
    completed f o s =
      { (s.setZmm o.dest ((completed f o s).getZmm o.dest)).setMask o.mask 0 with
        rip := (completed f o s).rip, pendingTraps := (completed f o s).pendingTraps } := by
  conv_lhs => rw [completed, commit_eq, commit_active_mask]
  rfl

theorem completed_mask (f : Form) (o : Operands) (s : State) : (completed f o s).getMask o.mask = 0 :=
  commit_active_mask f o true s

theorem completed_rip (f : Form) (o : Operands) (s : State) :
    (completed f o s).rip = truncW s (s.rip + BitVec.ofNat 64 o.ilen) := rfl

theorem completed_trapsAdded (f : Form) (o : Operands) (s : State) :
    TrapsAdded f o (active f o s) s (completed f o s).pendingTraps :=
  commit_trapsAdded f o _ true true s

/-- An element of the destination of a completed gather. -/
theorem completed_elem (f : Form) (o : Operands) (s : State) (hr : AllReadable f o s) (j : Nat) (hj : j < f.kl) :
    getField ((completed f o s).getZmm o.dest) (f.es * j) f.es =
      if isActive o s j = true then elemValue f o s j else getField (s.getZmm o.dest) (f.es * j) f.es := by
  have hmem : j ∈ active f o s ↔ isActive o s j = true := by rw [mem_active, and_iff_right hj]
  have h := commit_elem f o (active f o s) true true s j hj fun h => (isOk_iff f o s j).2 (hr j hj (hmem.1 h))
  simp only [hmem] at h
  exact h

/-- The bits of the destination above the elements of a completed gather. -/
theorem completed_upper (f : Form) (o : Operands) (s : State) (n : Nat) (hn : f.dw ≤ n) :
    ((completed f o s).getZmm o.dest).getLsbD n = false :=
  commit_upper f o (active f o s) true true s n hn fun j hj => ((mem_active f o s j).1 hj).1

theorem completed_gathered (f : Form) (o : Operands) (s : State) (hr : AllReadable f o s) :
    Gathered f f.elemBytes f.es f.kl o s (completed f o s) where
  actives j hj ha v hv := by
    rw [completed_elem f o s hr j hj, if_pos ha]
    exact elemValue_of_ok f o s j v hv
  inactives j hj ha := by simp [completed_elem f o s hr j hj, ha]
  upper := completed_upper f o s
  mask := completed_mask f o s
  rip := completed_rip f o s

/-- R87 at the dispatch: a ready instruction whose active elements are all readable completes. -/
theorem exec_completes (i : Instr) (s : State) (h : Ready i.form i.ops s) (hi : s.interruptPending = false)
    (hr : AllReadable i.form i.ops s) : exec i s = .next (completed i.form i.ops s) :=
  (exec_eq_gather i s).trans (gather_completes _ _ _ h hi hr)

/-! ## What the completed result depends on -/

/-- Two states that agree on everything a gather reads to complete: what the oracle reads, the debug registers, the
elements' addresses, which elements are active, and the inactive ones. -/
structure SameGather (f : Form) (o : Operands) (s s' : State) : Prop extends SameAccess s s' where
  dr : s.dr = s'.dr
  dr7 : s.dr7 = s'.dr7
  rip : s.rip = s'.rip
  pendingTraps : s.pendingTraps = s'.pendingTraps
  actives : ∀ j < f.kl, isActive o s j = isActive o s' j
  base : truncA (asize o s) (baseValue o s) = truncA (asize o s) (baseValue o s')
  index : ∀ j < f.kl, isActive o s j = true →
    truncA (asize o s) (indexElem o s j) = truncA (asize o s) (indexElem o s' j)
  kept : ∀ j < f.kl, isActive o s j = false →
    getField (s.getZmm o.dest) (f.es * j) f.es = getField (s'.getZmm o.dest) (f.es * j) f.es

section

variable {f : Form} {o : Operands} {s s' : State}

theorem SameGather.answer_eq (h : SameGather f o s s') {j : Nat} (hj : j < f.kl) (ha : isActive o s j = true) :
    answer f o s j = answer f o s' j :=
  (answer_congr h.toSameAccess f o j h.base (h.index j hj ha)).1

theorem SameGather.effectiveAddress_eq (h : SameGather f o s s') {j : Nat} (hj : j < f.kl)
    (ha : isActive o s j = true) : effectiveAddress f o s j = effectiveAddress f o s' j :=
  (answer_congr h.toSameAccess f o j h.base (h.index j hj ha)).2

theorem SameGather.active_eq (h : SameGather f o s s') : active f o s = active f o s' :=
  List.filter_congr fun j hj => h.actives j (List.mem_range.1 hj)

theorem SameGather.allReadable (h : SameGather f o s s') (hr : AllReadable f o s) : AllReadable f o s' := by
  intro j hj ha
  have ha' := (h.actives j hj).trans ha
  exact h.answer_eq hj ha' ▸ hr j hj ha'

theorem SameGather.firstFault (h : SameGather f o s s') {j0 : Nat} {e : AccessFault} (hf : FirstFault f o s j0 e) :
    FirstFault f o s' j0 e := by
  obtain ⟨hj0, ha0, he, hbelow⟩ := hf
  refine ⟨hj0, (h.actives j0 hj0).symm.trans ha0, (h.answer_eq hj0 ha0).symm.trans he, fun j hj ha => ?_⟩
  have hjk := Nat.lt_trans hj hj0
  have ha' := (h.actives j hjk).trans ha
  exact h.answer_eq hjk ha' ▸ hbelow j hj ha'

theorem SameGather.dataTraps_eq (h : SameGather f o s s') (las : List Qword) : dataTraps s las = dataTraps s' las := by
  have hm : dataMatch s = dataMatch s' := by
    rw [show dataMatch s' = dataMatch { s with dr := s'.dr, dr7 := s'.dr7 } from rfl, ← h.dr, ← h.dr7]
  simp only [dataTraps, hm]

theorem SameGather.elemBytesOf_eq (h : SameGather f o s s') :
    elemBytesOf f o s (active f o s) = elemBytesOf f o s' (active f o s') := by
  rw [← h.active_eq]
  refine List.flatMap_congr fun j hj => List.map_congr_left fun b _ => ?_
  obtain ⟨hjk, ha⟩ := (mem_active f o s j).1 hj
  rw [h.linear, h.segOf, h.effectiveAddress_eq hjk ha]

theorem SameGather.completed_dest (h : SameGather f o s s') (hr : AllReadable f o s) :
    (completed f o s).getZmm o.dest = (completed f o s').getZmm o.dest := by
  refine vecWord_eq_of_elems f _ _ (fun j hj => ?_) fun n hn => by simp only [completed_upper _ _ _ n hn]
  rw [completed_elem f o s hr j hj, completed_elem f o s' (h.allReadable hr) j hj, ← h.actives j hj]
  by_cases ha : isActive o s j = true
  · simp only [ha, if_true, elemValue, h.answer_eq hj ha]
  · rw [if_neg ha, if_neg ha, h.kept j hj (by simpa using ha)]

/-- Two such states complete with the same result. -/
theorem SameGather.completed_eq (h : SameGather f o s s') (hr : AllReadable f o s) :
    completed f o s' =
      { (s'.setZmm o.dest ((completed f o s).getZmm o.dest)).setMask o.mask 0 with
        rip := (completed f o s).rip, pendingTraps := (completed f o s).pendingTraps } := by
  have hrip : (completed f o s).rip = (completed f o s').rip := by
    simp only [completed_rip, truncW, h.rip, h.mode64]
  have htraps : (completed f o s).pendingTraps = (completed f o s').pendingTraps := by
    show Trap.union _ _ = Trap.union _ _
    rw [h.pendingTraps, h.dataTraps_eq, h.elemBytesOf_eq]
  rw [h.completed_dest hr, hrip, htraps]
  exact Proofs.completed_eq f o s'

end

end Sys2Proof.Proofs
end

section
/-! Completed gathers: the settled statements. -/

namespace Sys2Proof.Proofs

open Sys2Proof.Machine Sys2Proof.Laws

/-! ## Completion (40 R87, R95; 41; 42) -/

/-- Settles O27: the state is `completed`, whose destination, mask, `rip` and traps are known. -/
theorem completedGather : Obligations.CompletedGather := by
  unfold Obligations.CompletedGather
  intro i s h hi hr
  refine ⟨_, exec_completes i s h hi hr, completed_gathered _ _ s hr, ?_, completed_trapsAdded _ _ s⟩
  exact completed_eq i.form i.ops s

/-- One form completes, with its own constants. -/
theorem formCompletes (mk : Operands → Instr) (f : Form) (hform : ∀ o, (mk o).form = f) (hops : ∀ o, (mk o).ops = o) :
    FormCompletes mk f f.elemBytes f.es f.kl := by
  intro o s h hi hr
  have hexec := exec_completes (mk o) s (by rwa [hform, hops]) hi (by rwa [hform, hops])
  rw [hform, hops] at hexec
  exact ⟨_, hexec, completed_gathered f o s hr⟩

/-- Settles O28: the three dword forms, each with the constants of its row. -/
theorem vpgatherqdCompletes : Obligations.VpgatherqdCompletes := by
  unfold Obligations.VpgatherqdCompletes
  exact ⟨formCompletes _ .qd128 (fun _ => rfl) fun _ => rfl, formCompletes _ .qd256 (fun _ => rfl) fun _ => rfl,
    formCompletes _ .qd512 (fun _ => rfl) fun _ => rfl⟩

/-- Settles O29: the three qword forms, each with the constants of its row. -/
theorem vpgatherqqCompletes : Obligations.VpgatherqqCompletes := by
  unfold Obligations.VpgatherqqCompletes
  exact ⟨formCompletes _ .qq128 (fun _ => rfl) fun _ => rfl, formCompletes _ .qq256 (fun _ => rfl) fun _ => rfl,
    formCompletes _ .qq512 (fun _ => rfl) fun _ => rfl⟩

theorem active_eq_nil (f : Form) (o : Operands) (s : State) (h : ∀ j < f.kl, isActive o s j = false) :
    active f o s = [] := by
  refine List.eq_nil_iff_forall_not_mem.2 fun j hj => ?_
  obtain ⟨hk, ha⟩ := (mem_active f o s j).1 hj
  simp [h j hk] at ha

theorem completed_dest_of_noActive (f : Form) (o : Operands) (s : State) (h : active f o s = []) :
    (completed f o s).getZmm o.dest = zeroFrom (s.getZmm o.dest) f.dw := by
  show (commit f o (active f o s) true true s).getZmm o.dest = _
  rw [h, commit_getZmm, if_pos rfl]
  rfl

theorem completed_pendingTraps_of_noActive (f : Form) (o : Operands) (s : State) (h : active f o s = []) :
    (completed f o s).pendingTraps = s.pendingTraps := by
  show (commit f o (active f o s) true true s).pendingTraps = _
  rw [h, commit_pendingTraps, elemBytesOf, List.flatMap_nil, dataTraps_nil, union_nil]

/-- Settles O30: with no active element every active element is readable, whatever memory and the oracle hold. -/
theorem emptyMaskCompletes : Obligations.EmptyMaskCompletes := by
  unfold Obligations.EmptyMaskCompletes
  intro i s mem regions oracle h hi hm
  generalize hs' : { s with mem := mem, regions := regions, oracle := oracle } = s'
  have hready : Ready i.form i.ops s' := by subst hs'; exact ready_congr h rfl rfl rfl rfl rfl
  have hm' : ∀ j < i.form.kl, isActive i.ops s' j = false := by subst hs'; exact hm
  have hr : AllReadable i.form i.ops s' := fun j hj ha => by simp [hm' j hj] at ha
  have hact := active_eq_nil i.form i.ops s' hm'
  refine ⟨(completed i.form i.ops s').getZmm i.ops.dest, ?_, fun n => ?_⟩
  · rw [exec_completes i s' hready (by subst hs'; exact hi) hr]
    refine congrArg _ ((completed_eq i.form i.ops s').trans ?_)
    rw [completed_pendingTraps_of_noActive _ _ _ hact, completed_rip]
    subst hs'
    rfl
  · rw [completed_dest_of_noActive _ _ _ hact, getLsbD_zeroFrom, Bool.and_comm]
    subst hs'
    rfl

/-! ## What a completed gather does not depend on (40 R83, R94; T17) -/

@[simp] theorem indexElem_setZmm_index (o : Operands) (s : State) (z : VecWord) (j : Nat) :
    indexElem o (s.setZmm o.index z) j = getField z (64 * j) 64 := by
  rw [indexElem, getZmm_setZmm_same]

/-- Another index register with the same truncated active indices. -/
theorem sameGather_setZmm_index (f : Form) (o : Operands) (s : State) (z : VecWord) (hd : o.dest ≠ o.index)
    (hz : ∀ j < f.kl, isActive o s j = true →
      truncA (asize o s) (indexElem o s j) = truncA (asize o s) (getField z (64 * j) 64)) :
    SameGather f o s (s.setZmm o.index z) where
  toSameAccess := by constructor <;> rfl
  dr := rfl
  dr7 := rfl
  rip := rfl
  pendingTraps := rfl
  actives _ _ := rfl
  base := rfl
  index j hj ha := by rw [indexElem_setZmm_index, hz j hj ha]
  kept _ _ _ := by rw [getZmm_setZmm, if_neg hd]

/-- Such a gather completes with the same result beside the index register itself. -/
theorem exec_setZmm_index (i : Instr) (s : State) (z : VecWord) (h : Ready i.form i.ops s)
    (hi : s.interruptPending = false) (hr : AllReadable i.form i.ops s)
    (hz : ∀ j < i.form.kl, isActive i.ops s j = true →
      truncA (asize i.ops s) (indexElem i.ops s j) = truncA (asize i.ops s) (getField z (64 * j) 64)) :
    exec i (s.setZmm i.ops.index z) = .next ((completed i.form i.ops s).setZmm i.ops.index z) := by
  have hsame := sameGather_setZmm_index i.form i.ops s z h.distinct hz
  rw [exec_completes i (s.setZmm i.ops.index z) (ready_congr h rfl rfl rfl rfl rfl) hi (hsame.allReadable hr),
    hsame.completed_eq hr, setZmm_comm s _ _ h.distinct.symm]
  exact congrArg (fun t : State => Host.Outcome.next (t.setZmm i.ops.index z)) (completed_eq i.form i.ops s).symm

/-- Settles O31: the elements' addresses use active index elements only. -/
theorem inactiveIndicesDoNotMatter : Obligations.InactiveIndicesDoNotMatter := by
  unfold Obligations.InactiveIndicesDoNotMatter
  intro i s z hd hz
  have hz' : ∀ j < i.form.kl, isActive i.ops s j = true →
      truncA (asize i.ops s) (indexElem i.ops s j) = truncA (asize i.ops s) (getField z (64 * j) 64) :=
    fun j hj ha => by rw [hz j hj ha]
  exact ⟨fun j0 e hf => (sameGather_setZmm_index i.form i.ops s z hd hz').firstFault hf,
    fun h hi hr => ⟨_, exec_completes i s h hi hr, exec_setZmm_index i s z h hi hr hz'⟩⟩

/-- Another destination and mask with the same inactive elements and the same bits below `KL`. -/
theorem sameGather_setZmm_dest_setMask (f : Form) (o : Operands) (s : State) (z : VecWord) (m : MaskWord)
    (hd : o.dest ≠ o.index) (hm : ∀ j < f.kl, m.getLsbD j = isActive o s j)
    (hz : ∀ j < f.kl, isActive o s j = false →
      getField z (f.es * j) f.es = getField (s.getZmm o.dest) (f.es * j) f.es) :
    SameGather f o s ((s.setZmm o.dest z).setMask o.mask m) where
  toSameAccess := by constructor <;> rfl
  dr := rfl
  dr7 := rfl
  rip := rfl
  pendingTraps := rfl
  actives j hj := by rw [← hm j hj, isActive, getMask_setMask_same]
  base := rfl
  index j _ _ := by rw [indexElem, indexElem, getZmm_setMask, getZmm_setZmm, if_neg hd.symm]
  kept j hj ha := by rw [getZmm_setMask, getZmm_setZmm_same, hz j hj ha]

/-- Settles O32: the result overwrites everything in which the two states differ. -/
theorem overwrittenPartsDoNotMatter : Obligations.OverwrittenPartsDoNotMatter := by
  unfold Obligations.OverwrittenPartsDoNotMatter
  intro i s z m h hi hr hm hz
  have hsame := sameGather_setZmm_dest_setMask i.form i.ops s z m h.distinct hm hz
  refine ⟨_, exec_completes i s h hi hr, ?_⟩
  rw [exec_completes i ((s.setZmm i.ops.dest z).setMask i.ops.mask m) (ready_congr h rfl rfl rfl rfl rfl) hi
    (hsame.allReadable hr), hsame.completed_eq hr]
  refine congrArg _ (Eq.trans ?_ (completed_eq i.form i.ops s).symm)
  have hover (w : VecWord) : (((s.setZmm i.ops.dest z).setMask i.ops.mask m).setZmm i.ops.dest w).setMask i.ops.mask 0 =
      (s.setZmm i.ops.dest w).setMask i.ops.mask 0 := by
    show (((s.setZmm i.ops.dest z).setZmm i.ops.dest w).setMask i.ops.mask m).setMask i.ops.mask 0 = _
    rw [setMask_setMask, setZmm_setZmm]
  rw [hover]

theorem truncA_a32_congr {v w : Qword} (h : v.setWidth 32 = w.setWidth 32) : truncA .a32 v = truncA .a32 w := by
  simp only [truncA, h]

/-- Another base register with the same truncated base. -/
theorem sameGather_setGpr_base (f : Form) (o : Operands) (s : State) (r : BitVec 4) (d : Disp) (b : GprWord)
    (haddr : o.addr = .base r d) (hb : truncA (asize o s) (s.getGpr r) = truncA (asize o s) b) :
    SameGather f o s (s.setGpr r b) where
  toSameAccess := by constructor <;> rfl
  dr := rfl
  dr7 := rfl
  rip := rfl
  pendingTraps := rfl
  actives _ _ := rfl
  base := by simpa [baseValue, haddr, getGpr_setGpr] using hb
  index _ _ _ := rfl
  kept _ _ _ := rfl

/-- Settles O33: with a 32-bit address size base and indices enter the address truncated. -/
theorem highHalvesDoNotMatter : Obligations.HighHalvesDoNotMatter := by
  unfold Obligations.HighHalvesDoNotMatter
  intro i s z h hi hr ha32 hz
  have hz' : ∀ j < i.form.kl, isActive i.ops s j = true →
      truncA (asize i.ops s) (indexElem i.ops s j) = truncA (asize i.ops s) (getField z (64 * j) 64) :=
    fun j hj _ => by rw [ha32, truncA_a32_congr (hz j hj)]
  refine ⟨_, exec_completes i s h hi hr, exec_setZmm_index i s z h hi hr hz', fun r d b haddr hb => ?_⟩
  have hsame := sameGather_setGpr_base i.form i.ops s r d b haddr (by rw [ha32, truncA_a32_congr hb])
  have hcompleted : completed i.form i.ops (s.setGpr r b) = (completed i.form i.ops s).setGpr r b :=
    (hsame.completed_eq hr).trans (congrArg (State.setGpr · r b) (completed_eq i.form i.ops s).symm)
  rw [← hcompleted]
  exact exec_setZmm_index i (s.setGpr r b) z (ready_congr h rfl rfl rfl rfl rfl) hi (hsame.allReadable hr) hz'

end Sys2Proof.Proofs
end

section
/-! Every outcome of an execution, and the gathers that end early: the settled statements. -/

namespace Sys2Proof.Proofs

open Sys2Proof.Machine Sys2Proof.Laws

/-! ## The free choices drawn do not enter the answers -/

theorem answer_freeCount (f : Form) (o : Operands) (s : State) (n j : Nat) :
    answer f o { s with freeCount := n } j = answer f o s j := by
  have h : SameAccess { s with freeCount := n } s := by constructor <;> rfl
  exact (answer_congr h f o j rfl rfl).1

theorem elemValue_tick (f : Form) (o : Operands) (s : State) (j : Nat) :
    elemValue f o s.tick j = elemValue f o s j := by
  simp only [elemValue, State.tick, answer_freeCount]

theorem isOk_tick (f : Form) (o : Operands) (s : State) (j : Nat) : isOk f o s.tick j = isOk f o s j := by
  simp only [isOk, State.tick, answer_freeCount]

theorem allReadable_freeCount {f : Form} {o : Operands} {s : State} (n : Nat) (h : AllReadable f o s) :
    AllReadable f o { s with freeCount := n } :=
  fun j hj ha => (h j hj ha).imp fun _ hv => (answer_freeCount f o s n j).trans hv

/-! ## What an event leaves (60 R134, R135) -/

/-- Only a page fault writes CR2. -/
theorem takeEvent_cr2_cases (ev : Event) (s : State) :
    (takeEvent ev s).cr2 = s.cr2 ∨ ∃ d, (takeEvent ev s).delivered = some d ∧ d.kind = .exception .pf := by
  cases ev with
  | elementFault f ea e =>
    cases e with
    | pf c la => exact .inr ⟨_, rfl, rfl⟩
    | gp0 => exact .inl rfl
    | ss0 => exact .inl rfl
  | _ => exact .inl rfl

/-- Only a debug exception writes DR6. -/
theorem takeEvent_dr6_cases (ev : Event) (s : State) :
    (takeEvent ev s).dr6 = s.dr6 ∨ ∃ d, (takeEvent ev s).delivered = some d ∧ d.kind = .exception .db := by
  cases ev with
  | instructionBreakpoint hits => exact .inr ⟨_, rfl, rfl⟩
  | trapInLieu t => exact .inr ⟨_, rfl, rfl⟩
  | trapAfter t => exact .inr ⟨_, rfl, rfl⟩
  | _ => exact .inl rfl

/-- An event taken in lieu of a fault saves a flags image with RF set. -/
theorem deliverPending_inLieu (p : Pending) (s : State) :
    ∃ ev pend intr, Event.setsRf ev = true ∧
      deliverPending true p s = takeEvent ev { s with pendingTraps := pend, interruptPending := intr } := by
  cases p with
  | trap x => exact ⟨.trapInLieu x, s.pendingTraps.erase x, s.interruptPending, rfl, rfl⟩
  | interrupt => exact ⟨.interrupt, s.pendingTraps, false, rfl, rfl⟩

/-! ## Gathers that end early (40 R88, R92) -/

/-- A gather ended early by an event, with exactly the elements of `done` completed. -/
def EndedEarly (f : Form) (o : Operands) (done : List Nat) (zd zk : Bool) (s t : State) : Prop :=
  ∃ ev pend intr, Event.setsRf ev = true ∧
    t = takeEvent ev { commit f o done zd zk s.tick with pendingTraps := pend, interruptPending := intr }

theorem suspended_endedEarly (ch : Choices) (f : Form) (o : Operands) (s : State) (j0 : Nat) (e : AccessFault) :
    EndedEarly f o (rightOf f o s j0 ++ leftOf ch f o s j0) ch.zd ch.zk s (suspended ch f o s j0 e) := by
  rcases suspended_cases ch f o s j0 e with ⟨-, h⟩ | ⟨-, -, h⟩
  · exact ⟨.elementFault j0 (effectiveAddress f o s j0) e, _, _, rfl, h⟩
  · rw [h]
    exact deliverPending_inLieu _ _

/-- The elements an interrupted gather has completed (40 R92). -/
def interruptedDone (ch : Choices) (f : Form) (o : Operands) (s : State) : List Nat :=
  (active f o s).filter fun j => isOk f o s j && ch.done.getLsbD j

theorem interrupted_endedEarly (ch : Choices) (f : Form) (o : Operands) (s : State) :
    EndedEarly f o (interruptedDone ch f o s) ch.zd ch.zk s (interrupted ch f o s) :=
  deliverPending_inLieu .interrupt (commit f o (interruptedDone ch f o s) ch.zd ch.zk s.tick)

theorem mem_interruptedDone (ch : Choices) (f : Form) (o : Operands) (s : State) (j : Nat) :
    j ∈ interruptedDone ch f o s ↔ j ∈ active f o s ∧ isOk f o s j = true ∧ ch.done.getLsbD j = true := by
  simp only [interruptedDone, List.mem_filter, Bool.and_eq_true]

theorem active_of_mem_suspended_done {ch : Choices} {f : Form} {o : Operands} {s : State} {j0 j : Nat}
    (h : j ∈ rightOf f o s j0 ++ leftOf ch f o s j0) : j ∈ active f o s :=
  (mem_active f o s j).2 ((mem_suspended_done ch f o s j0 j).1 h).1

/-- The elements a suspended gather completes were read. -/
theorem isOk_of_mem_suspended_done {ch : Choices} {f : Form} {o : Operands} {s : State} {j0 j : Nat} {e : AccessFault}
    (hff : FirstFault f o s j0 e) (h : j ∈ rightOf f o s j0 ++ leftOf ch f o s j0) : isOk f o s j = true := by
  obtain ⟨-, -, -, hbelow⟩ := hff
  obtain ⟨⟨-, ha⟩, hlt | ⟨-, hok, -⟩⟩ := (mem_suspended_done ch f o s j0 j).1 h
  · exact (isOk_iff f o s j).2 (hbelow j hlt ha)
  · exact hok

/-- The state a gather ended early leaves (40 R88, R90). -/
theorem EndedEarly.partlyGathered {f : Form} {o : Operands} {done : List Nat} {zd zk : Bool} {s t : State}
    (h : EndedEarly f o done zd zk s t) (hact : ∀ j ∈ done, j ∈ active f o s) (hok : ∀ j ∈ done, isOk f o s j = true) :
    PartlyGathered f o done zd zk s t := by
  obtain ⟨ev, pend, intr, -, rfl⟩ := h
  have hlt : ∀ j ∈ done, j < f.kl := fun j hj => ((mem_active f o s j).1 (hact j hj)).1
  have helem (j : Nat) (hj : j < f.kl) :=
    commit_elem f o done zd zk s.tick j hj fun hd => (isOk_tick f o s j).trans (hok j hd)
  have hmask (j : Nat) : ((commit f o done zd zk s.tick).getMask o.mask).getLsbD j =
      ((s.getMask o.mask).getLsbD j && decide (j ∉ done) && (!zk || decide (j < f.kl))) :=
    commit_maskBit f o done zd zk s.tick j
  refine ⟨fun j hj v hv => ⟨?_, ?_⟩, fun j hj hn => ⟨?_, ?_⟩, fun n hn => ?_, fun n hn => ?_, rfl⟩
  · exact (helem j (hlt j hj)).trans ((if_pos hj).trans ((elemValue_tick f o s j).trans (elemValue_of_ok f o s j v hv)))
  · exact (hmask j).trans (by simp [hj])
  · exact (helem j hj).trans (if_neg hn)
  · exact (hmask j).trans (by simp [hj, hn])
  · exact commit_upper f o done zd zk s.tick n hn hlt
  · have hnd : n ∉ done := fun hd => absurd (hlt n hd) (by omega)
    exact (hmask n).trans (by simp [hnd, Nat.not_lt.2 hn, Bool.and_comm])

/-! ## What an execution can do -/

/-- Every outcome of an execution that answers a next state: refused with an event, ended early, or completed. -/
theorem exec_cases {i : Instr} {s t : State} (h : exec i s = .next t) :
    (∃ ev, Event.setsRf ev = true ∧ t = takeEvent ev s) ∨
    (∃ done zd zk, (∀ j ∈ done, j ∈ active i.form i.ops s) ∧ EndedEarly i.form i.ops done zd zk s t) ∨
    (AllReadable i.form i.ops s ∧ ∃ n, t = completed i.form i.ops { s with freeCount := n }) := by
  rw [exec_eq_gather] at h
  rcases gatherWith_cases _ _ _ _ _ h with ⟨-, ht⟩ | ⟨-, -, ht⟩ | ⟨-, ht⟩ | ⟨j0, e, -, ht⟩ | ⟨hr, ht⟩
  · exact .inl ⟨_, rfl, ht⟩
  · exact .inl ⟨_, rfl, ht⟩
  · exact .inr (.inl ⟨_, _, _, fun j hj => ((mem_interruptedDone _ _ _ _ j).1 hj).1,
      ht ▸ interrupted_endedEarly _ _ _ _⟩)
  · exact .inr (.inl ⟨_, _, _, fun j hj => active_of_mem_suspended_done hj, ht ▸ suspended_endedEarly _ _ _ _ _ _⟩)
  · refine .inr (.inr ⟨hr, ?_⟩)
    split at ht
    · exact ⟨s.freeCount + 1, ht⟩
    · exact ⟨s.freeCount, ht⟩

/-- Everything an execution leaves unchanged. -/
theorem exec_frame {i : Instr} {s t : State} (h : exec i s = .next t) :
    t = { s with
      zmm := t.zmm, k := t.k, rip := t.rip, cr2 := t.cr2, dr6 := t.dr6, pendingTraps := t.pendingTraps
      interruptPending := t.interruptPending, delivered := t.delivered, freeCount := t.freeCount } := by
  rcases exec_cases h with ⟨ev, -, rfl⟩ | ⟨done, zd, zk, -, ev, pend, intr, -, rfl⟩ | ⟨-, n, rfl⟩ <;> rfl

theorem exec_getZmm {i : Instr} {s t : State} (h : exec i s = .next t) {r : BitVec 5} (hr : r ≠ i.ops.dest) :
    t.getZmm r = s.getZmm r := by
  rcases exec_cases h with ⟨ev, -, rfl⟩ | ⟨done, zd, zk, -, ev, pend, intr, -, rfl⟩ | ⟨-, n, rfl⟩
  · rfl
  · exact (commit_getZmm i.form i.ops done zd zk s.tick r).trans (if_neg hr)
  · exact (commit_getZmm i.form i.ops _ true true { s with freeCount := n } r).trans (if_neg hr)

theorem exec_getMask {i : Instr} {s t : State} (h : exec i s = .next t) {r : BitVec 3} (hr : r ≠ i.ops.mask) :
    t.getMask r = s.getMask r := by
  rcases exec_cases h with ⟨ev, -, rfl⟩ | ⟨done, zd, zk, -, ev, pend, intr, -, rfl⟩ | ⟨-, n, rfl⟩
  · rfl
  · exact (commit_getMask i.form i.ops done zd zk s.tick r).trans (if_neg hr)
  · exact (commit_getMask i.form i.ops _ true true { s with freeCount := n } r).trans (if_neg hr)

theorem exec_cr2_cases {i : Instr} {s t : State} (h : exec i s = .next t) :
    t.cr2 = s.cr2 ∨ ∃ d, t.delivered = some d ∧ d.kind = .exception .pf := by
  rcases exec_cases h with ⟨ev, -, rfl⟩ | ⟨done, zd, zk, -, ev, pend, intr, -, rfl⟩ | ⟨-, n, rfl⟩
  · exact takeEvent_cr2_cases ev s
  · exact takeEvent_cr2_cases ev _
  · exact .inl rfl

theorem exec_dr6_cases {i : Instr} {s t : State} (h : exec i s = .next t) :
    t.dr6 = s.dr6 ∨ ∃ d, t.delivered = some d ∧ d.kind = .exception .db := by
  rcases exec_cases h with ⟨ev, -, rfl⟩ | ⟨done, zd, zk, -, ev, pend, intr, -, rfl⟩ | ⟨-, n, rfl⟩
  · exact takeEvent_dr6_cases ev s
  · exact takeEvent_dr6_cases ev _
  · exact .inl rfl

/-- Settles O44: the frame of an execution, clause by clause. -/
theorem whatNeverChanges : Obligations.WhatNeverChanges := by
  unfold Obligations.WhatNeverChanges
  intro i s t h
  have hzmm := fun r => exec_getZmm h (r := r)
  have hmask := fun r => exec_getMask h (r := r)
  have hcr2 := exec_cr2_cases h
  have hdr6 := exec_dr6_cases h
  rw [exec_frame h]
  exact ⟨hzmm, hmask, rfl, rfl, rfl, rfl, rfl, rfl, rfl, rfl, rfl, rfl, rfl, rfl,
    rfl, rfl, rfl, rfl, hcr2, hdr6, rfl, rfl, rfl, rfl, rfl, rfl, rfl, fun _ => rfl⟩

/-- Settles O43: only elements that are done lose their mask bit or change, and those were active. -/
theorem maskRecordsProgress : Obligations.MaskRecordsProgress := by
  unfold Obligations.MaskRecordsProgress
  intro i s t h j hj
  rcases exec_cases h with ⟨ev, -, rfl⟩ | ⟨done, zd, zk, hact, ev, pend, intr, -, rfl⟩ | ⟨hr, n, rfl⟩
  · exact ⟨fun hb => ⟨hb, rfl⟩, fun _ => rfl⟩
  · have hkept (hn : j ∉ done) :
        getField ((commit i.form i.ops done zd zk s.tick).getZmm i.ops.dest) (i.form.es * j) i.form.es =
          getField (s.getZmm i.ops.dest) (i.form.es * j) i.form.es :=
      (commit_elem i.form i.ops done zd zk s.tick j hj fun hd => absurd hd hn).trans (if_neg hn)
    refine ⟨fun hb => ?_, fun hb => hkept fun hd => ?_⟩
    · have hbit := (commit_maskBit i.form i.ops done zd zk s.tick j).symm.trans hb
      simp only [Bool.and_eq_true, decide_eq_true_eq] at hbit
      obtain ⟨⟨hs, hn⟩, -⟩ := hbit
      exact ⟨hs, hkept hn⟩
    · have ha : (s.getMask i.ops.mask).getLsbD j = true := ((mem_active _ _ _ j).1 (hact j hd)).2
      exact absurd ha (by simp [hb])
  · refine ⟨fun hb => ?_, fun hb => ?_⟩
    · rw [completed_mask] at hb
      simp at hb
    · refine (completed_elem i.form i.ops { s with freeCount := n } (allReadable_freeCount n hr) j hj).trans (if_neg ?_)
      exact Bool.eq_false_iff.1 hb

/-! ## Suspended gathers (40 R88 to R91) -/

theorem mem_pendings_of_quiet {s : State} (hi : s.interruptPending = false) {p : Pending} (hp : p ∈ pendings s) :
    ∃ x ∈ s.pendingTraps, p = .trap x := by
  cases p with
  | trap x => exact ⟨x, (trap_mem_pendings s x).1 hp, rfl⟩
  | interrupt =>
    have hi' := (interrupt_mem_pendings s).1 hp
    simp [hi] at hi'

/-- What a suspended gather delivers with no interrupt pending. -/
theorem suspended_delivers (ch : Choices) (f : Form) (o : Operands) (s : State) (j0 : Nat) (e : AccessFault)
    (hi : s.interruptPending = false) :
    let done := rightOf f o s j0 ++ leftOf ch f o s j0
    let pend := (commit f o done ch.zd ch.zk s.tick).pendingTraps
    (done = [] ∨ pend = []) ∧ DeliversFault f o s j0 e pend (suspended ch f o s j0 e) ∨
      done ≠ [] ∧ DeliversTrap s pend (suspended ch f o s j0 e) := by
  intro done pend
  rcases suspended_cases ch f o s j0 e with ⟨hnone, ht⟩ | ⟨hdone, hmem, ht⟩
  · refine .inl ⟨hnone.imp_right fun hp => ?_, ?_⟩
    · exact List.map_eq_nil_iff.1 (List.append_eq_nil_iff.1 hp).1
    · rw [ht]
      exact ⟨rfl, rfl, rfl, rfl, by cases e <;> rfl⟩
  · refine .inr ⟨hdone, ?_⟩
    obtain ⟨x, hx, hpick⟩ := mem_pendings_of_quiet (s := commit f o done ch.zd ch.zk s.tick) hi hmem
    rw [ht, hpick]
    exact ⟨x, hx, rfl, rfl, rfl, rfl, rfl⟩

/-- Settles O36: the state is `suspended`, whose `Left` is the chosen one. -/
theorem suspendedGather : Obligations.SuspendedGather := by
  unfold Obligations.SuspendedGather
  intro i s j0 e h hi hs hff
  have hexec := (exec_eq_gather i s).trans (gather_suspends _ _ _ _ _ h hi hs hff)
  generalize choicesOf i.form i.ops s = ch at hexec
  have hleft : ∀ j ∈ leftOf ch i.form i.ops s j0,
      j0 < j ∧ j < i.form.kl ∧ isActive i.ops s j = true ∧ ∃ v, answer i.form i.ops s j = .ok v := by
    intro j hj
    simp only [leftOf, List.mem_filter, mem_active, Bool.and_eq_true, decide_eq_true_eq, isOk_iff] at hj
    obtain ⟨⟨hk, ha⟩, ⟨hlt, hv⟩, -⟩ := hj
    exact ⟨hlt, hk, ha, hv⟩
  have hpart := (suspended_endedEarly ch i.form i.ops s j0 e).partlyGathered
    (fun j hj => active_of_mem_suspended_done hj) fun j hj => isOk_of_mem_suspended_done hff hj
  have hj0 : j0 ∉ rightOf i.form i.ops s j0 ++ leftOf ch i.form i.ops s j0 := fun hd => by
    obtain ⟨-, hlt | ⟨hlt, -⟩⟩ := (mem_suspended_done ch _ _ s j0 j0).1 hd <;> exact Nat.lt_irrefl _ hlt
  obtain ⟨hk0, ha0, -, -⟩ := hff
  exact ⟨_, leftOf ch i.form i.ops s j0, ch.zd, ch.zk, _, hexec, hleft, hpart,
    ((hpart.kept j0 hk0 hj0).2.trans ha0), commit_trapsAdded _ _ _ ch.zd ch.zk s.tick,
    suspended_delivers ch i.form i.ops s j0 e hi⟩

end Sys2Proof.Proofs
end

section
/-! Addresses and accesses: the settled statements. -/

namespace Sys2Proof.Proofs

open Sys2Proof.Machine Sys2Proof.Laws

/-! ## The effective address (40 R82, R83) -/

theorem toNat_truncA_a32 (v : Qword) : (truncA .a32 v).toNat = v.toNat % 2 ^ 32 := by
  have hlt : v.toNat % 2 ^ 32 < 2 ^ 64 := Nat.lt_of_lt_of_le (Nat.mod_lt _ (by decide)) (by decide)
  simp only [truncA, BitVec.toNat_setWidth, Nat.mod_eq_of_lt hlt]

theorem effectiveAddress_a64 (f : Form) (o : Operands) (s : State) (j : Nat) (h : asize o s = .a64) :
    effectiveAddress f o s j = baseValue o s + indexElem o s j * o.scale.factor + dispValue f o := by
  simp only [effectiveAddress, h, truncA]

theorem toNat_effectiveAddress_a64 (f : Form) (o : Operands) (s : State) (j : Nat) (h : asize o s = .a64) :
    (effectiveAddress f o s j).toNat =
      ((baseValue o s).toNat + (indexElem o s j).toNat * o.scale.factor.toNat + (dispValue f o).toNat) % 2 ^ 64 := by
  simp only [effectiveAddress_a64 f o s j h, BitVec.toNat_add, BitVec.toNat_mul, Nat.add_mod_mod, Nat.mod_add_mod]

theorem toNat_effectiveAddress_a32 (f : Form) (o : Operands) (s : State) (j : Nat) (h : asize o s = .a32) :
    (effectiveAddress f o s j).toNat =
      ((baseValue o s).toNat % 2 ^ 32 + (indexElem o s j).toNat % 2 ^ 32 * o.scale.factor.toNat +
        (dispValue f o).toNat % 2 ^ 32) % 2 ^ 32 := by
  have hdvd : (2 : Nat) ^ 32 ∣ 2 ^ 64 := Nat.pow_dvd_pow 2 (by decide)
  simp only [effectiveAddress, h, toNat_truncA_a32, BitVec.toNat_add, BitVec.toNat_mul, Nat.add_mod_mod,
    Nat.mod_add_mod, Nat.mod_mod_of_dvd _ hdvd]

theorem getLsbD_indexElem (o : Operands) (s : State) (j b : Nat) (hb : b < 64) :
    (indexElem o s j).getLsbD b = (s.getZmm o.index).getLsbD (64 * j + b) := by
  simp only [indexElem, getLsbD_getField, hb, decide_true, Bool.true_and]

/-- Settles O15: the formula in both address sizes, its terms, and that no execution writes a general register. -/
theorem effectiveAddressFormula : Obligations.EffectiveAddressFormula := by
  unfold Obligations.EffectiveAddressFormula
  intro i s j
  refine ⟨toNat_effectiveAddress_a64 _ _ s j, toNat_effectiveAddress_a32 _ _ s j, fun r d ha => ?_, fun d ha => ?_,
    getLsbD_indexElem _ s j, fun t ht => ?_⟩
  · simp only [baseValue, ha]
  · simp only [baseValue, ha]
  · rw [exec_frame ht]

/-- Settles O16: reduction modulo 2^64 is a ring homomorphism that undoes the signed reading. -/
theorem signedIndexReading : Obligations.SignedIndexReading := by
  unfold Obligations.SignedIndexReading
  intro f o s j h
  rw [effectiveAddress_a64 f o s j h, BitVec.ofInt_add, BitVec.ofInt_add, BitVec.ofInt_mul, BitVec.ofInt_toInt,
    BitVec.ofInt_toInt, BitVec.ofInt_toInt, BitVec.ofInt_toInt]

/-! ## Accesses (40 R84, 20 R31) -/

/-- Settles O21: the value is that of the bytes read, each of which is the byte of memory. -/
theorem accessIsLittleEndian : Obligations.AccessIsLittleEndian := by
  unfold Obligations.AccessIsLittleEndian
  intro s g ea n v hn hv
  obtain ⟨bs, hread, hlen, rfl⟩ := mapAccess_ok s g ea n v hv
  refine ⟨?_, fun i hi => ?_⟩
  · have hlt := le_lt bs (by omega)
    rwa [hlen, Nat.pow_mul] at hlt
  · have hbyte := readBytes_get s _ bs hread i (by simpa using hi) (by omega)
    rw [List.getElem_map, List.getElem_range] at hbyte
    rw [le_byte bs i (by omega) (by omega)]
    exact readByte_ok s _ _ hbyte

end Sys2Proof.Proofs
end

section
/-! Continuing a gather that ended early (40 R93): the settled statement. -/

namespace Sys2Proof.Proofs

open Sys2Proof.Machine Sys2Proof.Laws

/-! ## Register files by their registers -/

theorem zmm_eq_of_getZmm {s s' : State} (h : ∀ r, s.getZmm r = s'.getZmm r) : s.zmm = s'.zmm :=
  Vector.ext fun n hn => h (BitVec.ofNatLT n hn)

theorem k_eq_of_getMask {s s' : State} (h : ∀ r, s.getMask r = s'.getMask r) : s.k = s'.k :=
  Vector.ext fun n hn => h (BitVec.ofNatLT n hn)

theorem completed_getZmm {f : Form} {o : Operands} {s : State} {r : BitVec 5} (hr : r ≠ o.dest) :
    (completed f o s).getZmm r = s.getZmm r :=
  (commit_getZmm f o _ true true s r).trans (if_neg hr)

theorem completed_getMask {f : Form} {o : Operands} {s : State} {r : BitVec 3} (hr : r ≠ o.mask) :
    (completed f o s).getMask r = s.getMask r :=
  (commit_getMask f o _ true true s r).trans (if_neg hr)

theorem completed_gpr (f : Form) (o : Operands) (s : State) : (completed f o s).gpr = s.gpr := rfl

theorem completed_mem (f : Form) (o : Operands) (s : State) : (completed f o s).mem = s.mem := rfl

/-! ## Where a gather is continued -/

/-- `y` differs from `x` for the gather in this only: the elements of `done`, active in `x`, have the values `x` reads for
them and are no longer active. -/
structure Continues (f : Form) (o : Operands) (done : List Nat) (y x : State) : Prop extends SameAccess y x where
  base : baseValue o y = baseValue o x
  index : ∀ j, indexElem o y j = indexElem o x j
  doneActive : ∀ j ∈ done, isActive o x j = true
  gathered : ∀ j ∈ done, getField (y.getZmm o.dest) (f.es * j) f.es = elemValue f o x j ∧ isActive o y j = false
  kept : ∀ j < f.kl, j ∉ done →
    getField (y.getZmm o.dest) (f.es * j) f.es = getField (x.getZmm o.dest) (f.es * j) f.es ∧
      isActive o y j = isActive o x j

section

variable {f : Form} {o : Operands} {done : List Nat} {y x : State}

theorem Continues.answer_eq (h : Continues f o done y x) (j : Nat) : answer f o y j = answer f o x j :=
  (answer_congr h.toSameAccess f o j (by rw [h.base]) (by rw [h.index])).1

theorem Continues.active_of_active (h : Continues f o done y x) {j : Nat} (hj : j < f.kl)
    (ha : isActive o y j = true) : isActive o x j = true := by
  by_cases hd : j ∈ done
  · exact h.doneActive j hd
  · exact (h.kept j hj hd).2.symm.trans ha

theorem Continues.allReadable (h : Continues f o done y x) (hr : AllReadable f o x) : AllReadable f o y :=
  fun j hj ha => (hr j hj (h.active_of_active hj ha)).imp fun _ hv => (h.answer_eq j).trans hv

/-- Completing `y` gives the destination that completing `x` gives. -/
theorem Continues.completed_dest (h : Continues f o done y x) (hr : AllReadable f o x) :
    (completed f o y).getZmm o.dest = (completed f o x).getZmm o.dest := by
  refine vecWord_eq_of_elems f _ _ (fun j hj => ?_) fun n hn => by simp only [completed_upper _ _ _ n hn]
  rw [completed_elem f o y (h.allReadable hr) j hj, completed_elem f o x hr j hj]
  by_cases hd : j ∈ done
  · obtain ⟨hval, hoff⟩ := h.gathered j hd
    rw [hoff, h.doneActive j hd, hval]
    rfl
  · obtain ⟨hval, hact⟩ := h.kept j hj hd
    rw [hact, hval, elemValue, elemValue, h.answer_eq]

end

/-! ## Early endings of a ready gather -/

theorem udCondition_of_ready {f : Form} {o : Operands} {s : State} (h : Ready f o s) : udCondition f o s = false := by
  simp [udCondition, h.addressSize, h.enabled, h.features, h.notK0, h.distinct]

theorem hitsSideEffect_of_next {ch : Choices} {f : Form} {o : Operands} {s t : State}
    (h : gatherBody ch f o s = .next t) : hitsSideEffect f o s = false := by
  by_contra hs
  rw [Bool.not_eq_false] at hs
  rw [gatherBody, if_pos hs] at h
  cases h

theorem noSideEffects_of_hits {f : Form} {o : Operands} {s : State} (h : hitsSideEffect f o s = false) :
    NoSideEffects f o s := by
  intro j hj ha hs
  simpa [hs] using List.any_eq_false.1 h j ((mem_active f o s j).2 ⟨hj, ha⟩)

/-- With no side-effecting element, what `firstFault` finds is the first fault. -/
theorem firstFault_of_some {f : Form} {o : Operands} {s : State} {j0 : Nat} {e : AccessFault}
    (hs : NoSideEffects f o s) (h : firstFault f o s = some (j0, e)) : FirstFault f o s j0 e := by
  have hex : ∃ j, j < f.kl ∧ isActive o s j = true ∧ ∃ e', answer f o s j = .fault e' := by
    by_contra hn
    have hnone := (firstFault_none_iff f o s).2 fun j hj ha e' he => hn ⟨j, hj, ha, e', he⟩
    rw [h] at hnone
    cases hnone
  classical
  obtain ⟨hk, ha, e', he⟩ := Nat.find_spec hex
  have hfirst : FirstFault f o s (Nat.find hex) e' := by
    refine ⟨hk, ha, he, fun j hj haj => ?_⟩
    have hjk := Nat.lt_trans hj hk
    cases hans : answer f o s j with
    | ok v => exact ⟨v, rfl⟩
    | fault e'' => exact absurd ⟨hjk, haj, e'', hans⟩ (Nat.find_min hex hj)
    | sideEffect => exact absurd hans (hs j hjk haj)
  have heq := (firstFault_some f o s _ e' hfirst).symm.trans h
  simp only [Option.some.injEq, Prod.mk.injEq] at heq
  obtain ⟨hj, rfl⟩ := heq
  rwa [hj] at hfirst

/-- A ready gather that ends with an event, none having been recorded before, ended early, and each element it completed
was read. -/
theorem exec_endedEarly {i : Instr} {s t : State} {d : Delivery} (hready : Ready i.form i.ops s)
    (hquiet : s.delivered = none) (h : exec i s = .next t) (hd : t.delivered = some d) :
    ∃ done zd zk, EndedEarly i.form i.ops done zd zk s t ∧
      ∀ j ∈ done, j ∈ active i.form i.ops s ∧ isOk i.form i.ops s j = true := by
  rw [exec_eq_gather] at h
  have hs : NoSideEffects i.form i.ops s := by
    refine noSideEffects_of_hits (hitsSideEffect_of_next (ch := choicesOf i.form i.ops s) (t := t) ?_)
    rwa [← gatherWith_begins _ _ _ _ hready]
  rcases gatherWith_cases _ _ _ _ _ h with ⟨hud, -⟩ | ⟨-, hts, -⟩ | ⟨-, rfl⟩ | ⟨j0, e, hf, rfl⟩ | ⟨-, rfl⟩
  · simp [udCondition_of_ready hready] at hud
  · simp [hready.notTs] at hts
  · refine ⟨_, _, _, interrupted_endedEarly _ _ _ s, fun j hj => ?_⟩
    obtain ⟨ha, hok, -⟩ := (mem_interruptedDone _ _ _ s j).1 hj
    exact ⟨ha, hok⟩
  · exact ⟨_, _, _, suspended_endedEarly _ _ _ s j0 e, fun j hj =>
      ⟨active_of_mem_suspended_done hj, isOk_of_mem_suspended_done (firstFault_of_some hs hf) hj⟩⟩
  · have hnone : (completed i.form i.ops (if s.interruptPending = true then s.tick else s)).delivered = none := by
      split <;> exact hquiet
    simp [hnone] at hd

/-! ## The continuation -/

/-- Of EFLAGS only VM enters the enabling state. -/
theorem osEnabled_of_vm (s : State) (fl : Qword) (h : fl.getLsbD 17 = s.eflags.getLsbD 17) :
    State.osEnabled { s with eflags := fl } = s.osEnabled :=
  congrArg (fun vm : Bool => s.pe && !vm && s.osxsave && decide (s.xcr0.extractLsb' 1 2 = 3#2) &&
    decide (s.xcr0.extractLsb' 5 3 = 7#3)) h

/-- The state with what the environment may change while a gather is stopped (40 R93; log 11). -/
def withEnv (mem : List Host.Cell) (regions : List Region) (oracle : List (Query × Access)) (c : Nat) (x : State) :
    State :=
  { x with mem := mem, regions := regions, oracle := oracle, clock := c, interruptPending := false }

theorem ready_withEnv {f : Form} {o : Operands} {s : State} (h : Ready f o s) (mem : List Host.Cell)
    (regions : List Region) (oracle : List (Query × Access)) (c : Nat) :
    Ready f o (withEnv mem regions oracle c s) :=
  ready_congr h rfl rfl rfl rfl rfl

section

variable {f : Form} {o : Operands} {done : List Nat} {zd zk : Bool} {s t : State} {d : Delivery}

theorem EndedEarly.record (h : EndedEarly f o done zd zk s t) (hd : t.delivered = some d) :
    d.savedRip = s.rip ∧ d.savedFlags = withRf s.eflags true := by
  obtain ⟨ev, pend, intr, hrf, rfl⟩ := h
  rw [takeEvent_delivered, Option.some.injEq] at hd
  subst hd
  exact ⟨rfl, if_pos hrf⟩

/-- Everything a gather ended early leaves unchanged. -/
theorem EndedEarly.frame (h : EndedEarly f o done zd zk s t) :
    t = { s with
      zmm := t.zmm, k := t.k, cr2 := t.cr2, dr6 := t.dr6, pendingTraps := t.pendingTraps
      interruptPending := t.interruptPending, delivered := t.delivered, freeCount := t.freeCount } := by
  obtain ⟨ev, pend, intr, -, rfl⟩ := h
  rfl

theorem EndedEarly.getZmm (h : EndedEarly f o done zd zk s t) {r : BitVec 5} (hr : r ≠ o.dest) :
    t.getZmm r = s.getZmm r := by
  obtain ⟨ev, pend, intr, -, rfl⟩ := h
  exact (commit_getZmm f o done zd zk s.tick r).trans (if_neg hr)

theorem EndedEarly.getMask (h : EndedEarly f o done zd zk s t) {r : BitVec 3} (hr : r ≠ o.mask) :
    t.getMask r = s.getMask r := by
  obtain ⟨ev, pend, intr, -, rfl⟩ := h
  exact (commit_getMask f o done zd zk s.tick r).trans (if_neg hr)

/-- After the return from the event the gather is as ready as it was. -/
theorem EndedEarly.ready_return (h : EndedEarly f o done zd zk s t) (hd : t.delivered = some d)
    (hready : Ready f o s) : Ready f o (returnFromEvent d t) := by
  obtain ⟨hrip, hflags⟩ := h.record hd
  rw [h.frame]
  refine ready_congr hready hrip rfl (osEnabled_of_vm s d.savedFlags ?_) rfl rfl
  rw [hflags, getLsbD_withRf, if_neg (by decide)]

/-- After the return the gather is continued where it ended, if what was read is still there. -/
theorem EndedEarly.continues (h : EndedEarly f o done zd zk s t) (hne : o.dest ≠ o.index)
    (hdone : ∀ j ∈ done, j ∈ active f o s ∧ isOk f o s j = true) (mem : List Host.Cell) (regions : List Region)
    (oracle : List (Query × Access)) (c : Nat)
    (hkeep : ∀ j < f.kl, isActive o s j = true → ∀ v, answer f o s j = .ok v →
      answer f o (withEnv mem regions oracle c s) j = .ok v) :
    Continues f o done (withEnv mem regions oracle c (returnFromEvent d t)) (withEnv mem regions oracle c s) := by
  have hpart := h.partlyGathered (fun j hj => (hdone j hj).1) fun j hj => (hdone j hj).2
  refine ⟨?_, ?_, fun j => ?_, fun j hj => ?_, fun j hj => ?_, hpart.kept⟩
  · rw [h.frame]
    constructor <;> rfl
  · rw [h.frame]
    rfl
  · exact congrArg (fun z => getField z (64 * j) 64) (h.getZmm hne.symm)
  · exact ((mem_active f o s j).1 (hdone j hj).1).2
  · obtain ⟨hact, hok⟩ := hdone j hj
    obtain ⟨hk, ha⟩ := (mem_active f o s j).1 hact
    obtain ⟨v, hv⟩ := (isOk_iff f o s j).1 hok
    obtain ⟨hval, hbit⟩ := hpart.gathered j hj v hv
    exact ⟨hval.trans (elemValue_of_ok f o _ j v (hkeep j hk ha v hv)).symm, hbit⟩

end

/-- Settles O42: both executions complete, and the elements done before the event have the values read again. -/
theorem continuationFinishesTheGather : Obligations.ContinuationFinishesTheGather := by
  unfold Obligations.ContinuationFinishesTheGather
  intro i s t d mem regions oracle c hready hquiet hexec hd env hkeep hr
  obtain ⟨done, zd, zk, hearly, hdone⟩ := exec_endedEarly hready hquiet hexec hd
  have hcont : Continues i.form i.ops done (env (returnFromEvent d t)) (env s) :=
    hearly.continues hready.distinct hdone mem regions oracle c hkeep
  have hy := exec_completes i (env (returnFromEvent d t))
    (ready_withEnv (hearly.ready_return hd hready) mem regions oracle c) rfl (hcont.allReadable hr)
  have hx := exec_completes i (env s) (ready_withEnv hready mem regions oracle c) rfl hr
  refine ⟨_, _, hy, hx, zmm_eq_of_getZmm fun r => ?_, k_eq_of_getMask fun r => ?_, ?_, ?_, ?_⟩
  · by_cases hdest : r = i.ops.dest
    · rw [hdest, hcont.completed_dest hr]
    · rw [completed_getZmm hdest, completed_getZmm hdest]
      exact hearly.getZmm hdest
  · by_cases hmask : r = i.ops.mask
    · rw [hmask, completed_mask, completed_mask]
    · rw [completed_getMask hmask, completed_getMask hmask]
      exact hearly.getMask hmask
  · have hrip : (env (returnFromEvent d t)).rip = (env s).rip := (hearly.record hd).1
    simp only [completed_rip, truncW, hcont.mode64, hrip]
  · rw [completed_gpr, completed_gpr]
    show t.gpr = s.gpr
    rw [hearly.frame]
  · rw [completed_mem, completed_mem]

end Sys2Proof.Proofs
end

section
/-! Exceptions (60): what can be delivered and with which record: the settled statements. -/

namespace Sys2Proof.Proofs

open Sys2Proof.Machine Sys2Proof.Laws

/-! ## Where a delivered event comes from -/

@[simp] theorem afterCompletion_delivered (s t : State) : (afterCompletion s t).delivered = t.delivered := rfl

/-- Every event an instruction delivers was taken with RF set in the saved image, with `rip` and the flags as they stood
before the instruction (40 R91, R97; 60 R135). -/
theorem exec_delivers {i : Instr} {s t : State} {d : Delivery} (hquiet : s.delivered = none) (h : exec i s = .next t)
    (hd : t.delivered = some d) :
    ∃ ev u, Event.setsRf ev = true ∧ u.rip = s.rip ∧ u.eflags = s.eflags ∧ t = takeEvent ev u := by
  rcases exec_cases h with ⟨ev, hrf, ht⟩ | ⟨done, zd, zk, -, ev, pend, intr, hrf, ht⟩ | ⟨-, n, rfl⟩
  · exact ⟨ev, s, hrf, rfl, rfl, ht⟩
  · refine ⟨ev, _, hrf, ?_, ?_, ht⟩ <;> rfl
  · have hnone : (completed i.form i.ops { s with freeCount := n }).delivered = none := hquiet
    simp [hnone] at hd

/-- So was every event a step delivers at an instruction, by its breakpoints, its #UD encoding or its execution. -/
theorem step_delivers {s t : State} {d : Delivery} (hquiet : s.delivered = none) (htraps : s.pendingTraps = [])
    (hending : endingHandler s = none) (h : step s = .next t) (hd : t.delivered = some d) :
    ∃ ev u, Event.setsRf ev = true ∧ u.rip = s.rip ∧ u.eflags = s.eflags ∧ t = (takeEvent ev u).tock := by
  obtain ⟨t', rfl, hcases⟩ := step_cases s t h
  rw [tock_delivered] at hd
  rcases hcases with ⟨d', _, _, _, _, hsome, -⟩ | ⟨-, hne, -⟩ | ⟨fr, -, -, hfr, -⟩ | ⟨-, -, -, hrun⟩
  · simp [hquiet] at hsome
  · exact absurd htraps hne
  · simp [hending] at hfr
  · rcases hrun with ⟨-, rfl⟩ | ⟨-, rfl⟩ | ⟨i, rest, u, -, -, hexec, ht'⟩
    · exact ⟨.instructionBreakpoint (instrBreakpoints s), s, rfl, rfl, rfl, rfl⟩
    · exact ⟨.invalidOpcode, s, rfl, rfl, rfl, rfl⟩
    · split at ht'
      · rename_i hnone
        rw [ht', afterCompletion_delivered] at hd
        simp [hd] at hnone
      · subst ht'
        obtain ⟨ev, v, hrf, hrip, hflags, rfl⟩ := exec_delivers hquiet hexec hd
        exact ⟨ev, v, hrf, hrip, hflags, rfl⟩

/-! ## Exceptions that are never delivered (60 R127, R129) -/

/-- R120 allows neither #AC nor #XM. -/
theorem kind_of_legal {d : Delivery} (h : d.legal = true) : d.kind ≠ .exception .ac ∧ d.kind ≠ .exception .xm :=
  ⟨fun hk => by simp [Delivery.legal, hk] at h, fun hk => by simp [Delivery.legal, hk] at h⟩

theorem exec_delivers_legal {i : Instr} {s t : State} {d : Delivery} (hquiet : s.delivered = none)
    (h : exec i s = .next t) (hd : t.delivered = some d) : d.legal = true := by
  obtain ⟨ev, u, -, -, -, rfl⟩ := exec_delivers hquiet h hd
  exact takeEvent_legal ev u d hd

/-- Settles O46: every delivery is of a kind that R120 allows. -/
theorem neverAlignmentCheck : Obligations.NeverAlignmentCheck := by
  unfold Obligations.NeverAlignmentCheck
  intro i s t d hquiet h hd
  exact (kind_of_legal (exec_delivers_legal hquiet h hd)).1

/-- Settles O47: every delivery is of a kind that R120 allows, and MXCSR is in the frame of an execution. -/
theorem noSimdFloatingPointException : Obligations.NoSimdFloatingPointException := by
  unfold Obligations.NoSimdFloatingPointException
  intro i s t d hquiet h
  exact ⟨by rw [exec_frame h], fun hd => (kind_of_legal (exec_delivers_legal hquiet h hd)).2⟩

/-! ## The fault of an element (40 R88, 60 R131) -/

/-- With no data breakpoint matching, a commit makes no trap pending. -/
theorem commit_pendingTraps_of_noMatch (f : Form) (o : Operands) (done : List Nat) (zd zk : Bool) (s : State)
    (hm : ∀ n la, dataMatch s n la = false) : (commit f o done zd zk s).pendingTraps = s.pendingTraps := by
  rw [commit_pendingTraps, dataTraps_of_noMatch s _ hm, union_nil]

/-- Settles O37: with nothing to deliver in lieu of it, the suspended gather takes the fault itself. -/
theorem elementFaultIsDelivered : Obligations.ElementFaultIsDelivered := by
  unfold Obligations.ElementFaultIsDelivered
  intro i s j0 e hready hi hs hff htraps hm
  have hexec := (exec_eq_gather i s).trans (gather_suspends _ _ _ _ _ hready hi hs hff)
  have hpend : pendings s = [] := by simp [pendings, htraps, hi]
  rw [suspended_fault _ _ _ _ _ _ hpend hm] at hexec
  refine ⟨_, hexec, ?_, rfl, rfl, ?_, ?_, ?_⟩
  · rw [takeEvent_pendingTraps, commit_pendingTraps_of_noMatch _ _ _ _ _ s.tick hm, tick_pendingTraps, htraps]
  · rintro code la rfl
    exact ⟨rfl, rfl, rfl⟩
  · rintro rfl
    exact ⟨rfl, rfl, rfl⟩
  · rintro rfl
    exact ⟨rfl, rfl, rfl⟩

/-! ## RF in the saved image (40 R91, 60 R133) -/

theorem takeEvent_savesRf {ev : Event} {s : State} {d : Delivery} (hrf : ev.setsRf = true)
    (hd : (takeEvent ev s).delivered = some d) : d.rf = true := by
  rw [takeEvent_delivered, Option.some.injEq] at hd
  subst hd
  simp [Delivery.rf, hrf]

/-- While RF is set no instruction breakpoint fires (60 R128). -/
theorem instrBreakpoints_of_rf {s : State} (h : s.rf = true) : instrBreakpoints s = [] :=
  if_pos h

/-- Settles O60: the return restores the saved flags, in which RF is set. -/
theorem breakpointIsNotRetriggered : Obligations.BreakpointIsNotRetriggered := by
  unfold Obligations.BreakpointIsNotRetriggered
  intro s t d hquiet htraps hending h hd
  obtain ⟨ev, u, hrf, -, -, rfl⟩ := step_delivers hquiet htraps hending h hd
  have hsaved : d.rf = true := takeEvent_savesRf hrf hd
  exact instrBreakpoints_of_rf hsaved

end Sys2Proof.Proofs
end

section
/-! The consumed mask (70 R152): the settled statement. -/

namespace Sys2Proof.Proofs

open Sys2Proof.Machine Sys2Proof.Laws

/-- Writing a mask register with the value it holds changes nothing. -/
@[simp] theorem setMask_getMask (s : State) (r : BitVec 3) : s.setMask r (s.getMask r) = s := by
  simp [State.setMask, State.getMask]

/-- A zero mask selects no element (40 R80). -/
theorem isActive_of_zeroMask {o : Operands} {s : State} (h : s.getMask o.mask = 0) (j : Nat) :
    isActive o s j = false := by
  simp [isActive, h]

/-- With the mask already zero, a completed gather writes its destination and `rip` only. -/
theorem completed_eq_of_zeroMask (f : Form) (o : Operands) (s : State) (hm : s.getMask o.mask = 0) :
    completed f o s =
      { s.setZmm o.dest ((completed f o s).getZmm o.dest) with rip := (completed f o s).rip } := by
  have hact : active f o s = [] := active_eq_nil f o s fun j _ => isActive_of_zeroMask hm j
  have hkeep (z : VecWord) : (s.setZmm o.dest z).setMask o.mask 0 = s.setZmm o.dest z := by
    rw [← hm, ← getMask_setZmm s o.dest z, setMask_getMask]
  conv_lhs => rw [completed_eq, completed_pendingTraps_of_noActive f o s hact, hkeep]
  rfl

/-- 40 R95 with the mask already zero: a ready gather gathers nothing. -/
theorem exec_of_zeroMask (i : Instr) (s : State) (h : Ready i.form i.ops s) (hi : s.interruptPending = false)
    (hm : s.getMask i.ops.mask = 0) :
    ∃ u, exec i s = .next u ∧ u = { s.setZmm i.ops.dest (u.getZmm i.ops.dest) with rip := u.rip } ∧
      u.rip = truncW s (s.rip + BitVec.ofNat 64 i.ops.ilen) ∧
      ∀ n, (u.getZmm i.ops.dest).getLsbD n = (decide (n < i.form.dw) && (s.getZmm i.ops.dest).getLsbD n) := by
  have hnone : ∀ j < i.form.kl, isActive i.ops s j = false := fun j _ => isActive_of_zeroMask hm j
  have hr : AllReadable i.form i.ops s := fun j hj ha => by simp [hnone j hj] at ha
  refine ⟨_, exec_completes i s h hi hr, completed_eq_of_zeroMask _ _ s hm, completed_rip _ _ s, fun n => ?_⟩
  rw [completed_dest_of_noActive _ _ s (active_eq_nil _ _ s hnone), getLsbD_zeroFrom, Bool.and_comm]

/-- Settles O34: the first gather leaves its mask zero, so the second one has no active element. -/
theorem maskIsConsumed : Obligations.MaskIsConsumed := by
  unfold Obligations.MaskIsConsumed
  intro i i' s t h hi hr hexec hmask h'
  obtain rfl : completed i.form i.ops s = t := by simpa [exec_completes i s h hi hr] using hexec
  have hzero : (completed i.form i.ops s).getMask i.ops.mask = 0 := completed_mask i.form i.ops s
  exact ⟨hzero, exec_of_zeroMask i' _ h' hi (hmask ▸ hzero)⟩

end Sys2Proof.Proofs
end

section
/-! The machine's invariant, and what a step outside a handler keeps: the settled statements. -/

namespace Sys2Proof.Proofs

open Sys2Proof.Machine Sys2Proof.Laws

/-! ## The invariant, operation by operation -/

section

variable {s : State}

theorem takeEvent_inv (ev : Event) (h : s.Inv) : (takeEvent ev s).Inv :=
  ⟨h.mem, h.traps, takeEvent_legal ev s, h.nested⟩

theorem tick_inv (h : s.Inv) : s.tick.Inv := ⟨h.mem, h.traps, h.event, h.nested⟩

theorem tock_inv (h : s.Inv) : s.tock.Inv := ⟨h.mem, h.traps, h.event, h.nested⟩

theorem advance_inv (n : Nat) (h : s.Inv) : (advance n s).Inv := ⟨h.mem, h.traps, h.event, h.nested⟩

theorem commit_inv (f : Form) (o : Operands) (done : List Nat) (zd zk : Bool) (h : s.Inv) :
    (commit f o done zd zk s).Inv :=
  ⟨h.mem, union_nodup _ _ h.traps (dataTraps_nodup _ _), h.event, h.nested⟩

theorem deliverPending_inv (l : Bool) (p : Pending) (h : s.Inv) : (deliverPending l p s).Inv := by
  cases p with
  | trap x => exact takeEvent_inv _ ⟨h.mem, h.traps.erase x, h.event, h.nested⟩
  | interrupt => exact takeEvent_inv _ ⟨h.mem, h.traps, h.event, h.nested⟩

theorem suspended_inv (ch : Choices) (f : Form) (o : Operands) (j0 : Nat) (e : AccessFault) (h : s.Inv) :
    (suspended ch f o s j0 e).Inv := by
  have hcommit := commit_inv f o (rightOf f o s j0 ++ leftOf ch f o s j0) ch.zd ch.zk (tick_inv h)
  rcases suspended_cases ch f o s j0 e with ⟨-, ht⟩ | ⟨-, -, ht⟩
  · exact ht ▸ takeEvent_inv _ hcommit
  · exact ht ▸ deliverPending_inv _ _ hcommit

theorem interrupted_inv (ch : Choices) (f : Form) (o : Operands) (h : s.Inv) : (interrupted ch f o s).Inv :=
  deliverPending_inv true .interrupt (commit_inv f o (interruptedDone ch f o s) ch.zd ch.zk (tick_inv h))

theorem completed_inv (f : Form) (o : Operands) (h : s.Inv) : (completed f o s).Inv :=
  advance_inv _ (commit_inv f o _ _ _ h)

theorem exec_inv {i : Instr} {t : State} (h : s.Inv) (hexec : exec i s = .next t) : t.Inv := by
  rw [exec_eq_gather] at hexec
  rcases gatherWith_cases _ _ _ _ _ hexec with ⟨-, rfl⟩ | ⟨-, -, rfl⟩ | ⟨-, rfl⟩ | ⟨j0, e, -, rfl⟩ | ⟨-, rfl⟩
  · exact takeEvent_inv _ h
  · exact takeEvent_inv _ h
  · exact interrupted_inv _ _ _ h
  · exact suspended_inv _ _ _ _ _ h
  · refine completed_inv _ _ ?_
    split
    · exact tick_inv h
    · exact h

theorem afterCompletion_inv (s₀ : State) (h : s.Inv) : (afterCompletion s₀ s).Inv := by
  refine ⟨h.mem, ?_, h.event, h.nested⟩
  show (if s₀.tf = true then Trap.union s.pendingTraps [.singleStep] else s.pendingTraps).Nodup
  split
  · exact union_nodup _ _ h.traps (List.nodup_singleton _)
  · exact h.traps

theorem withHandlers_inv (hs : List HandlerRun) (h : s.Inv) : State.Inv { s with handlers := hs } :=
  ⟨h.mem, h.traps, h.event, h.nested⟩

theorem applyEdits_inv {es : List HandlerEdit} {t : State} (h : s.Inv) (ht : applyEdits s es = some t) : t.Inv := by
  obtain ⟨houter, htraps⟩ := applyEdits_outer s t es ht
  exact ⟨applyEdits_wf s t es h.mem ht, htraps ▸ h.traps, applyEdits_legal s t es ht h.event, houter ▸ h.nested⟩

theorem leaveHandler_inv (x : HandlerExit) {d : Delivery} (h : s.Inv) (hd : s.delivered = some d) :
    (leaveHandler x d s).Inv := by
  cases x with
  | ret => exact ⟨h.mem, h.traps, fun _ hnone => (by cases hnone), h.nested⟩
  | code entry stop flags =>
    refine ⟨h.mem, h.traps, fun _ hnone => (by cases hnone), fun fr hfr => ?_⟩
    rcases List.mem_cons.1 hfr with rfl | hfr
    · exact h.event d hd
    · exact h.nested fr hfr

theorem resumeHandler_inv {fr : Frame} (h : s.Inv) (hfr : s.outer.head? = some fr) : (resumeHandler fr s).Inv := by
  refine ⟨h.mem, h.traps, fun d hd => ?_, fun fr' hfr' => h.nested fr' (List.mem_of_mem_tail hfr')⟩
  obtain rfl : fr.event = d := by simpa using hd
  exact h.nested fr (List.mem_of_head? hfr)

end

/-- Settles O49: every operation a step is made of keeps the invariant. -/
theorem stepKeepsInvariant : Obligations.StepKeepsInvariant := by
  unfold Obligations.StepKeepsInvariant
  intro s t h hstep
  obtain ⟨t', rfl, hcases⟩ := step_cases s t hstep
  refine tock_inv ?_
  rcases hcases with ⟨d, r, hs, u, d', -, -, hu, hd', rfl⟩ | ⟨-, -, rfl⟩ | ⟨fr, -, -, hfr, rfl⟩ | ⟨-, -, -, hrun⟩
  · exact leaveHandler_inv _ (applyEdits_inv (withHandlers_inv hs h) hu) hd'
  · exact deliverPending_inv _ _ (tick_inv h)
  · exact resumeHandler_inv h (endingHandler_some s fr hfr).1
  · rcases hrun with ⟨-, rfl⟩ | ⟨-, rfl⟩ | ⟨i, rest, u, -, -, hexec, rfl⟩
    · exact takeEvent_inv _ h
    · exact takeEvent_inv _ h
    · split
      · exact afterCompletion_inv s (exec_inv h hexec)
      · exact exec_inv h hexec

/-- Settles O1: the launch state's registers, read off. -/
theorem resetIsTheLaunchState : Obligations.ResetIsTheLaunchState := by
  unfold Obligations.ResetIsTheLaunchState
  refine ⟨by decide, by decide, by decide, rfl, fun g => ?_, rfl, rfl, rfl, fun _ => rfl⟩
  cases g <;> decide

/-- Settles O2: no byte is mapped, no trap is pending and no event is recorded. -/
theorem resetMeetsInvariant : Obligations.ResetMeetsInvariant := by
  unfold Obligations.ResetMeetsInvariant
  exact ⟨reset_mem_wf, List.nodup_nil, fun _ hd => (by cases hd), fun _ hfr => (by cases hfr)⟩

/-! ## What a step outside a handler leaves (10 R13, R15, R17; 20 R37) -/

/-- Everything a step with no event to handle leaves unchanged. -/
theorem step_frame {s t : State} (hquiet : s.delivered = none) (h : step s = .next t) :
    t = { s with
      zmm := t.zmm, k := t.k, rip := t.rip, eflags := t.eflags, cr2 := t.cr2, dr6 := t.dr6
      pendingTraps := t.pendingTraps, interruptPending := t.interruptPending, clock := t.clock
      delivered := t.delivered, outer := t.outer, freeCount := t.freeCount } ∧
    (t.eflags = s.eflags ∨ t.eflags = withRf s.eflags false) := by
  obtain ⟨t', rfl, hcases⟩ := step_cases s t h
  rcases hcases with ⟨d, _, _, _, _, hsome, -⟩ | ⟨-, -, rfl⟩ | ⟨fr, -, -, -, rfl⟩ | ⟨-, -, -, hrun⟩
  · simp [hquiet] at hsome
  · rw [deliverBetween, deliverPending_frame]
    exact ⟨rfl, .inl rfl⟩
  · exact ⟨rfl, .inl rfl⟩
  · rcases hrun with ⟨-, rfl⟩ | ⟨-, rfl⟩ | ⟨i, rest, u, -, -, hexec, rfl⟩
    · exact ⟨rfl, .inl rfl⟩
    · exact ⟨rfl, .inl rfl⟩
    · rw [exec_frame hexec]
      split
      · exact ⟨rfl, .inr rfl⟩
      · exact ⟨rfl, .inl rfl⟩

/-- RF is bit 16. -/
theorem getLsbD_withRf_of_ne (fl : Qword) (b : Bool) {n : Nat} (hn : n ≠ 16) :
    (withRf fl b).getLsbD n = fl.getLsbD n :=
  (getLsbD_withRf fl b n).trans (if_neg hn)

/-- Settles O50: the frame of a step, clause by clause. -/
theorem stepsOutsideHandlersKeepTheRest : Obligations.StepsOutsideHandlersKeepTheRest := by
  unfold Obligations.StepsOutsideHandlersKeepTheRest
  intro s t hquiet h
  obtain ⟨hframe, hflags⟩ := step_frame hquiet h
  have hbits : ∀ n, n ≠ 16 → t.eflags.getLsbD n = s.eflags.getLsbD n := by
    intro n hn
    rcases hflags with hf | hf
    · rw [hf]
    · rw [hf, getLsbD_withRf_of_ne _ _ hn]
  rw [hframe]
  exact ⟨rfl, rfl, rfl, rfl, rfl, rfl, rfl, rfl, rfl, rfl, rfl, rfl, rfl, rfl, rfl, rfl, rfl, rfl, hbits⟩

/-- Settles O51: the event was taken with `rip` and the flags as they stood, RF set in the image. -/
theorem deliverySavesTheInstruction : Obligations.DeliverySavesTheInstruction := by
  unfold Obligations.DeliverySavesTheInstruction
  intro s t d hquiet htraps hending h hd
  obtain ⟨ev, u, hrf, hrip, hflags, rfl⟩ := step_delivers hquiet htraps hending h hd
  have hsaved : d.rf = true := takeEvent_savesRf hrf hd
  obtain rfl := Option.some.inj ((takeEvent_delivered ev u).symm.trans hd)
  refine ⟨hrip, hrip, hsaved, fun n hn => ?_⟩
  simp only [hrf, if_true, getLsbD_withRf_of_ne _ _ hn, hflags]

/-- What is picked between two instructions is one of the pending traps. -/
theorem pick_trap (n : Nat) {traps : List Trap} (h : traps ≠ []) :
    ∃ x ∈ traps, pick n (traps.map Pending.trap) = .trap x := by
  obtain ⟨x, hx, hpick⟩ := List.mem_map.1 (pick_mem n (traps.map Pending.trap) (by simpa using h))
  exact ⟨x, hx, hpick.symm⟩

theorem step_of_pendingTraps {s : State} (hquiet : s.delivered = none) (h : s.pendingTraps ≠ []) :
    step s = .next (deliverBetween s).tock := by
  have hact : act s = .next (deliverBetween s) := by simp [act, hquiet, h]
  simp only [step, cycle, hact]

/-- Settles O52: the trap picked is delivered. -/
theorem trapBetweenInstructions : Obligations.TrapBetweenInstructions := by
  unfold Obligations.TrapBetweenInstructions
  intro s hquiet hne
  obtain ⟨x, hx, hpick⟩ := pick_trap (Config.pendingPick s.freeCount) hne
  have hstep := step_of_pendingTraps hquiet hne
  rw [deliverBetween, hpick] at hstep
  exact ⟨_, x, _, hstep, hx, rfl, rfl, rfl, rfl, rfl, rfl, rfl, rfl, rfl, rfl, rfl, rfl⟩

end Sys2Proof.Proofs
end

section
/-! Decoding and encoding: what the decoder makes of each part of an encoding, and that it reads every instruction back from its
bytes: the settled statements. -/

namespace Sys2Proof.Proofs

open Sys2Proof.Machine Sys2Proof.Laws

/-! ## Legacy prefixes (30 R51) -/

theorem prefixByte_segPrefix (c : CodeSize) (g : Seg) : prefixByte c g.prefixByte = some (.seg g) := by
  cases g <;> rfl

theorem prefixByte_67 (c : CodeSize) : prefixByte c 0x67#8 = some .addrSize := rfl

theorem prefixByte_62 (c : CodeSize) : prefixByte c 0x62#8 = none := by
  cases c <;> rfl

/-- What a list of prefixes says, beside what `p` says. -/
def notePrefixes (c : CodeSize) (p : Prefixes) (pre : List Byte) : Prefixes :=
  (pre.filterMap (prefixByte c)).foldl Prefixes.add p

/-- The prefixes end at the first byte that is none. -/
theorem scanPrefixes_append (c : CodeSize) (p : Prefixes) (pre : List Byte) (b : Byte) (bs : List Byte)
    (hpre : ∀ z ∈ pre, (prefixByte c z).isSome = true) (hb : prefixByte c b = none) :
    scanPrefixes c p (pre ++ b :: bs) = (notePrefixes c p pre, b :: bs) := by
  induction pre generalizing p with
  | nil => simp [scanPrefixes, notePrefixes, hb]
  | cons z pre ih =>
    obtain ⟨x, hx⟩ := Option.isSome_iff_exists.1 (hpre z List.mem_cons_self)
    rw [List.cons_append, scanPrefixes, hx]
    simp only [ih (p.add x) fun z hz => hpre z (List.mem_cons_of_mem _ hz), notePrefixes, List.filterMap_cons_some hx,
      List.foldl_cons]

theorem decode_append {c : CodeSize} {pre : List Byte} {b : Byte} (bs : List Byte)
    (hpre : ∀ z ∈ pre, (prefixByte c z).isSome = true) (hb : prefixByte c b = none) :
    decode c (pre ++ b :: bs) = decodeEvex c (notePrefixes c {} pre) (b :: bs) := by
  rw [decode, scanPrefixes_append c {} pre b bs hpre hb]

/-- What the two prefixes that operands can carry say. -/
def allowedPrefixes (o : Operands) : Prefixes :=
  { seg := o.segOverride, addrSize := o.addrSizePrefix, count := o.prefixLength }

/-- The bytes of those two prefixes say so in either order. -/
theorem notePrefixes_allowed (c : CodeSize) (o : Operands) (pre : List Byte)
    (h : pre = o.prefixBytes ∨ pre = o.prefixBytes.reverse) :
    (∀ z ∈ pre, (prefixByte c z).isSome = true) ∧ notePrefixes c {} pre = allowedPrefixes o := by
  obtain ⟨_, _, _, _, _, seg, a⟩ := o
  have hseg := prefixByte_segPrefix c
  have h67 := prefixByte_67 c
  rcases h with rfl | rfl <;> cases seg <;> cases a <;>
    simp [Operands.prefixBytes, notePrefixes, allowedPrefixes, Operands.prefixLength, hseg, h67, Prefixes.add, Prefixes.note]

theorem decode_allowed {c : CodeSize} {o : Operands} {pre : List Byte} {b : Byte} (bs : List Byte)
    (h : pre = o.prefixBytes ∨ pre = o.prefixBytes.reverse) (hb : prefixByte c b = none) :
    decode c (pre ++ b :: bs) = decodeEvex c (allowedPrefixes o) (b :: bs) := by
  obtain ⟨hpre, hnote⟩ := notePrefixes_allowed c o pre h
  rw [decode_append bs hpre hb, hnote]

/-! ## The opcode point (30 R52, R53, R55, R72) -/

theorem decodeEvex_isEvex {c : CodeSize} (p : Prefixes) {p0 : Byte} (rest : List Byte) (h : isEvex c p0 = true) :
    decodeEvex c p (0x62#8 :: p0 :: rest) = decodePayload c p p0 rest := by
  simp [decodeEvex, h]

section

variable {c : CodeSize} {p : Prefixes} {p0 p1 : Byte} (h : GatherPoint c p0 p1)

include h

/-- At this opcode point the decoder tests the prefixes and the payload. -/
theorem decodeEvex_gatherPoint (p2 modrm : Byte) (rest : List Byte) :
    decodeEvex c p (0x62#8 :: p0 :: p1 :: p2 :: 0x91#8 :: modrm :: rest) =
      if p.repeated = true then .repeatedPrefix
      else match encodingUd c p p0 p1 p2 modrm with
        | some u => .ud u (udLength p modrm rest)
        | none =>
          if c ≠ .code64 ∧ extensionBitClear p0 p2 = true then .mode32ExtensionBits
          else decodeVsib p p0 p1 p2 modrm rest := by
  obtain ⟨hevex, hmmm, hpp⟩ := h
  have hisEvex : isEvex c p0 = true := by simpa [isEvex] using hevex
  have hpoint : isGatherPoint p0 p1 0x91#8 = true := by simp [isGatherPoint, hmmm, hpp]
  exact (decodeEvex_isEvex p _ hisEvex).trans (if_neg (by simp [hpoint]))

theorem decodeEvex_repeated (p2 modrm : Byte) (rest : List Byte) (hp : p.repeated = true) :
    decodeEvex c p (0x62#8 :: p0 :: p1 :: p2 :: 0x91#8 :: modrm :: rest) = .repeatedPrefix := by
  rw [decodeEvex_gatherPoint h, if_pos hp]

theorem decodeEvex_ud {p2 modrm : Byte} {u : UdCause} (rest : List Byte) (hp : p.repeated = false)
    (hu : encodingUd c p p0 p1 p2 modrm = some u) :
    decodeEvex c p (0x62#8 :: p0 :: p1 :: p2 :: 0x91#8 :: modrm :: rest) = .ud u (udLength p modrm rest) := by
  simp only [decodeEvex_gatherPoint h, hp, hu, Bool.false_eq_true, if_false]

theorem decodeEvex_extended {p2 modrm : Byte} (rest : List Byte) (hp : p.repeated = false)
    (hu : encodingUd c p p0 p1 p2 modrm = none) (hx : c ≠ .code64 ∧ extensionBitClear p0 p2 = true) :
    decodeEvex c p (0x62#8 :: p0 :: p1 :: p2 :: 0x91#8 :: modrm :: rest) = .mode32ExtensionBits := by
  simp only [decodeEvex_gatherPoint h, hp, hu, Bool.false_eq_true, if_false, if_pos hx]

theorem decodeEvex_vsib {p2 modrm : Byte} (rest : List Byte) (hp : p.repeated = false)
    (hu : encodingUd c p p0 p1 p2 modrm = none) (hx : ¬ (c ≠ .code64 ∧ extensionBitClear p0 p2 = true)) :
    decodeEvex c p (0x62#8 :: p0 :: p1 :: p2 :: 0x91#8 :: modrm :: rest) = decodeVsib p p0 p1 p2 modrm rest := by
  simp only [decodeEvex_gatherPoint h, hp, hu, Bool.false_eq_true, if_false, if_neg hx]

end

/-- What the VSIB byte and the bytes after it say (30 R57 to R62). -/
theorem decodeVsib_cons {p : Prefixes} {p0 p1 p2 modrm vsib : Byte} {bytes rest : List Byte} {f : Form} {a : Addr}
    (hf : formOf (p1.getLsbD 7) (p2.extractLsb' 5 2) = some f)
    (ha : decodeAddr (modrm.extractLsb' 6 2) (p0.getLsbD 5) (vsib.extractLsb' 0 3) bytes = some (a, rest)) :
    decodeVsib p p0 p1 p2 modrm (vsib :: bytes) =
      .instr (.ofForm f
        { dest := BitVec.ofBool (!p0.getLsbD 4) ++ BitVec.ofBool (!p0.getLsbD 7) ++ modrm.extractLsb' 3 3
          index := BitVec.ofBool (!p2.getLsbD 3) ++ BitVec.ofBool (!p0.getLsbD 6) ++ vsib.extractLsb' 3 3
          mask := p2.extractLsb' 0 3
          addr := a
          scale := scaleOf (vsib.extractLsb' 6 2)
          segOverride := p.seg
          addrSizePrefix := p.addrSize }) rest := by
  simp only [decodeVsib, hf, ha]

/-! ## Instructions, forms, fields -/

@[simp] theorem ofForm_form_ops (i : Instr) : Instr.ofForm i.form i.ops = i := by
  cases i <;> rfl

@[simp] theorem form_ofForm (f : Form) (o : Operands) : (Instr.ofForm f o).form = f := by
  cases f <;> rfl

@[simp] theorem ops_ofForm (f : Form) (o : Operands) : (Instr.ofForm f o).ops = o := by
  cases f <;> rfl

theorem instr_wf (i : Instr) : i.wf = i.ops.wf := by
  cases i <;> rfl

theorem formOf_w_ll (f : Form) : formOf f.w f.ll = some f := by
  cases f <;> rfl

theorem scaleOf_ss (x : Scale) : scaleOf x.ss = x := by
  cases x <;> rfl

/-- A register number of five bits is its two extension bits and the three of its field (30 R58, R59). -/
theorem register5_split (r : BitVec 5) :
    BitVec.ofBool (r.getLsbD 4) ++ BitVec.ofBool (r.getLsbD 3) ++ r.extractLsb' 0 3 = r := by
  revert r
  decide

theorem register4_split (r : BitVec 4) : BitVec.ofBool (r.getLsbD 3) ++ r.extractLsb' 0 3 = r := by
  revert r
  decide

/-- The bits of P0 (30 R52, R53). -/
theorem p0_bits (o : Operands) :
    o.p0.getLsbD 7 = !o.dest.getLsbD 3 ∧ o.p0.getLsbD 6 = !o.index.getLsbD 3 ∧
      o.p0.getLsbD 5 = !o.addr.baseBits.getLsbD 3 ∧ o.p0.getLsbD 4 = !o.dest.getLsbD 4 ∧ o.p0.getLsbD 3 = false ∧
      o.p0.extractLsb' 0 3 = 2#3 ∧
      (o.dest.getLsbD 3 = false → o.index.getLsbD 3 = false → o.p0.extractLsb' 6 2 = 3#2) := by
  unfold Operands.p0
  generalize o.dest.getLsbD 3 = a, o.index.getLsbD 3 = b, o.addr.baseBits.getLsbD 3 = d, o.dest.getLsbD 4 = e
  revert a b d e
  decide

/-- The fields of P1 (30 R52, R53, R69). -/
theorem p1_bits (f : Form) :
    f.p1.getLsbD 7 = f.w ∧ f.p1.extractLsb' 3 4 = 15#4 ∧ f.p1.getLsbD 2 = true ∧ f.p1.extractLsb' 0 2 = 1#2 := by
  cases f <;> decide

/-- The fields of P2 (30 R52, R68, R69). -/
theorem p2_bits (f : Form) (o : Operands) :
    (p2Byte f o).getLsbD 7 = false ∧ (p2Byte f o).extractLsb' 5 2 = f.ll ∧ (p2Byte f o).getLsbD 4 = false ∧
      (p2Byte f o).getLsbD 3 = (!o.index.getLsbD 4) ∧ (p2Byte f o).extractLsb' 0 3 = o.mask := by
  unfold p2Byte
  generalize o.index.getLsbD 4 = a, o.mask = m
  revert a m
  cases f <;> decide

/-- The fields of ModRM (30 R56, R65). -/
theorem modrm_bits (o : Operands) :
    o.modrm.extractLsb' 6 2 = o.addr.mod ∧ o.modrm.extractLsb' 3 3 = o.dest.extractLsb' 0 3 ∧
      o.modrm.extractLsb' 0 3 = 4#3 := by
  unfold Operands.modrm
  generalize o.addr.mod = a, o.dest.extractLsb' 0 3 = r
  revert a r
  decide

/-- The fields of VSIB (30 R57). -/
theorem vsib_bits (o : Operands) :
    o.vsib.extractLsb' 6 2 = o.scale.ss ∧ o.vsib.extractLsb' 3 3 = o.index.extractLsb' 0 3 ∧
      o.vsib.extractLsb' 0 3 = o.addr.baseBits.extractLsb' 0 3 := by
  unfold Operands.vsib
  generalize o.scale.ss = a, o.index.extractLsb' 0 3 = r, o.addr.baseBits.extractLsb' 0 3 = b
  revert a r b
  decide

/-! ## Base and displacement (30 R60, R62) -/

/-- Four bytes, the least significant first, are the displacement they encode (20 R31). -/
theorem takeDisp32_disp32Bytes (d : BitVec 32) (rest : List Byte) :
    takeDisp32 (disp32Bytes d ++ rest) = some (d, rest) := by
  have hd : d.extractLsb' 24 8 ++ d.extractLsb' 16 8 ++ d.extractLsb' 8 8 ++ d.extractLsb' 0 8 = d := by
    apply BitVec.eq_of_getLsbD_eq
    intro i hi
    simp only [BitVec.getLsbD_append, BitVec.getLsbD_extractLsb']
    by_cases h1 : i < 8
    · simp [h1]
    · by_cases h2 : i < 16
      · simp [h1, show i - 8 < 8 by omega, show 8 + (i - 8) = i by omega]
      · by_cases h3 : i < 24
        · simp [h1, show ¬ i - 8 < 8 by omega, show i - 8 - 8 < 8 by omega, show 16 + (i - 8 - 8) = i by omega]
        · simp [h1, show ¬ i - 8 < 8 by omega, show ¬ i - 8 - 8 < 8 by omega, show i - 8 - 8 - 8 < 8 by omega,
            show 24 + (i - 8 - 8 - 8) = i by omega]
  simp only [disp32Bytes, List.cons_append, List.nil_append, takeDisp32, hd]

/-- The decoder reads an address that can be encoded back from its fields and bytes. -/
theorem decodeAddr_encode (a : Addr) (rest : List Byte) (h : a.wf = true) :
    decodeAddr a.mod (!a.baseBits.getLsbD 3) (a.baseBits.extractLsb' 0 3) (a.dispBytes ++ rest) = some (a, rest) := by
  cases a with
  | noBase d =>
    simp [decodeAddr, Addr.mod, Addr.baseBits, Addr.dispBytes, takeDisp32_disp32Bytes]
  | base r d =>
    have hr := register4_split r
    cases d with
    | absent =>
      have hbase : r.extractLsb' 0 3 ≠ 5#3 := by simpa [Addr.wf] using h
      simp [-BitVec.getLsbD_eq_getElem, decodeAddr, Addr.mod, Addr.baseBits, Addr.dispBytes, hr, hbase]
    | disp8 d => simp [-BitVec.getLsbD_eq_getElem, decodeAddr, Addr.mod, Addr.baseBits, Addr.dispBytes, hr]
    | disp32 d =>
      simp [-BitVec.getLsbD_eq_getElem, decodeAddr, Addr.mod, Addr.baseBits, Addr.dispBytes, hr, takeDisp32_disp32Bytes]

theorem mod_ne_three (a : Addr) : a.mod ≠ 3#2 := by
  rcases a with _ | ⟨_, _ | _ | _⟩ <;> simp [Addr.mod]

/-! ## The #UD conditions of the decoder (30 R51, R54, R63, R65, R68, R69) -/

theorem ite_some_eq_none {α : Type} {a : Prop} [Decidable a] {u : α} {x : Option α} :
    (if a then some u else x) = none ↔ ¬ a ∧ x = none := by
  by_cases h : a <;> simp [h]

theorem encodingUd_eq_none_iff (c : CodeSize) (p : Prefixes) (p0 p1 p2 modrm : Byte) :
    encodingUd c p p0 p1 p2 modrm = none ↔
      ¬ p.lock = true ∧ ¬ (p.p66 || p.pF2 || p.pF3) = true ∧ ¬ p.rex = true ∧ ¬ p0.getLsbD 3 = true ∧
        ¬ (!p1.getLsbD 2) = true ∧ ¬ p2.extractLsb' 5 2 = 3#2 ∧ ¬ p1.extractLsb' 3 4 ≠ 15#4 ∧ ¬ p2.getLsbD 4 = true ∧
        ¬ p2.getLsbD 7 = true ∧ ¬ noVsib modrm = true ∧ ¬ asizeOf c p.addrSize = .a16 := by
  simp only [encodingUd, ite_some_eq_none, and_true]

theorem noVsib_eq_false_iff (modrm : Byte) :
    noVsib modrm = false ↔ modrm.extractLsb' 6 2 ≠ 3#2 ∧ modrm.extractLsb' 0 3 = 4#3 := by
  simp [noVsib]

/-! ## Encoding and decoding -/

theorem encodingUd_encode {c : CodeSize} (f : Form) (o : Operands) (h : asizeOf c o.addrSizePrefix ≠ .a16) :
    encodingUd c (allowedPrefixes o) o.p0 f.p1 (p2Byte f o) o.modrm = none := by
  obtain ⟨-, -, -, -, hreserved0, -⟩ := p0_bits o
  obtain ⟨-, hvvvv, hreserved1, -⟩ := p1_bits f
  obtain ⟨hz, hll, hb, -⟩ := p2_bits f o
  obtain ⟨hmod, -, hrm⟩ := modrm_bits o
  have hform : f.ll ≠ 3#2 := by cases f <;> decide
  have hvsib : noVsib o.modrm = false := (noVsib_eq_false_iff _).2 ⟨hmod ▸ mod_ne_three _, hrm⟩
  rw [encodingUd_eq_none_iff, hreserved0, hvvvv, hreserved1, hz, hll, hb, hvsib]
  simp [allowedPrefixes, hform, h]

/-- In 32-bit mode the registers that exist there have no extension bit (30 R71). -/
theorem lowRegs_bits {o : Operands} (h : lowRegs o = true) :
    o.dest.getLsbD 4 = false ∧ o.dest.getLsbD 3 = false ∧ o.index.getLsbD 4 = false ∧ o.index.getLsbD 3 = false ∧
      o.addr.baseBits.getLsbD 3 = false := by
  have hlow5 : ∀ r : BitVec 5, r.toNat < 8 → r.getLsbD 4 = false ∧ r.getLsbD 3 = false := by decide
  have hlow4 : ∀ r : BitVec 4, r.toNat < 8 → r.getLsbD 3 = false := by decide
  simp only [lowRegs, Bool.and_eq_true, decide_eq_true_eq] at h
  obtain ⟨⟨hdest, hindex⟩, hbase⟩ := h
  refine ⟨(hlow5 _ hdest).1, (hlow5 _ hdest).2, (hlow5 _ hindex).1, (hlow5 _ hindex).2, ?_⟩
  cases ha : o.addr with
  | noBase d => exact (by decide : (5#4).getLsbD 3 = false)
  | base r d =>
    rw [ha] at hbase
    exact hlow4 r (by simpa using hbase)

/-- Where the mode has its registers and an address size other than 16, an instruction whose address can be encoded decodes from
its own bytes. -/
theorem decode_encode {c : CodeSize} {i : Instr} (rest : List Byte) (haddr : i.ops.addr.wf = true)
    (hsize : asizeOf c i.ops.addrSizePrefix ≠ .a16) (hregs : c = .code64 ∨ lowRegs i.ops = true) :
    decode c (encode i ++ rest) = .instr i rest := by
  generalize hf : i.form = f
  generalize ho : i.ops = o at *
  have hi : i = .ofForm f o := by rw [← hf, ← ho, ofForm_form_ops]
  obtain ⟨h07, h06, h05, h04, -, hmmm, h076⟩ := p0_bits o
  obtain ⟨hw, -, -, hpp⟩ := p1_bits f
  obtain ⟨-, hll, -, h23, hmask⟩ := p2_bits f o
  obtain ⟨hmod, hreg, -⟩ := modrm_bits o
  obtain ⟨hss, hidx, hbase⟩ := vsib_bits o
  have hpoint : GatherPoint c o.p0 f.p1 := by
    refine ⟨hregs.imp_right fun hlow => ?_, hmmm, hpp⟩
    obtain ⟨-, hd3, -, hi3, -⟩ := lowRegs_bits hlow
    exact h076 hd3 hi3
  have hext : ¬ (c ≠ .code64 ∧ extensionBitClear o.p0 (p2Byte f o) = true) := by
    rintro ⟨hc, hx⟩
    obtain ⟨hd4, -, hi4, -, hb3⟩ := lowRegs_bits (hregs.resolve_left hc)
    simp only [extensionBitClear, h04, h23, h05, hd4, hi4, hb3] at hx
    exact absurd hx (by decide)
  have hbytes : encode i ++ rest = o.prefixBytes ++ 0x62#8 :: o.p0 :: f.p1 :: p2Byte f o :: 0x91#8 :: o.modrm ::
      o.vsib :: (o.addr.dispBytes ++ rest) := by
    simp [encode, hf, ho]
  rw [hbytes, decode_allowed _ (.inl rfl) (prefixByte_62 c),
    decodeEvex_vsib hpoint _ rfl (encodingUd_encode f o hsize) hext,
    decodeVsib_cons (f := f) (a := o.addr) (rest := rest) (by rw [hw, hll, formOf_w_ll])
      (by rw [hmod, h05, hbase, decodeAddr_encode _ _ haddr]), hi]
  simp only [h04, h07, hreg, h23, h06, hidx, hmask, hss, Bool.not_not, register5_split, scaleOf_ss, allowedPrefixes]

theorem asizeOf_code64 (b : Bool) : asizeOf .code64 b ≠ .a16 := by
  cases b <;> decide

theorem addr_wf_of_wf {i : Instr} (h : i.wf = true) : i.ops.addr.wf = true := by
  rw [instr_wf] at h
  exact (Bool.and_eq_true_iff.1 h).2

/-- Settles O4: 64-bit mode has every register, and no address size is 16 there. -/
theorem encodeThenDecode64 : Obligations.EncodeThenDecode64 := by
  unfold Obligations.EncodeThenDecode64
  intro i rest h
  exact decode_encode rest (addr_wf_of_wf h) (asizeOf_code64 _) (.inl rfl)

/-- Settles O5: the registers 0 to 7 are those of 32-bit mode. -/
theorem encodeThenDecode32 : Obligations.EncodeThenDecode32 := by
  unfold Obligations.EncodeThenDecode32
  intro c i rest _ h hlow hsize
  exact decode_encode rest (addr_wf_of_wf h) hsize (.inr hlow)

/-- Settles O3: each word evaluated. -/
theorem workedExampleBytesDecode : Obligations.WorkedExampleBytesDecode := by
  unfold Obligations.WorkedExampleBytesDecode
  exact ⟨by decide, by decide, by decide, by decide, by decide, by decide⟩

end Sys2Proof.Proofs
end

section
/-! Every list of bytes the decoder can be given: what the prefixes before an encoding make of it, how many bytes it takes, and
which encodings raise #UD or are refused: the settled statements. -/

namespace Sys2Proof.Proofs

open Sys2Proof.Machine Sys2Proof.Laws

/-! ## Kinds of prefixes (30 R51) -/

/-- Has one of this kind been seen? The segment overrides are one kind. -/
def hasPrefix (p : Prefixes) : PrefixByte → Bool
  | .seg _ => p.seg.isSome
  | .addrSize => p.addrSize
  | .lock => p.lock
  | .p66 => p.p66
  | .pF2 => p.pF2
  | .pF3 => p.pF3
  | .rex => p.rex

def sameKind : PrefixByte → PrefixByte → Bool
  | .seg _, .seg _ => true
  | x, y => decide (x = y)

@[simp] theorem sameKind_self (x : PrefixByte) : sameKind x x = true := by
  cases x <;> rfl

theorem sameKind_iff {x y : PrefixByte} : sameKind x y = true ↔ x = y ∨ ∃ g g', x = .seg g ∧ y = .seg g' := by
  unfold sameKind
  split
  · simp
  next hseg =>
    simp only [decide_eq_true_eq, iff_self_or]
    rintro ⟨g, g', rfl, rfl⟩
    exact (hseg g g' rfl rfl).elim

theorem repeated_add (p : Prefixes) (x : PrefixByte) : (p.add x).repeated = (p.repeated || hasPrefix p x) := by
  cases x <;> rfl

theorem hasPrefix_add (p : Prefixes) (x y : PrefixByte) : hasPrefix (p.add x) y = (hasPrefix p y || sameKind x y) := by
  cases x <;> cases y <;> simp [hasPrefix, sameKind, Prefixes.add, Prefixes.note]

theorem hasPrefix_foldl (xs : List PrefixByte) (p : Prefixes) (y : PrefixByte) :
    hasPrefix (xs.foldl Prefixes.add p) y = (hasPrefix p y || xs.any fun x => sameKind x y) := by
  induction xs generalizing p with
  | nil => simp
  | cons x xs ih => rw [List.foldl_cons, ih, hasPrefix_add, List.any_cons, Bool.or_assoc]

/-- None is repeated iff no two are of one kind, and none of a kind seen before. -/
theorem repeated_foldl (xs : List PrefixByte) (p : Prefixes) :
    (xs.foldl Prefixes.add p).repeated = false ↔
      p.repeated = false ∧ (∀ x ∈ xs, hasPrefix p x = false) ∧ xs.Pairwise fun x y => sameKind x y = false := by
  induction xs generalizing p with
  | nil => simp
  | cons x xs ih =>
    simp only [List.foldl_cons, ih, repeated_add, hasPrefix_add, Bool.or_eq_false_iff, List.forall_mem_cons,
      List.pairwise_cons, forall_and]
    tauto

theorem count_foldl (xs : List PrefixByte) (p : Prefixes) : (xs.foldl Prefixes.add p).count = p.count + xs.length := by
  induction xs generalizing p with
  | nil => rfl
  | cons x xs ih =>
    rw [List.foldl_cons, ih, List.length_cons]
    show p.count + 1 + xs.length = _
    omega

/-- How many kinds of prefixes have been seen. -/
def kindCount (p : Prefixes) : Nat :=
  p.seg.isSome.toNat + p.addrSize.toNat + p.lock.toNat + p.p66.toNat + p.pF2.toNat + p.pF3.toNat + p.rex.toNat

theorem kindCount_add (p : Prefixes) (x : PrefixByte) (h : hasPrefix p x = false) :
    kindCount (p.add x) = kindCount p + 1 := by
  cases x <;> simp only [hasPrefix] at h <;> simp only [kindCount, Prefixes.add, Prefixes.note, h, Option.isSome_some,
    Bool.toNat_true, Bool.toNat_false] <;> omega

/-- While none is repeated, each is of a kind of its own. -/
theorem kindCount_foldl (xs : List PrefixByte) (p : Prefixes) (h : (xs.foldl Prefixes.add p).repeated = false) :
    kindCount (xs.foldl Prefixes.add p) = kindCount p + xs.length := by
  induction xs generalizing p with
  | nil => rfl
  | cons x xs ih =>
    obtain ⟨-, hnew, -⟩ := (repeated_foldl (x :: xs) p).1 h
    rw [List.foldl_cons, ih _ h, kindCount_add p x (hnew x List.mem_cons_self), List.length_cons]
    omega

/-! ## Bytes by their kinds of prefixes -/

/-- The bytes of each kind (30 R51). -/
def IsByteOf (c : CodeSize) (x : Byte) : PrefixByte → Prop
  | .seg g => x = g.prefixByte
  | .addrSize => x = 0x67#8
  | .lock => x = 0xF0#8
  | .p66 => x = 0x66#8
  | .pF2 => x = 0xF2#8
  | .pF3 => x = 0xF3#8
  | .rex => c = .code64 ∧ x.extractLsb' 4 4 = 4#4

theorem prefixByte_rex {x : Byte} (h : x.extractLsb' 4 4 = 4#4) : prefixByte .code64 x = some .rex := by
  have hne (v : Byte) (hv : v.extractLsb' 4 4 ≠ 4#4) : x ≠ v := fun e => hv (e ▸ h)
  simp only [prefixByte, hne 0x2E#8 (by decide), hne 0x36#8 (by decide), hne 0x3E#8 (by decide), hne 0x26#8 (by decide),
    hne 0x64#8 (by decide), hne 0x65#8 (by decide), hne 0x67#8 (by decide), hne 0xF0#8 (by decide),
    hne 0x66#8 (by decide), hne 0xF2#8 (by decide), hne 0xF3#8 (by decide), h, if_false, and_self, if_true]

theorem of_ite_some_eq_some {α : Type} {a : Prop} [Decidable a] {u v : α} {x : Option α}
    (h : (if a then some u else x) = some v) : (a ∧ u = v) ∨ x = some v := by
  by_cases ha : a
  · exact .inl ⟨ha, by simpa [ha] using h⟩
  · exact .inr (by simpa [ha] using h)

theorem prefixByte_eq_some_iff (c : CodeSize) (x : Byte) (a : PrefixByte) :
    prefixByte c x = some a ↔ IsByteOf c x a := by
  constructor
  · intro h
    unfold prefixByte at h
    repeat
      obtain ⟨hx, rfl⟩ | h := of_ite_some_eq_some h
      · exact hx
    cases h
  · intro h
    cases a with
    | seg g => exact h ▸ prefixByte_segPrefix c g
    | rex =>
      obtain ⟨rfl, hx⟩ := h
      exact prefixByte_rex hx
    | _ => exact h ▸ rfl

/-- Two bytes are one of the prefixes written twice iff they are of one kind. -/
theorem samePrefix_iff {c : CodeSize} {x y : Byte} {a b : PrefixByte} (hx : prefixByte c x = some a)
    (hy : prefixByte c y = some b) : SamePrefix c x y ↔ sameKind a b = true := by
  constructor
  · rintro (⟨g, g', rfl, rfl⟩ | ⟨rfl, -⟩ | ⟨rfl, hx', hy'⟩)
    · obtain rfl : PrefixByte.seg g = a := by simpa [prefixByte_segPrefix] using hx
      obtain rfl : PrefixByte.seg g' = b := by simpa [prefixByte_segPrefix] using hy
      rfl
    · obtain rfl : a = b := by simpa [hx] using hy
      exact sameKind_self a
    · obtain rfl : PrefixByte.rex = a := by simpa [prefixByte_rex hx'] using hx
      obtain rfl : PrefixByte.rex = b := by simpa [prefixByte_rex hy'] using hy
      rfl
  · intro h
    rw [prefixByte_eq_some_iff] at hx hy
    obtain rfl | ⟨g, g', rfl, rfl⟩ := sameKind_iff.1 h
    · cases a with
      | seg g => exact .inl ⟨g, g, hx, hy⟩
      | rex => exact .inr (.inr ⟨hx.1, hx.2, hy.2⟩)
      | _ => exact .inr (.inl ⟨hx.trans hy.symm, by simp [show x = _ from hx]⟩)
    · exact .inl ⟨g, g', hx, hy⟩

theorem isSome_of_samePrefix {c : CodeSize} {x y : Byte} (h : SamePrefix c x y) :
    (prefixByte c x).isSome = true ∧ (prefixByte c y).isSome = true := by
  rcases h with ⟨g, g', rfl, rfl⟩ | ⟨rfl, rfl | rfl | rfl | rfl | rfl⟩ | ⟨rfl, hx, hy⟩
  · simp only [prefixByte_segPrefix, Option.isSome_some, and_self]
  · exact ⟨rfl, rfl⟩
  · exact ⟨rfl, rfl⟩
  · exact ⟨rfl, rfl⟩
  · exact ⟨rfl, rfl⟩
  · exact ⟨rfl, rfl⟩
  · simp only [prefixByte_rex hx, prefixByte_rex hy, Option.isSome_some, and_self]

/-! ## What a list of prefixes says -/

section

variable {c : CodeSize} {pre : List Byte}

theorem notePrefixes_count (hpre : ∀ z ∈ pre, (prefixByte c z).isSome = true) :
    (notePrefixes c {} pre).count = pre.length := by
  have hlen : (pre.filterMap (prefixByte c)).length = pre.length :=
    List.length_filterMap_eq_countP.trans (List.countP_eq_length.2 hpre)
  rw [notePrefixes, count_foldl, hlen, Nat.zero_add]

theorem notePrefixes_repeated (hpre : ∀ z ∈ pre, (prefixByte c z).isSome = true) :
    (notePrefixes c {} pre).repeated = false ↔ pre.Pairwise fun x y => ¬ SamePrefix c x y := by
  have hnone : ∀ x ∈ pre.filterMap (prefixByte c), hasPrefix {} x = false := fun x _ => by cases x <;> rfl
  rw [notePrefixes, repeated_foldl, and_iff_right rfl, and_iff_right hnone, List.pairwise_filterMap]
  refine List.Pairwise.iff_of_mem fun {x y} hx hy => ?_
  obtain ⟨a, ha⟩ := Option.isSome_iff_exists.1 (hpre x hx)
  obtain ⟨b, hb⟩ := Option.isSome_iff_exists.1 (hpre y hy)
  simp [ha, hb, samePrefix_iff ha hb]

theorem hasPrefix_of_mem {x : Byte} {a : PrefixByte} (hx : x ∈ pre) (ha : prefixByte c x = some a) :
    hasPrefix (notePrefixes c {} pre) a = true := by
  rw [notePrefixes, hasPrefix_foldl, Bool.or_eq_true]
  exact .inr (List.any_eq_true.2 ⟨a, List.mem_filterMap.2 ⟨x, hx, ha⟩, sameKind_self a⟩)

end

/-- A list of bytes is its prefixes and what follows them. -/
theorem scanPrefixes_eq {c : CodeSize} {p q : Prefixes} {bytes r : List Byte} (h : scanPrefixes c p bytes = (q, r)) :
    ∃ pre, bytes = pre ++ r ∧ (∀ z ∈ pre, (prefixByte c z).isSome = true) ∧ q = notePrefixes c p pre := by
  induction bytes generalizing p with
  | nil =>
    obtain ⟨rfl, rfl⟩ := Prod.mk.inj h
    exact ⟨[], rfl, by simp, rfl⟩
  | cons b bs ih =>
    rw [scanPrefixes] at h
    split at h
    · rename_i x hx
      obtain ⟨pre, rfl, hpre, rfl⟩ := ih h
      refine ⟨b :: pre, rfl, List.forall_mem_cons.2 ⟨by simp [hx], hpre⟩, ?_⟩
      rw [notePrefixes, notePrefixes, List.filterMap_cons_some hx, List.foldl_cons]
    · obtain ⟨rfl, rfl⟩ := Prod.mk.inj h
      exact ⟨[], rfl, by simp, rfl⟩

/-! ## Decoded instructions (30 R50, R62) -/

theorem takeDisp32_eq_some {bytes rest : List Byte} {d : BitVec 32} (h : takeDisp32 bytes = some (d, rest)) :
    ∃ pre, bytes = pre ++ rest ∧ pre.length = 4 := by
  unfold takeDisp32 at h
  split at h
  · rename_i b0 b1 b2 b3 _
    obtain ⟨-, rfl⟩ := Prod.mk.inj (Option.some.inj h)
    exact ⟨[b0, b1, b2, b3], rfl, rfl⟩
  · cases h

/-- The address read can be encoded, and its displacement bytes were taken. -/
theorem decodeAddr_eq_some {mod : BitVec 2} {bInv : Bool} {base : BitVec 3} {bytes rest : List Byte} {a : Addr}
    (h : decodeAddr mod bInv base bytes = some (a, rest)) :
    (∃ pre, bytes = pre ++ rest ∧ pre.length = a.dispLength) ∧ a.wf = true := by
  unfold decodeAddr at h
  split_ifs at h with hmod hbase hmod1
  · obtain ⟨⟨d, r⟩, hd, he⟩ := Option.map_eq_some_iff.1 h
    obtain ⟨rfl, rfl⟩ := Prod.mk.inj he
    exact ⟨takeDisp32_eq_some hd, rfl⟩
  · obtain ⟨rfl, rfl⟩ := Prod.mk.inj (Option.some.inj h)
    have hlow : ∀ (b : Bool) (x : BitVec 3), (BitVec.ofBool b ++ x).extractLsb' 0 3 = x := by decide
    exact ⟨⟨[], rfl, rfl⟩, by simp [Addr.wf, hlow, hbase]⟩
  · split at h
    · rename_i d rest'
      obtain ⟨rfl, rfl⟩ := Prod.mk.inj (Option.some.inj h)
      exact ⟨⟨[d], rfl, rfl⟩, by simp [Addr.wf]⟩
    · cases h
  · obtain ⟨⟨d, r⟩, hd, he⟩ := Option.map_eq_some_iff.1 h
    obtain ⟨rfl, rfl⟩ := Prod.mk.inj he
    exact ⟨takeDisp32_eq_some hd, by simp [Addr.wf]⟩

/-- Where the decoder answers an instruction, every test on the way was passed and the instruction is what the fields say. -/
theorem decodeEvex_eq_instr {c : CodeSize} {p : Prefixes} {bytes rest : List Byte} {i : Instr}
    (h : decodeEvex c p bytes = .instr i rest) :
    ∃ p0 p1 p2 modrm vsib bs f a, bytes = 0x62#8 :: p0 :: p1 :: p2 :: 0x91#8 :: modrm :: vsib :: bs ∧
      isEvex c p0 = true ∧ p.repeated = false ∧ encodingUd c p p0 p1 p2 modrm = none ∧
      ¬ (c ≠ .code64 ∧ extensionBitClear p0 p2 = true) ∧
      decodeAddr (modrm.extractLsb' 6 2) (p0.getLsbD 5) (vsib.extractLsb' 0 3) bs = some (a, rest) ∧
      i = .ofForm f
        { dest := BitVec.ofBool (!p0.getLsbD 4) ++ BitVec.ofBool (!p0.getLsbD 7) ++ modrm.extractLsb' 3 3
          index := BitVec.ofBool (!p2.getLsbD 3) ++ BitVec.ofBool (!p0.getLsbD 6) ++ vsib.extractLsb' 3 3
          mask := p2.extractLsb' 0 3
          addr := a
          scale := scaleOf (vsib.extractLsb' 6 2)
          segOverride := p.seg
          addrSizePrefix := p.addrSize } := by
  unfold decodeEvex at h
  split at h
  · cases h
  split_ifs at h with h62
  split at h
  · cases h
  split_ifs at h with hevex
  unfold decodePayload at h
  split at h
  · split_ifs at h with hpoint hrep hx
    · split at h <;> cases h
    split at h
    · cases h
    rename_i hud
    unfold decodeVsib at h
    split at h
    · cases h
    split at h
    · cases h
    split at h
    · cases h
    · rename_i ha
      simp only [isGatherPoint, Bool.not_eq_true', Bool.not_eq_false, Bool.and_eq_true, decide_eq_true_eq] at hpoint
      obtain ⟨-, rfl⟩ := hpoint
      obtain rfl := not_not.1 h62
      obtain ⟨rfl, rfl⟩ := Decoded.instr.inj h
      exact ⟨_, _, _, _, _, _, _, _, rfl, hevex, by simpa using hrep, hud, hx, ha, rfl⟩
  · cases h

theorem ilen_le (o : Operands) : o.ilen ≤ 13 := by
  obtain ⟨_, _, _, a, _, seg, b⟩ := o
  have hseg : seg.isSome.toNat ≤ 1 := Bool.toNat_le _
  have hb : b.toNat ≤ 1 := Bool.toNat_le _
  have ha : a.dispLength ≤ 4 := by rcases a with _ | ⟨_, _ | _ | _⟩ <;> simp [Addr.dispLength]
  simp only [Operands.ilen, Operands.prefixLength]
  omega

/-- Settles O6: the prefixes are not repeated and none of them is forbidden, so they are the two that operands carry. -/
theorem decodedInstructionLength : Obligations.DecodedInstructionLength := by
  unfold Obligations.DecodedInstructionLength
  intro c bytes rest i h
  generalize hscan : scanPrefixes c {} bytes = r at h
  obtain ⟨p, r⟩ := r
  rw [decode, hscan] at h
  obtain ⟨pre, rfl, hpre, rfl⟩ := scanPrefixes_eq hscan
  obtain ⟨p0, p1, p2, modrm, vsib, bs, f, a, rfl, -, hrep, hud, -, haddr, rfl⟩ := decodeEvex_eq_instr h
  rw [ops_ofForm]
  obtain ⟨⟨disp, rfl, hdisp⟩, hwf⟩ := decodeAddr_eq_some haddr
  refine ⟨⟨pre ++ 0x62#8 :: p0 :: p1 :: p2 :: 0x91#8 :: modrm :: vsib :: disp, by simp, ?_⟩, ilen_le _, hwf⟩
  have hkinds : kindCount (notePrefixes c {} pre) = pre.length := by
    rw [← notePrefixes_count hpre, notePrefixes, kindCount_foldl _ _ hrep, count_foldl]
    rfl
  obtain ⟨hlock, hmand, hrex, -⟩ := (encodingUd_eq_none_iff _ _ _ _ _ _).1 hud
  simp only [Bool.not_eq_true, Bool.or_eq_false_iff] at hlock hmand hrex
  simp only [kindCount, hlock, hmand, hrex, Bool.toNat_false] at hkinds
  simp only [List.length_append, List.length_cons, Operands.ilen, Operands.prefixLength, hdisp]
  omega

/-! ## The whole opcode point (30 R54, R58 to R63, R65, R68, R69, R71) -/

/-- An #UD encoding is as long as its prefixes, ModRM and the VSIB byte say. -/
theorem udLength_eq (p : Prefixes) (modrm : Byte) (rest : List Byte) :
    udLength p modrm rest = encodingLength p.count modrm rest.head? := by
  have hmod : ∀ m : BitVec 2, m = 0#2 ∨ m = 1#2 ∨ m = 2#2 ∨ m = 3#2 := by decide
  unfold udLength encodingLength
  by_cases hv : noVsib modrm = true
  · have hv' : modrm.extractLsb' 6 2 = 3#2 ∨ modrm.extractLsb' 0 3 ≠ 4#3 := by simpa [noVsib] using hv
    rw [if_pos hv, if_pos hv']
  · obtain ⟨h3, h4⟩ := (noVsib_eq_false_iff modrm).1 (by simpa using hv)
    have hv' : ¬ (modrm.extractLsb' 6 2 = 3#2 ∨ modrm.extractLsb' 0 3 ≠ 4#3) := fun h => h.elim h3 (· h4)
    rw [if_neg hv, if_neg hv', dispCount]
    rcases hmod (modrm.extractLsb' 6 2) with h | h | h | h
    · cases rest with
      | nil => simp [h]
      | cons v vs => by_cases hb : v.extractLsb' 0 3 = 5#3 <;> simp [h, hb]
    · simp [h]
    · simp [h]
    · exact absurd h h3

theorem asizeOf_eq_a16_iff (c : CodeSize) (b : Bool) :
    asizeOf c b = .a16 ↔ (c = .code32 ∧ b = true) ∨ (c = .code16 ∧ b = false) := by
  cases c <;> cases b <;> decide

theorem extensionBitClear_iff (p0 p2 : Byte) :
    extensionBitClear p0 p2 = true ↔ p0.getLsbD 4 = false ∨ p2.getLsbD 3 = false ∨ p0.getLsbD 5 = false := by
  simp only [extensionBitClear, Bool.or_eq_true, Bool.not_eq_true', or_assoc]

/-- With the allowed prefixes only, the decoder's #UD conditions are those of the payload, ModRM and the address size. -/
theorem encodingUd_allowed_iff (c : CodeSize) (o : Operands) (p0 p1 p2 modrm : Byte) :
    encodingUd c (allowedPrefixes o) p0 p1 p2 modrm = none ↔
      ¬ (p0.getLsbD 3 = true ∨ p1.getLsbD 2 = false ∨ p2.extractLsb' 5 2 = 3#2 ∨
        p1.extractLsb' 3 4 ≠ 15#4 ∨ p2.getLsbD 4 = true ∨ p2.getLsbD 7 = true ∨
        modrm.extractLsb' 6 2 = 3#2 ∨ modrm.extractLsb' 0 3 ≠ 4#3 ∨
        (c = .code32 ∧ o.addrSizePrefix = true) ∨ (c = .code16 ∧ o.addrSizePrefix = false)) := by
  rw [encodingUd_eq_none_iff, ← asizeOf_eq_a16_iff, Bool.not_eq_true (noVsib modrm), noVsib_eq_false_iff,
    Bool.not_eq_true' (p1.getLsbD 2)]
  simp only [allowedPrefixes, Bool.or_self, Bool.false_eq_true, not_false_eq_true, true_and, not_or, not_not, ne_eq,
    and_assoc]

theorem formOf_of_ne_three (w : Bool) (ll : BitVec 2) (h : ll ≠ 3#2) :
    ∃ f, formOf w ll = some f ∧ f.w = w ∧ f.ll = ll := by
  have hll : ll = 0#2 ∨ ll = 1#2 ∨ ll = 2#2 := by revert ll; decide
  rcases hll with rfl | rfl | rfl <;> cases w <;> exact ⟨_, rfl, rfl, rfl⟩

theorem toNat_register5 (a b : Bool) (r : BitVec 3) :
    (BitVec.ofBool a ++ BitVec.ofBool b ++ r).toNat = a.toNat * 16 + b.toNat * 8 + r.toNat := by
  revert a b r
  decide

theorem toNat_register4 (a : Bool) (r : BitVec 3) : (BitVec.ofBool a ++ r).toNat = a.toNat * 8 + r.toNat := by
  revert a r
  decide

theorem factor_scaleOf (ss : BitVec 2) : (scaleOf ss).factor.toNat = 2 ^ ss.toNat := by
  revert ss
  decide

/-- The address of an encoding whose VSIB byte is followed by at least four bytes (30 R60, R62). -/
theorem decodeAddr_bytes {modrm : Byte} (bInv : Bool) (vsib d0 d1 d2 d3 : Byte) (rest : List Byte)
    (h : modrm.extractLsb' 6 2 ≠ 3#2) :
    ∃ a, decodeAddr (modrm.extractLsb' 6 2) bInv (vsib.extractLsb' 0 3) (d0 :: d1 :: d2 :: d3 :: rest) =
        some (a, (d0 :: d1 :: d2 :: d3 :: rest).drop (dispCount modrm (some vsib))) ∧
      (modrm.extractLsb' 6 2 = 0#2 ∧ vsib.extractLsb' 0 3 = 5#3 → a = .noBase (d3 ++ d2 ++ d1 ++ d0)) ∧
      (¬ (modrm.extractLsb' 6 2 = 0#2 ∧ vsib.extractLsb' 0 3 = 5#3) → ∃ b d, a = .base b d ∧
        b.toNat = (!bInv).toNat * 8 + (vsib.extractLsb' 0 3).toNat ∧
        (modrm.extractLsb' 6 2 = 0#2 → d = .absent) ∧ (modrm.extractLsb' 6 2 = 1#2 → d = .disp8 d0) ∧
        (modrm.extractLsb' 6 2 = 2#2 → d = .disp32 (d3 ++ d2 ++ d1 ++ d0))) := by
  have hbase := toNat_register4 (!bInv) (vsib.extractLsb' 0 3)
  have hmod : modrm.extractLsb' 6 2 = 0#2 ∨ modrm.extractLsb' 6 2 = 1#2 ∨ modrm.extractLsb' 6 2 = 2#2 := by
    generalize modrm.extractLsb' 6 2 = m at h
    revert m
    decide
  unfold dispCount
  rcases hmod with hm | hm | hm
  · by_cases hb : vsib.extractLsb' 0 3 = 5#3
    · exact ⟨_, by simp [decodeAddr, hm, hb, takeDisp32], fun _ => rfl, fun hn => absurd ⟨hm, hb⟩ hn⟩
    · exact ⟨.base _ .absent, by simp [decodeAddr, hm, hb], fun hn => absurd hn.2 hb,
        fun _ => ⟨_, _, rfl, hbase, by simp [hm]⟩⟩
  · exact ⟨.base _ (.disp8 d0), by simp [decodeAddr, hm], fun hn => by simp [hm] at hn,
      fun _ => ⟨_, _, rfl, hbase, by simp [hm]⟩⟩
  · exact ⟨.base _ (.disp32 (d3 ++ d2 ++ d1 ++ d0)), by simp [decodeAddr, hm, takeDisp32], fun hn => by simp [hm] at hn,
      fun _ => ⟨_, _, rfl, hbase, by simp [hm]⟩⟩

theorem allowedPrefixes_count {c : CodeSize} {o : Operands} {pre : List Byte}
    (h : pre = o.prefixBytes ∨ pre = o.prefixBytes.reverse) : (allowedPrefixes o).count = pre.length := by
  obtain ⟨hpre, hnote⟩ := notePrefixes_allowed c o pre h
  rw [← hnote, notePrefixes_count hpre]

/-- Settles O7: the #UD conditions, then the extension bits, then the fields. -/
theorem opcodePointIsPartitioned : Obligations.OpcodePointIsPartitioned := by
  unfold Obligations.OpcodePointIsPartitioned
  intro c o pre p0 p1 p2 modrm vsib d0 d1 d2 d3 rest tail hpre hpoint upTo out bad extended noBase disp32
  have hud : encodingUd c (allowedPrefixes o) p0 p1 p2 modrm = none ↔ ¬ bad := encodingUd_allowed_iff c o p0 p1 p2 modrm
  have hext : c ≠ .code64 ∧ extensionBitClear p0 p2 = true ↔ extended := by rw [extensionBitClear_iff]
  have hupTo (bytes : List Byte) : upTo bytes =
      decodeEvex c (allowedPrefixes o) (0x62#8 :: p0 :: p1 :: p2 :: 0x91#8 :: modrm :: bytes) :=
    decode_allowed _ hpre (prefixByte_62 c)
  refine ⟨fun hbad => ?_, fun hbad hx => ?_, fun hbad hx => ?_⟩
  · obtain ⟨u, hu⟩ := Option.ne_none_iff_exists'.1 fun hn => hud.1 hn hbad
    refine ⟨u, ?_⟩
    rw [hupTo, decodeEvex_ud hpoint _ rfl hu, udLength_eq, allowedPrefixes_count (c := c) hpre]
  · rw [hupTo, decodeEvex_extended hpoint _ rfl (hud.2 hbad) (hext.2 hx)]
  · have hll : p2.extractLsb' 5 2 ≠ 3#2 := fun h => hbad (.inr (.inr (.inl h)))
    have hmod : modrm.extractLsb' 6 2 ≠ 3#2 := fun h => hbad (by simp only [bad, h, true_or, or_true])
    obtain ⟨f, hf, hw, hfll⟩ := formOf_of_ne_three (p1.getLsbD 7) _ hll
    obtain ⟨a, ha, hnoBase, hbase⟩ := decodeAddr_bytes (p0.getLsbD 5) vsib d0 d1 d2 d3 rest hmod
    have hout : out = _ := (hupTo _).trans ((decodeEvex_vsib hpoint _ rfl (hud.2 hbad) (mt hext.1 hx)).trans
      (decodeVsib_cons hf ha))
    refine ⟨_, hout, ?_⟩
    rw [form_ofForm, ops_ofForm]
    exact ⟨hw, hfll, toNat_register5 _ _ _, toNat_register5 _ _ _, rfl, rfl, rfl, factor_scaleOf _, hnoBase, hbase⟩

/-! ## Other opcode points (30 R52, R55, R72, R75) -/

theorem decodeEvex_otherPoint (c : CodeSize) (p : Prefixes) {p0 p1 op : Byte} (p2 modrm : Byte) (rest : List Byte)
    (h : p0.extractLsb' 0 3 ≠ 2#3 ∨ p1.extractLsb' 0 2 ≠ 1#2 ∨ op ≠ 0x91#8) :
    decodeEvex c p (0x62#8 :: p0 :: p1 :: p2 :: op :: modrm :: rest) = .notThisInstruction := by
  have hpoint : isGatherPoint p0 p1 op = false := by
    simp only [isGatherPoint, Bool.and_eq_false_iff, decide_eq_false_iff_not, or_assoc]
    exact h
  simp [decodeEvex, decodePayload, hpoint]

theorem decodeEvex_notEvex {c : CodeSize} (p : Prefixes) {p0 : Byte} (rest : List Byte) (h : isEvex c p0 = false) :
    decodeEvex c p (0x62#8 :: p0 :: rest) = .notThisInstruction := by
  simp [decodeEvex, h]

theorem decodeEvex_otherByte (c : CodeSize) (p : Prefixes) {b : Byte} (rest : List Byte) (h : b ≠ 0x62#8) :
    decodeEvex c p (b :: rest) = .notThisInstruction := by
  simp [decodeEvex, h]

/-- Settles O8: the three tests that come before the payload is read. -/
theorem otherOpcodePointsAreNotThisInstruction : Obligations.OtherOpcodePointsAreNotThisInstruction := by
  unfold Obligations.OtherOpcodePointsAreNotThisInstruction
  intro c o pre b p0 p1 p2 op modrm rest hpre
  refine ⟨fun h => ?_, fun hc h => ?_, fun hb hnone => ?_⟩
  · rw [decode_allowed _ hpre (prefixByte_62 c), decodeEvex_otherPoint c _ p2 modrm rest h]
  · rw [decode_allowed _ hpre (prefixByte_62 c), decodeEvex_notEvex _ _ (by simp [isEvex, hc, h])]
  · rw [decode_allowed _ hpre hnone, decodeEvex_otherByte c _ rest hb]

/-! ## Forbidden and repeated prefixes (30 R51) -/

/-- A forbidden byte is of one of five kinds, each of which the decoder tests. -/
theorem encodingUd_of_forbidden {c : CodeSize} {pre : List Byte} {x : Byte} (p0 p1 p2 modrm : Byte) (hx : x ∈ pre)
    (h : ForbiddenPrefix c x) : encodingUd c (notePrefixes c {} pre) p0 p1 p2 modrm ≠ none := by
  intro hnone
  obtain ⟨hlock, hmand, hrex, -⟩ := (encodingUd_eq_none_iff _ _ _ _ _ _).1 hnone
  simp only [Bool.or_eq_true, not_or] at hmand
  obtain ⟨⟨h66, hF2⟩, hF3⟩ := hmand
  rcases h with rfl | rfl | rfl | rfl | ⟨rfl, h⟩
  · exact hlock (hasPrefix_of_mem (a := .lock) hx rfl)
  · exact h66 (hasPrefix_of_mem (a := .p66) hx rfl)
  · exact hF2 (hasPrefix_of_mem (a := .pF2) hx rfl)
  · exact hF3 (hasPrefix_of_mem (a := .pF3) hx rfl)
  · exact hrex (hasPrefix_of_mem (a := .rex) hx (prefixByte_rex h))

/-- Settles O9: none is repeated, and the forbidden one is seen. -/
theorem forbiddenPrefixRaisesUd : Obligations.ForbiddenPrefixRaisesUd := by
  unfold Obligations.ForbiddenPrefixRaisesUd
  rintro c pre p0 p1 p2 modrm rest hpre hdistinct ⟨x, hx, hforbidden⟩ hpoint
  obtain ⟨u, hu⟩ := Option.ne_none_iff_exists'.1 (encodingUd_of_forbidden p0 p1 p2 modrm hx hforbidden)
  refine ⟨u, ?_⟩
  rw [decode_append _ hpre (prefixByte_62 c), decodeEvex_ud hpoint _ ((notePrefixes_repeated hpre).2 hdistinct) hu,
    udLength_eq, notePrefixes_count hpre]

/-- Settles O10: two bytes of one kind are one that is repeated. -/
theorem repeatedPrefixIsRefused : Obligations.RepeatedPrefixIsRefused := by
  unfold Obligations.RepeatedPrefixIsRefused
  intro c a b e x y p0 p1 p2 modrm rest hall hsame hpoint
  obtain ⟨hx, hy⟩ := isSome_of_samePrefix hsame
  have hpre : ∀ z ∈ a ++ x :: (b ++ y :: e), (prefixByte c z).isSome = true := by
    simp only [List.mem_append, List.mem_cons] at hall ⊢
    rintro z (hz | rfl | hz | rfl | hz)
    exacts [hall z (.inl (.inl hz)), hx, hall z (.inl (.inr hz)), hy, hall z (.inr hz)]
  have hrep : (notePrefixes c {} (a ++ x :: (b ++ y :: e))).repeated = true := by
    by_contra hn
    have hpair := (notePrefixes_repeated hpre).1 (by simpa using hn)
    obtain ⟨-, htail, -⟩ := List.pairwise_append.1 hpair
    exact (List.pairwise_cons.1 htail).1 y (by simp) hsame
  have hbytes : a ++ x :: (b ++ y :: (e ++ 0x62#8 :: p0 :: p1 :: p2 :: 0x91#8 :: modrm :: rest)) =
      (a ++ x :: (b ++ y :: e)) ++ 0x62#8 :: p0 :: p1 :: p2 :: 0x91#8 :: modrm :: rest := by simp
  rw [hbytes, decode_append _ hpre (prefixByte_62 c), decodeEvex_repeated hpoint _ _ _ hrep]

end Sys2Proof.Proofs
end

section
/-! Addresses and the access oracle: the settled statements. -/

namespace Sys2Proof.Proofs

open Sys2Proof.Machine Sys2Proof.Laws

/-! ## Displacement, linear address, segment (30 R62, R64; 20 R33) -/

theorem toInt_signExtend_64 {w : Nat} (d : BitVec w) (h : w ≤ 64) : (d.signExtend 64).toInt = d.toInt :=
  BitVec.toInt_signExtend_of_le h

/-- A signed byte times a small factor does not overflow. -/
theorem toInt_disp8_mul (d : BitVec 8) (n : Nat) (hn : n ≤ 8) :
    (d.signExtend 64 * BitVec.ofNat 64 n).toInt = d.toInt * n := by
  have hlo := BitVec.le_toInt d
  have hhi := BitVec.toInt_lt (x := d)
  have hn' : (BitVec.ofNat 64 n).toInt = n := by
    rw [BitVec.toInt_ofNat', Int.bmod_eq_of_le (by omega) (by omega)]
  rw [BitVec.toInt_mul, toInt_signExtend_64 d (by omega), hn']
  norm_num at hlo hhi
  apply Int.bmod_eq_of_le <;> norm_num <;> nlinarith

theorem elemBytes_eq (f : Form) : f.elemBytes = if f.w then 8 else 4 := by
  cases f <;> rfl

/-- Settles O17: sign extension keeps the value, and disp8 times `N` fits. -/
theorem displacementValue : Obligations.DisplacementValue := by
  unfold Obligations.DisplacementValue
  intro f o
  refine ⟨fun d h => ?_, fun r h => ?_, fun r d h => ?_, fun r d h => ?_⟩
  · simp only [dispValue, h, toInt_signExtend_64 d (by omega)]
  · simp only [dispValue, h]
  · simp only [dispValue, h]
    rw [toInt_disp8_mul d _ (elemBytes_le f), elemBytes_eq]
    cases f.w <;> rfl
  · simp only [dispValue, h, toInt_signExtend_64 d (by omega)]

theorem toNat_truncW (s : State) (v : Qword) :
    (truncW s v).toNat = if s.mode64 = true then v.toNat else v.toNat % 2 ^ 32 := by
  rw [truncW]
  split
  · rfl
  · have hlt : v.toNat % 2 ^ 32 < 2 ^ 64 := Nat.lt_of_lt_of_le (Nat.mod_lt _ (by decide)) (by decide)
    simp only [BitVec.toNat_setWidth, Nat.mod_eq_of_lt hlt]

theorem toNat_linear (s : State) (g : Seg) (ea : Qword) (i : Nat) :
    (linear s g ea i).toNat =
      ((segBase s g).toNat + ea.toNat + i) % (if s.mode64 = true then 2 ^ 64 else 2 ^ 32) := by
  have hdvd : (2 : Nat) ^ 32 ∣ 2 ^ 64 := Nat.pow_dvd_pow 2 (by decide)
  rw [linear, toNat_truncW]
  split <;>
    simp only [BitVec.toNat_add, BitVec.toNat_ofNat, Nat.add_mod_mod, Nat.mod_add_mod, Nat.mod_mod_of_dvd _ hdvd]

/-- Settles O18: the sum wraps at the size of the mode's address space. -/
theorem linearAddressFormula : Obligations.LinearAddressFormula := by
  unfold Obligations.LinearAddressFormula
  intro s g ea i
  rw [toNat_linear]
  refine ⟨fun h64 hg => ?_, fun h64 hfs hgs => ?_, fun h32 => ?_⟩
  · have hbase : segBase s g = (s.getSeg g).base := if_neg fun ⟨_, hfs, hgs⟩ => hg.elim hfs hgs
    rw [hbase, if_pos h64]
  · have hbase : segBase s g = 0 := if_pos ⟨h64, hfs, hgs⟩
    rw [hbase, if_pos h64]
    simp
  · have hbase : segBase s g = (s.getSeg g).base := if_neg fun ⟨h64, _⟩ => by simp [h32] at h64
    rw [hbase, h32]
    rfl

theorem defaultSeg_eq_ss_iff (o : Operands) :
    defaultSeg o = .ss ↔ ∃ r d, o.addr = .base r d ∧ (r = 4#4 ∨ r = 5#4) := by
  unfold defaultSeg
  cases ha : o.addr with
  | noBase d => simp
  | base r d => by_cases hr : r = 4#4 ∨ r = 5#4 <;> simp [hr]

theorem defaultSeg_ss_or_ds (o : Operands) : defaultSeg o = .ss ∨ defaultSeg o = .ds := by
  unfold defaultSeg
  split
  · exact .inr rfl
  · split
    · exact .inl rfl
    · exact .inr rfl

/-- Settles O19: an override counts unless 64-bit mode ignores it. -/
theorem segmentChoice : Obligations.SegmentChoice := by
  unfold Obligations.SegmentChoice
  intro o s
  refine ⟨fun h => by simp [segOf, h], fun h => by simp [segOf, h], fun g h32 h => by simp [segOf, h, h32], fun h => ?_⟩
  have hdefault : segOf o s = defaultSeg o := by
    rcases h with h | ⟨h64, hfs, hgs⟩
    · simp only [segOf, h]
    · cases ho : o.segOverride with
      | none => simp only [segOf, ho]
      | some g =>
        have hg : g ≠ .fs ∧ g ≠ .gs := ⟨fun e => hfs (by rw [ho, e]), fun e => hgs (by rw [ho, e])⟩
        simp only [segOf, ho, if_pos (And.intro h64 hg)]
  rw [hdefault]
  exact ⟨defaultSeg_eq_ss_iff o, defaultSeg_ss_or_ds o⟩

/-! ## The oracle as a parameter (20 R40) -/

/-- An answer of the right size is the answer. -/
theorem fit_eq_self {n : Nat} {r : Access} (h : ∀ v, r = .ok v → v.toNat < 256 ^ n) : r.fit n = r := by
  cases r with
  | ok v =>
    rw [Access.fit, Nat.mod_eq_of_lt (h v rfl), BitVec.ofNat_toNat, BitVec.setWidth_eq]
  | fault e => rfl
  | sideEffect => rfl

/-- Settles O20: the answer listed first, else the concrete oracle's. -/
theorem oracleIsAParameter : Obligations.OracleIsAParameter := by
  unfold Obligations.OracleIsAParameter
  intro s j g ea n a q
  refine ⟨fun r hr => ?_, fun hn v hv => access_ok_lt s j g ea n a v hn hv, fun hnone => ?_⟩
  · have hlookup : ((q, r) :: s.oracle).lookup q = some r := by simp
    have haccess : access { s with oracle := (q, r) :: s.oracle } j g ea n a = r.fit n := by
      rw [access]
      exact congrArg (fun x : Option Access => match x with
        | some r => r.fit n
        | none => mapAccess { s with oracle := (q, r) :: s.oracle } g ea n) hlookup
    rw [haccess, fit_eq_self hr]
  · have hlookup : s.oracle.lookup q = none := by
      rw [List.lookup_eq_none_iff]
      rintro ⟨q', r⟩ hmem
      by_contra hq
      obtain rfl : q = q' := by simpa using hq
      exact hnone r hmem
    rw [access]
    exact congrArg (fun x : Option Access => match x with
      | some r => r.fit n
      | none => mapAccess s g ea n) hlookup

/-! ## Regions (20 R40, R41) -/

theorem contains_iff (r : Region) (la : Qword) : r.contains la = true ↔ r.lo ≤ la.toNat ∧ la.toNat < r.hi := by
  simp [Region.contains]

theorem regionFault_eq_some {s : State} {early : Bool} {la : Qword} {e : AccessFault}
    (h : regionFault s early la = some e) :
    ∃ r ∈ s.regions, r.kind = .faults e ∧ e.early = early ∧ r.contains la = true := by
  obtain ⟨r, hr, he⟩ := List.exists_of_findSome?_eq_some h
  split at he
  · rename_i e' hk
    split_ifs at he with hc
    obtain rfl := Option.some.inj he
    exact ⟨r, hr, hk, hc⟩
  · cases he

theorem regionFault_eq_none_iff (s : State) (early : Bool) (la : Qword) :
    regionFault s early la = none ↔
      ∀ r ∈ s.regions, ∀ e, r.kind = .faults e → e.early = early → ¬ r.contains la = true := by
  rw [regionFault, List.findSome?_eq_none_iff]
  refine forall₂_congr fun r _ => ⟨fun h e hk he hc => ?_, fun h => ?_⟩
  · simp [hk, he, hc] at h
  · split
    · rename_i e hk
      exact if_neg fun ⟨he, hc⟩ => h e hk he hc
    · rfl

/-! ## The concrete oracle, case by case (20 R41) -/

section

variable {s : State} {g : Seg} {ea : Qword} {n : Nat}

theorem mapAccess_of_segmentFault (h : segmentFault s g ea n = true) :
    mapAccess s g ea n = .fault (segmentFaultKind g) := by
  rw [mapAccess, if_pos h]

theorem mapAccess_of_earlyFault {e : AccessFault} (h : segmentFault s g ea n = false)
    (he : ((List.range n).map (linear s g ea)).findSome? (regionFault s true) = some e) :
    mapAccess s g ea n = .fault e := by
  simp only [mapAccess, h, he, Bool.false_eq_true, if_false]

theorem earlyFault_none (h : PassesSegment s g ea n) :
    ((List.range n).map (linear s g ea)).findSome? (regionFault s true) = none := by
  rw [List.findSome?_eq_none_iff]
  intro la hla
  obtain ⟨i, hi, rfl⟩ := List.mem_map.1 hla
  exact h.2 i (List.mem_range.1 hi)

theorem mapAccess_of_readError {e : AccessFault} (h : PassesSegment s g ea n)
    (he : readBytes s ((List.range n).map (linear s g ea)) = .error e) : mapAccess s g ea n = .fault e := by
  simp only [mapAccess, h.1, earlyFault_none h, he, Bool.false_eq_true, if_false]

theorem mapAccess_of_read {bs : List Byte} (h : PassesSegment s g ea n)
    (hbs : readBytes s ((List.range n).map (linear s g ea)) = .ok bs)
    (hside : ∀ i < n, s.inRegion (fun k => decide (k = .sideEffect)) (linear s g ea i) = false) :
    mapAccess s g ea n = .ok (le bs) := by
  have hnone : ((List.range n).any fun i => s.inRegion (fun k => decide (k = .sideEffect)) (linear s g ea i)) = false := by
    rw [List.any_eq_false]
    intro i hi
    simp [hside i (List.mem_range.1 hi)]
  simp only [mapAccess, h.1, earlyFault_none h, hbs, hnone, Bool.false_eq_true, if_false]

/-- Where the concrete oracle answers a value, every check was passed. -/
theorem mapAccess_ok_passes {v : Qword} (h : mapAccess s g ea n = .ok v) :
    PassesSegment s g ea n ∧
      ∀ i < n, s.inRegion (fun k => decide (k = .sideEffect)) (linear s g ea i) = false := by
  unfold mapAccess at h
  split_ifs at h with hseg hside
  · split at h
    · cases h
    · split at h <;> cases h
  split at h
  · cases h
  rename_i hnone
  rw [List.findSome?_eq_none_iff] at hnone
  refine ⟨⟨by simpa using hseg, fun i hi => hnone _ (List.mem_map_of_mem (List.mem_range.2 hi))⟩, fun i hi => ?_⟩
  simpa using List.any_eq_false.1 (by simpa using hside) i (List.mem_range.2 hi)

/-- The bytes up to byte `k`, and byte `k`. -/
theorem range_split {k : Nat} (h : k < n) : ∃ rest, List.range n = List.range k ++ k :: rest := by
  obtain ⟨m, rfl⟩ := Nat.exists_eq_add_of_lt h
  refine ⟨(List.range m).map (k + 1 + ·), ?_⟩
  rw [show k + m + 1 = (k + 1) + m by omega, List.range_add, List.range_succ, List.append_assoc]
  rfl

theorem earlyFault_first {k : Nat} {e : AccessFault} (hk : k < n) (he : regionFault s true (linear s g ea k) = some e)
    (hbelow : ∀ i < k, regionFault s true (linear s g ea i) = none) :
    ((List.range n).map (linear s g ea)).findSome? (regionFault s true) = some e := by
  obtain ⟨rest, hrest⟩ := range_split hk
  have hnone : ((List.range k).map (linear s g ea)).findSome? (regionFault s true) = none := by
    rw [List.findSome?_eq_none_iff]
    intro la hla
    obtain ⟨i, hi, rfl⟩ := List.mem_map.1 hla
    exact hbelow i (List.mem_range.1 hi)
  rw [hrest, List.map_append, List.findSome?_append, hnone, List.map_cons, List.findSome?_cons, he]
  rfl

/-! ## Reading bytes -/

theorem readByte_of_readable {la : Qword} (h : Readable s la) : ∃ b, readByte s la = .ok b := by
  obtain ⟨hregion, ⟨b, hb⟩, hsuper⟩ := h
  refine ⟨b, ?_⟩
  simp only [readByte, hregion, hb]
  exact if_neg (by simpa using hsuper)

theorem readBytes_of_readable {las : List Qword} (h : ∀ la ∈ las, Readable s la) : ∃ bs, readBytes s las = .ok bs := by
  induction las with
  | nil => exact ⟨[], rfl⟩
  | cons la las ih =>
    obtain ⟨b, hb⟩ := readByte_of_readable (h la List.mem_cons_self)
    obtain ⟨bs, hbs⟩ := ih fun x hx => h x (List.mem_cons_of_mem _ hx)
    exact ⟨b :: bs, by simp only [readBytes, hb, hbs]⟩

/-- The first byte that cannot be read gives its fault. -/
theorem readBytes_firstError {las : List Qword} {la : Qword} {e : AccessFault} (rest : List Qword)
    (h : ∀ x ∈ las, Readable s x) (he : readByte s la = .error e) : readBytes s (las ++ la :: rest) = .error e := by
  induction las with
  | nil => simp only [List.nil_append, readBytes, he]
  | cons x las ih =>
    obtain ⟨b, hb⟩ := readByte_of_readable (h x List.mem_cons_self)
    simp only [List.cons_append, readBytes, hb, ih fun y hy => h y (List.mem_cons_of_mem _ hy)]

theorem mapAccess_firstError {k : Nat} {e : AccessFault} (hp : PassesSegment s g ea n) (hk : k < n)
    (hbelow : ∀ i < k, Readable s (linear s g ea i)) (he : readByte s (linear s g ea k) = .error e) :
    mapAccess s g ea n = .fault e := by
  obtain ⟨rest, hrest⟩ := range_split hk
  refine mapAccess_of_readError hp ?_
  rw [hrest, List.map_append, List.map_cons]
  refine readBytes_firstError _ (fun la hla => ?_) he
  obtain ⟨i, hi, rfl⟩ := List.mem_map.1 hla
  exact hbelow i (List.mem_range.1 hi)

theorem readByte_unmapped {la : Qword} (hregion : regionFault s false la = none)
    (hmem : Memory.read s.mem la.toNat = none) : readByte s la = .error (.pf (pfCode s false) la) := by
  simp only [readByte, hregion, hmem]

theorem readByte_supervisor {la : Qword} {b : Byte} (hregion : regionFault s false la = none)
    (hmem : Memory.read s.mem la.toNat = some b) (hcpl : s.cpl = 3#2)
    (hsuper : s.inRegion (fun k => decide (k = .supervisor)) la = true) :
    readByte s la = .error (.pf (pfCode s true) la) := by
  simp [readByte, hregion, hmem, hcpl, hsuper]

theorem readByte_regionFault {la : Qword} {e : AccessFault} (hregion : regionFault s false la = some e) :
    readByte s la = .error e := by
  simp only [readByte, hregion]

end

/-! ## Faults of the concrete oracle (20 R41, 60 R125, R126, R132) -/

/-- The non-canonical addresses of 48 linear-address bits. -/
theorem canonical_eq_false {la : Qword} (hlo : 2 ^ 47 ≤ la.toNat) (hhi : la.toNat < 2 ^ 64 - 2 ^ 47) :
    canonical la = false := by
  have hne (v : Qword) (hv : v.toNat ≠ la.toNat / 2 ^ 47) : la >>> 47 ≠ v := fun h => by
    refine hv ?_
    rw [← h, BitVec.toNat_ushiftRight, Nat.shiftRight_eq_div_pow]
  have hzero := hne 0 (by simp; omega)
  have hones := hne (BitVec.allOnes 64 >>> 47) (by simp; omega)
  simp only [canonical, Bool.or_eq_false_iff, decide_eq_false_iff_not]
  exact ⟨hzero, hones⟩

theorem segmentFaultKind_of_ne {g : Seg} (h : g ≠ .ss) : segmentFaultKind g = .gp0 := by
  cases g with
  | ss => exact absurd rfl h
  | _ => rfl

/-- Settles O23: the check is of every byte, and comes first. -/
theorem segmentCheckComesFirst : Obligations.SegmentCheckComesFirst := by
  unfold Obligations.SegmentCheckComesFirst
  intro s g ea n h
  have hfault : segmentFault s g ea n = true := by
    rcases h with ⟨h64, i, hi, hlo, hhi⟩ | ⟨h32, hunusable | ⟨i, hi, hlimit⟩⟩
    · rw [segmentFault, if_pos h64, List.any_eq_true]
      exact ⟨i, List.mem_range.2 hi, by rw [canonical_eq_false hlo hhi]; rfl⟩
    · simp [segmentFault, h32, hunusable]
    · have hany : ((List.range n).any fun i => decide ((s.getSeg g).limit.toNat < ea.toNat + i)) = true :=
        List.any_eq_true.2 ⟨i, List.mem_range.2 hi, decide_eq_true hlimit⟩
      simp only [segmentFault, h32, hany, Bool.or_true, Bool.false_eq_true, if_false]
  rw [mapAccess_of_segmentFault hfault]
  exact ⟨fun hg => by rw [hg]; rfl, fun hg => by rw [segmentFaultKind_of_ne hg]⟩

theorem getLsbD_pfCode_notPresent (s : State) (n : Nat) :
    (pfCode s false).getLsbD n = (decide (n = 2) && decide (s.cpl = 3#2)) := by
  have hbit : (4#32).getLsbD n = decide (n = 2) := by
    rw [BitVec.getLsbD_ofNat, show 4 = 2 ^ 2 from rfl, Nat.testBit_two_pow]
    by_cases h : n = 2
    · simp [h]
    · simp [h, Ne.symm h]
  by_cases hcpl : s.cpl = 3#2 <;> simp [pfCode, hcpl]
  exact hbit

/-- Settles O24: the first byte that cannot be read gives the fault. -/
theorem firstUnmappedByteFaults : Obligations.FirstUnmappedByteFaults := by
  unfold Obligations.FirstUnmappedByteFaults
  intro s g ea n k hk hp hbelow hregion hmem
  exact ⟨_, mapAccess_firstError hp hk hbelow (readByte_unmapped hregion hmem), getLsbD_pfCode_notPresent s⟩

/-- Settles O25: supervisor bytes are tested at privilege level 3 only. -/
theorem supervisorBytes : Obligations.SupervisorBytes := by
  unfold Obligations.SupervisorBytes
  rintro s g ea n k hk hp hregion ⟨b, hb⟩ hsuper
  refine ⟨fun hcpl hbelow => ?_, fun hcpl hall => ?_⟩
  · have hcode : pfCode s true = 5 := by
      rw [pfCode, if_pos rfl, if_pos hcpl]
      decide
    rw [mapAccess_firstError hp hk hbelow (readByte_supervisor hregion hb hcpl hsuper), hcode]
  · have hread : ∀ la ∈ (List.range n).map (linear s g ea), Readable s la := by
      intro la hla
      obtain ⟨i, hi, rfl⟩ := List.mem_map.1 hla
      obtain ⟨hnone, hmapped, -⟩ := hall i (List.mem_range.1 hi)
      exact ⟨hnone, hmapped, fun h => hcpl h.1⟩
    obtain ⟨bs, hbs⟩ := readBytes_of_readable hread
    exact ⟨le bs, mapAccess_of_read hp hbs fun i hi => (hall i hi).2.2⟩

/-- Settles O26: early faults of any byte first, then the bytes in order; a region's fault is found where the regions that
contain the address agree. -/
theorem regionFaults : Obligations.RegionFaults := by
  unfold Obligations.RegionFaults
  refine ⟨fun s g ea n k e hk hseg => ⟨fun he hbelow => ?_, fun he hearly hbelow => ?_⟩,
    fun s la r e hr hkind hlo hhi hagree => ?_, fun s la early hfree => ?_⟩
  · exact mapAccess_of_earlyFault hseg (earlyFault_first hk he hbelow)
  · exact mapAccess_firstError ⟨hseg, hearly⟩ hk hbelow (readByte_regionFault he)
  · cases hfault : regionFault s e.early la with
    | none => exact absurd ((contains_iff r la).2 ⟨hlo, hhi⟩) ((regionFault_eq_none_iff _ _ _).1 hfault r hr e hkind rfl)
    | some e' =>
      obtain ⟨r', hr', hkind', -, hcontains⟩ := regionFault_eq_some hfault
      obtain ⟨hlo', hhi'⟩ := (contains_iff r' la).1 hcontains
      rw [hagree r' hr' e' hkind' hlo' hhi']
  · refine (regionFault_eq_none_iff _ _ _).2 fun r hr e hkind he hcontains => ?_
    obtain ⟨hlo, hhi⟩ := (contains_iff r la).1 hcontains
    rcases hfree r hr e hkind he with h | h <;> omega

/-! ## A qword is two dwords (20 R31) -/

theorem readBytes_append {s : State} {xs ys : List Qword} {bs : List Byte} (h : readBytes s (xs ++ ys) = .ok bs) :
    ∃ lo hi, readBytes s xs = .ok lo ∧ readBytes s ys = .ok hi ∧ bs = lo ++ hi := by
  induction xs generalizing bs with
  | nil => exact ⟨[], bs, rfl, h, rfl⟩
  | cons x xs ih =>
    simp only [List.cons_append, readBytes] at h
    split at h
    · cases h
    rename_i b hb
    split at h
    · cases h
    rename_i bs' hbs'
    obtain rfl := Except.ok.inj h
    obtain ⟨lo, hi, hlo, hhi, rfl⟩ := ih hbs'
    exact ⟨b :: lo, hi, by simp only [readBytes, hb, hlo], hhi, rfl⟩

/-- Bytes put above others count their weight. -/
theorem toNat_le_append (lo hi : List Byte) (h : lo.length + hi.length ≤ 8) :
    (le (lo ++ hi)).toNat = (le lo).toNat + 2 ^ (8 * lo.length) * (le hi).toNat := by
  have hcons (b : Byte) (bs : List Byte) (hb : bs.length ≤ 7) : (le (b :: bs)).toNat = b.toNat + 2 ^ 8 * (le bs).toNat := by
    have hlt := le_lt bs (by omega)
    have hpow : (2 : Nat) ^ (8 * bs.length) ≤ 2 ^ 56 := Nat.pow_le_pow_right (by decide) (by omega)
    have hb8 : b.toNat < 2 ^ 8 := b.isLt
    have hshift : (le bs <<< 8).toNat = 2 ^ 8 * (le bs).toNat := by
      rw [BitVec.toNat_shiftLeft, Nat.shiftLeft_eq, Nat.mod_eq_of_lt (by omega), Nat.mul_comm]
    rw [le, BitVec.toNat_or, hshift, BitVec.toNat_setWidth, Nat.mod_eq_of_lt (by omega), Nat.lor_comm,
      ← Nat.two_pow_add_eq_or_of_lt hb8, Nat.add_comm]
  induction lo with
  | nil => simp [le]
  | cons b lo ih =>
    simp only [List.length_cons] at h
    rw [List.cons_append, hcons b (lo ++ hi) (by simp; omega), hcons b lo (by omega), ih (by omega), List.length_cons,
      show 8 * (lo.length + 1) = 8 + 8 * lo.length by omega, Nat.pow_add]
    ring

theorem linear_add (s : State) (g : Seg) (ea : Qword) (i : Nat) : linear s g (ea + 4) i = linear s g ea (4 + i) := by
  rw [linear, linear, BitVec.ofNat_add]
  congr 1
  rw [← BitVec.add_assoc, ← BitVec.add_assoc]
  rfl

/-- Passing the checks with eight bytes is passing them with the first and with the last four. -/
theorem passesSegment_halves {s : State} {g : Seg} {ea : Qword} (h : PassesSegment s g ea 8) :
    PassesSegment s g ea 4 ∧ PassesSegment s g (ea + 4) 4 := by
  obtain ⟨hseg, hregion⟩ := h
  refine ⟨⟨?_, fun i hi => hregion i (by omega)⟩, ?_, fun i hi => by rw [linear_add]; exact hregion _ (by omega)⟩
  all_goals
    unfold segmentFault at hseg ⊢
    split_ifs at hseg ⊢ with h64
  · simp only [List.any_eq_false, List.mem_range] at hseg ⊢
    exact fun i hi => hseg i (by omega)
  · simp only [Bool.or_eq_false_iff, List.any_eq_false, List.mem_range] at hseg ⊢
    exact ⟨hseg.1, fun i hi => hseg.2 i (by omega)⟩
  · simp only [List.any_eq_false, List.mem_range, linear_add] at hseg ⊢
    exact fun i hi => hseg (4 + i) (by omega)
  · simp only [Bool.or_eq_false_iff, List.any_eq_false, List.mem_range, decide_eq_true_eq, not_lt] at hseg ⊢
    refine ⟨hseg.1, fun i hi => ?_⟩
    have hlast := hseg.2 (4 + i) (by omega)
    have hlimit := (s.getSeg g).limit.isLt
    rw [BitVec.toNat_add]
    simp
    omega

/-- Settles O22: the eight bytes are the four of each dword, in order. -/
theorem qwordIsTwoDwords : Obligations.QwordIsTwoDwords := by
  unfold Obligations.QwordIsTwoDwords
  intro s g ea v h
  obtain ⟨hpass, hside⟩ := mapAccess_ok_passes h
  obtain ⟨bs, hread, -, rfl⟩ := mapAccess_ok s g ea 8 v h
  obtain ⟨hpassLo, hpassHi⟩ := passesSegment_halves hpass
  have hsplit : (List.range 8).map (linear s g ea) =
      (List.range 4).map (linear s g ea) ++ (List.range 4).map (linear s g (ea + 4)) := by
    rw [show linear s g (ea + 4) = fun i => linear s g ea (4 + i) from funext (linear_add s g ea),
      show (8 : Nat) = 4 + 4 from rfl, List.range_add, List.map_append, List.map_map]
    rfl
  rw [hsplit] at hread
  obtain ⟨lo, hi, hlo, hhi, rfl⟩ := readBytes_append hread
  have hlenLo : lo.length = 4 := by simpa using readBytes_length s _ lo hlo
  have hlenHi : hi.length = 4 := by simpa using readBytes_length s _ hi hhi
  refine ⟨le lo, le hi, mapAccess_of_read hpassLo hlo fun i hi => hside i (by omega),
    mapAccess_of_read hpassHi hhi fun i hi => by rw [linear_add]; exact hside _ (by omega), ?_⟩
  rw [toNat_le_append lo hi (by omega), hlenLo]

end Sys2Proof.Proofs
end

section
/-! Executions that stop, end early or are interrupted: the settled statements. -/

namespace Sys2Proof.Proofs

open Sys2Proof.Machine Sys2Proof.Laws

/-! ## Before execution (40 R86, 60 R121, R124) -/

theorem hasFeatures_eq_false_iff (s : State) (f : Form) :
    s.hasFeatures f = false ↔ s.hasAvx512f = false ∨ (f.ll ≠ 2#2 ∧ s.hasAvx512vl = false) := by
  cases h : s.hasAvx512f <;> cases f <;> simp [State.hasFeatures, Form.ll, h]

theorem udCondition_eq_true_iff (f : Form) (o : Operands) (s : State) :
    udCondition f o s = true ↔ asize o s = .a16 ∨ s.osEnabled = false ∨ s.hasFeatures f = false ∨ o.mask = 0#3 ∨
      o.dest = o.index := by
  simp only [udCondition, Bool.or_eq_true, decide_eq_true_eq, Bool.not_eq_true', or_assoc]

theorem crossesTop_eq_false_iff (s : State) (n : Nat) : crossesTop s n = false ↔ s.rip.toNat + n ≤ spaceSize s := by
  simp [crossesTop]

section

variable {i : Instr} {s : State}

theorem exec_eq_gatherWith (i : Instr) (s : State) :
    exec i s = gatherWith (choicesOf i.form i.ops s) i.form i.ops s :=
  exec_eq_gather i s

theorem exec_of_crossesTop (h : spaceSize s < s.rip.toNat + i.ops.ilen) : exec i s = .refused .ripWrap := by
  have hcross : crossesTop s i.ops.ilen = true := decide_eq_true h
  simp only [exec_eq_gatherWith, gatherWith, hcross, if_true]

theorem exec_of_udCondition (hfits : s.rip.toNat + i.ops.ilen ≤ spaceSize s) (h : udCondition i.form i.ops s = true) :
    exec i s = .next (takeEvent .invalidOpcode s) := by
  simp only [exec_eq_gatherWith, gatherWith, (crossesTop_eq_false_iff _ _).2 hfits, h, Bool.false_eq_true, if_false, if_true]

theorem exec_of_highRegs (hfits : s.rip.toNat + i.ops.ilen ≤ spaceSize s) (hud : udCondition i.form i.ops s = false)
    (h64 : s.mode64 = false) (hlow : lowRegs i.ops = false) : exec i s = .refused .mode32ExtensionBits := by
  simp only [exec_eq_gatherWith, gatherWith, (crossesTop_eq_false_iff _ _).2 hfits, hud, h64, hlow, Bool.false_eq_true,
    if_false, Bool.not_false, Bool.and_self, if_true]

theorem exec_of_ts (hfits : s.rip.toNat + i.ops.ilen ≤ spaceSize s) (hud : udCondition i.form i.ops s = false)
    (hregs : s.mode64 = true ∨ lowRegs i.ops = true) (hts : s.ts = true) :
    exec i s = .next (takeEvent .deviceNotAvailable s) := by
  have hhigh : (!s.mode64 && !lowRegs i.ops) = false := by
    rcases hregs with h | h <;> simp [h]
  simp only [exec_eq_gatherWith, gatherWith, (crossesTop_eq_false_iff _ _).2 hfits, hud, hhigh, hts, Bool.false_eq_true,
    if_false, if_true]

/-- What is left once nothing stops a gather before execution. -/
theorem ready_of_udCondition (hfits : s.rip.toNat + i.ops.ilen ≤ spaceSize s) (hud : udCondition i.form i.ops s = false)
    (hregs : s.mode64 = true ∨ lowRegs i.ops = true) (hts : s.ts = false) : Ready i.form i.ops s := by
  have hnot := mt (udCondition_eq_true_iff i.form i.ops s).2 (by simp [hud])
  simp only [not_or, Bool.not_eq_false] at hnot
  obtain ⟨hasize, hos, hfeatures, hk0, hdistinct⟩ := hnot
  exact ⟨hfits, hasize, hos, hfeatures, hk0, hdistinct, hregs, hts⟩

theorem hitsSideEffect_eq_false_iff (f : Form) (o : Operands) (s : State) :
    hitsSideEffect f o s = false ↔ NoSideEffects f o s := by
  refine ⟨noSideEffects_of_hits, fun h => List.any_eq_false.2 fun j hj => ?_⟩
  obtain ⟨hk, ha⟩ := (mem_active f o s j).1 hj
  simp [h j hk ha]

theorem exec_of_sideEffect (h : Ready i.form i.ops s) (hs : ¬ NoSideEffects i.form i.ops s) :
    exec i s = .refused .sideEffectingMemory := by
  have hhits : hitsSideEffect i.form i.ops s = true := by
    simpa using mt (hitsSideEffect_eq_false_iff i.form i.ops s).1 hs
  rw [exec_eq_gatherWith, gatherWith_begins _ _ _ _ h, gatherBody, if_pos hhits]

theorem exec_of_noSideEffects (h : Ready i.form i.ops s) (hs : NoSideEffects i.form i.ops s) :
    ∃ t, exec i s = .next t := by
  rw [exec_eq_gatherWith, gatherWith_begins _ _ _ _ h, gatherBody, (hitsSideEffect_eq_false_iff _ _ _).2 hs,
    if_neg Bool.false_ne_true]
  split
  · exact ⟨_, rfl⟩
  · split
    · exact ⟨_, rfl⟩
    · exact ⟨_, rfl⟩

/-- Everything an execution can answer, and when (40 R85, R86; log 27). -/
theorem exec_outcome (i : Instr) (s : State) :
    (spaceSize s < s.rip.toNat + i.ops.ilen ∧ exec i s = .refused .ripWrap) ∨
    (s.rip.toNat + i.ops.ilen ≤ spaceSize s ∧
      (udCondition i.form i.ops s = true ∧ (∃ t, exec i s = .next t) ∨
        udCondition i.form i.ops s = false ∧
          ((s.mode64 = false ∧ lowRegs i.ops = false) ∧ exec i s = .refused .mode32ExtensionBits ∨
            (s.mode64 = true ∨ lowRegs i.ops = true) ∧
              (s.ts = true ∧ (∃ t, exec i s = .next t) ∨
                Ready i.form i.ops s ∧
                  (NoSideEffects i.form i.ops s ∧ (∃ t, exec i s = .next t) ∨
                    ¬ NoSideEffects i.form i.ops s ∧ exec i s = .refused .sideEffectingMemory))))) := by
  by_cases hfits : s.rip.toNat + i.ops.ilen ≤ spaceSize s
  · refine .inr ⟨hfits, ?_⟩
    by_cases hud : udCondition i.form i.ops s = true
    · exact .inl ⟨hud, _, exec_of_udCondition hfits hud⟩
    rw [Bool.not_eq_true] at hud
    refine .inr ⟨hud, ?_⟩
    by_cases hregs : s.mode64 = true ∨ lowRegs i.ops = true
    · refine .inr ⟨hregs, ?_⟩
      by_cases hts : s.ts = true
      · exact .inl ⟨hts, _, exec_of_ts hfits hud hregs hts⟩
      have hready := ready_of_udCondition hfits hud hregs (by simpa using hts)
      refine .inr ⟨hready, ?_⟩
      by_cases hs : NoSideEffects i.form i.ops s
      · exact .inl ⟨hs, exec_of_noSideEffects hready hs⟩
      · exact .inr ⟨hs, exec_of_sideEffect hready hs⟩
    · simp only [not_or, Bool.not_eq_true] at hregs
      exact .inl ⟨hregs, exec_of_highRegs hfits hud hregs.1 hregs.2⟩
  · rw [Nat.not_le] at hfits
    exact .inl ⟨hfits, exec_of_crossesTop hfits⟩

end

/-- Settles O35: #UD is tested first, #NM after it, and each writes the record only. -/
theorem refusedBeforeExecution : Obligations.RefusedBeforeExecution := by
  unfold Obligations.RefusedBeforeExecution
  intro i s hfits ud
  have hud : udCondition i.form i.ops s = true ↔ ud := by
    rw [udCondition_eq_true_iff, hasFeatures_eq_false_iff, or_assoc]
  refine ⟨fun h => exec_of_udCondition hfits (hud.2 h), fun h hregs hts => ?_⟩
  exact exec_of_ts hfits (by simpa using mt hud.1 h) hregs hts

/-- Settles O48: each stop under its condition. -/
theorem everyStopIsNamed : Obligations.EveryStopIsNamed := by
  unfold Obligations.EveryStopIsNamed
  intro i s
  rcases exec_outcome i s with ⟨hcross, h⟩ | ⟨hfits, ⟨hud, t, h⟩ | ⟨hud, ⟨⟨h64, hlow⟩, h⟩ | ⟨hregs, hrest⟩⟩⟩
  · refine ⟨by simp [h, hcross], by simp [h, hcross], ?_, .inr (.inl h)⟩
    exact ⟨fun h' => by simp [h] at h', fun h' => absurd h'.1.fits (by omega)⟩
  · refine ⟨by simp [h, hfits], by simp [h, hud], ?_, .inl ⟨t, h⟩⟩
    exact ⟨fun h' => by simp [h] at h', fun h' => by simp [udCondition_of_ready h'.1] at hud⟩
  · refine ⟨by simp [h, hfits], by simp [h, hfits, hud, h64, hlow], ?_, .inr (.inr (.inl h))⟩
    exact ⟨fun h' => by simp [h] at h', fun h' => by simpa [h64, hlow] using h'.1.registers⟩
  · have hregs' : ¬ (s.mode64 = false ∧ lowRegs i.ops = false) := by
      rintro ⟨h64, hlow⟩
      simp [h64, hlow] at hregs
    rcases hrest with ⟨hts, t, h⟩ | ⟨hready, ⟨hs, t, h⟩ | ⟨hs, h⟩⟩
    · refine ⟨by simp [h, hfits], by simp [h, hregs'], ?_, .inl ⟨t, h⟩⟩
      exact ⟨fun h' => by simp [h] at h', fun h' => by simp [h'.1.notTs] at hts⟩
    · exact ⟨by simp [h, hfits], by simp [h, hregs'], by simp [h, hs], .inl ⟨t, h⟩⟩
    · exact ⟨by simp [h, hfits], by simp [h, hregs'], by simp [h, hs, hready], .inr (.inr (.inr h))⟩

/-- Settles O45: an event is taken where `rip` stands, and a completed gather advances it. -/
theorem ripMovesOnlyOnCompletion : Obligations.RipMovesOnlyOnCompletion := by
  unfold Obligations.RipMovesOnlyOnCompletion
  intro i s t hquiet h
  cases hd : t.delivered with
  | some d =>
    obtain ⟨ev, u, hrf, hrip, -, rfl⟩ := exec_delivers hquiet h hd
    have hsaved : d.rf = true := takeEvent_savesRf hrf hd
    obtain rfl := Option.some.inj ((takeEvent_delivered ev u).symm.trans hd)
    exact .inr ⟨_, rfl, hrip, hrip, hsaved⟩
  | none =>
    rcases exec_cases h with ⟨ev, -, rfl⟩ | ⟨done, zd, zk, -, ev, pend, intr, -, rfl⟩ | ⟨-, n, rfl⟩
    · simp at hd
    · simp at hd
    · exact .inl ⟨rfl, rfl, completed_mask _ _ _⟩

/-! ## Interrupted gathers, and what is delivered in lieu of a fault (40 R91, R92) -/

theorem interrupted_delivers (ch : Choices) (f : Form) (o : Operands) (s : State) (hi : s.interruptPending = true) :
    DeliversInterrupt s (commit f o (interruptedDone ch f o s) ch.zd ch.zk s.tick).pendingTraps (interrupted ch f o s) :=
  ⟨hi, rfl, rfl, rfl, rfl, rfl⟩

/-- The elements an interrupted gather completes, each read. -/
theorem interrupted_partlyGathered (ch : Choices) (f : Form) (o : Operands) (s : State) :
    PartlyGathered f o (interruptedDone ch f o s) ch.zd ch.zk s (interrupted ch f o s) :=
  (interrupted_endedEarly ch f o s).partlyGathered (fun j hj => ((mem_interruptedDone ch f o s j).1 hj).1)
    fun j hj => ((mem_interruptedDone ch f o s j).1 hj).2.1

theorem suspended_partlyGathered (ch : Choices) {f : Form} {o : Operands} {s : State} {j0 : Nat} {e : AccessFault}
    (hff : FirstFault f o s j0 e) :
    PartlyGathered f o (rightOf f o s j0 ++ leftOf ch f o s j0) ch.zd ch.zk s (suspended ch f o s j0 e) :=
  (suspended_endedEarly ch f o s j0 e).partlyGathered (fun _ hj => active_of_mem_suspended_done hj)
    fun _ hj => isOk_of_mem_suspended_done hff hj

@[simp] theorem commit_interruptPending (f : Form) (o : Operands) (done : List Nat) (zd zk : Bool) (s : State) :
    (commit f o done zd zk s).interruptPending = s.interruptPending := rfl

/-- Whatever is pending, a suspended gather delivers the fault or one of the pending events. -/
theorem suspended_delivers_any (ch : Choices) (f : Form) (o : Operands) (s : State) (j0 : Nat) (e : AccessFault) :
    let done := rightOf f o s j0 ++ leftOf ch f o s j0
    let pend := (commit f o done ch.zd ch.zk s.tick).pendingTraps
    (done = [] ∨ (pend = [] ∧ s.interruptPending = false)) ∧ DeliversFault f o s j0 e pend (suspended ch f o s j0 e) ∨
      done ≠ [] ∧
        (DeliversTrap s pend (suspended ch f o s j0 e) ∨ DeliversInterrupt s pend (suspended ch f o s j0 e)) := by
  intro done pend
  rcases suspended_cases ch f o s j0 e with ⟨hnone, ht⟩ | ⟨hdone, hmem, ht⟩
  · refine .inl ⟨hnone.imp_right fun hp => ?_, ?_⟩
    · refine ⟨List.map_eq_nil_iff.1 (List.append_eq_nil_iff.1 hp).1, ?_⟩
      by_contra hi
      have hmem := (interrupt_mem_pendings (commit f o done ch.zd ch.zk s.tick)).2 (by simpa using hi)
      exact List.eq_nil_iff_forall_not_mem.1 hp _ hmem
    · rw [ht]
      exact ⟨rfl, rfl, rfl, rfl, by cases e <;> rfl⟩
  · refine .inr ⟨hdone, ?_⟩
    rw [ht]
    generalize pick ch.pick _ = p at hmem ⊢
    cases p with
    | trap x => exact .inl ⟨x, (trap_mem_pendings _ x).1 hmem, rfl, rfl, rfl, rfl, rfl⟩
    | interrupt =>
      have hi := (interrupt_mem_pendings _).1 hmem
      exact .inr ⟨hi, rfl, rfl, rfl, rfl, rfl⟩

/-- Settles O38: the gather is suspended by its first fault, unless a pending interrupt ends it. -/
theorem pendingEventInLieuOfFault : Obligations.PendingEventInLieuOfFault := by
  unfold Obligations.PendingEventInLieuOfFault
  intro i s j0 e hready hs hff
  have hexec := (exec_eq_gather i s).trans (gather_faults _ _ _ _ _ hready hs hff)
  generalize choicesOf i.form i.ops s = ch at hexec
  split_ifs at hexec with hint
  · rw [Bool.and_eq_true] at hint
    refine ⟨_, interruptedDone ch i.form i.ops s, ch.zd, ch.zk, _, hexec, fun j hj => ?_,
      interrupted_partlyGathered ch _ _ s, commit_trapsAdded _ _ _ ch.zd ch.zk s.tick,
      .inr (interrupted_delivers ch _ _ s hint.1)⟩
    obtain ⟨ha, hok, -⟩ := (mem_interruptedDone ch _ _ s j).1 hj
    obtain ⟨hk, ha⟩ := (mem_active _ _ s j).1 ha
    exact ⟨hk, ha, (isOk_iff _ _ s j).1 hok⟩
  · refine ⟨_, rightOf i.form i.ops s j0 ++ leftOf ch i.form i.ops s j0, ch.zd, ch.zk, _, hexec, fun j hj => ?_,
      suspended_partlyGathered ch hff, commit_trapsAdded _ _ _ ch.zd ch.zk s.tick,
      .inl ⟨fun j hj ha => ?_, suspended_delivers_any ch _ _ s j0 e⟩⟩
    · obtain ⟨hk, ha⟩ := ((mem_suspended_done ch _ _ s j0 j).1 hj).1
      exact ⟨hk, ha, (isOk_iff _ _ s j).1 (isOk_of_mem_suspended_done hff hj)⟩
    · exact (mem_suspended_done ch _ _ s j0 j).2 ⟨⟨Nat.lt_trans hj hff.1, ha⟩, .inl hj⟩

theorem mem_trapsAdded_iff {f : Form} {o : Operands} {done : List Nat} {s : State} {pend : List Trap} {x : Trap}
    (h : TrapsAdded f o done s pend) : x ∈ pend ↔ x ∈ s.pendingTraps ∨ SetsTrap f o s done x := by
  obtain ⟨new, rfl, -, hnew⟩ := h
  rw [List.mem_append, hnew]
  tauto

/-- Settles O39: the element is done, so its trap is pending and something is delivered in lieu of the fault. -/
theorem dataBreakpointInLieuOfFault : Obligations.DataBreakpointInLieuOfFault := by
  unfold Obligations.DataBreakpointInLieuOfFault
  intro i s j0 j b e n hready hi hs hff hj ha hb hmatch
  have hexec := (exec_eq_gather i s).trans (gather_suspends _ _ _ _ _ hready hi hs hff)
  generalize choicesOf i.form i.ops s = ch at hexec
  have hdelivers := suspended_delivers ch i.form i.ops s j0 e hi
  have hadded : TrapsAdded i.form i.ops (rightOf i.form i.ops s j0 ++ leftOf ch i.form i.ops s j0) s _ :=
    commit_trapsAdded _ _ _ ch.zd ch.zk s.tick
  have hdone (j : Nat) (hj : j < j0) (ha : isActive i.ops s j = true) :
      j ∈ rightOf i.form i.ops s j0 ++ leftOf ch i.form i.ops s j0 :=
    (mem_suspended_done ch _ _ s j0 j).2 ⟨⟨Nat.lt_trans hj hff.1, ha⟩, .inl hj⟩
  have hpend := (mem_trapsAdded_iff hadded).2 (.inr ⟨n, rfl, j, hdone j hj ha, b, hb, hmatch⟩)
  obtain ⟨hnone | hnone, -⟩ | ⟨-, htrap⟩ := hdelivers
  · simpa [hnone] using hdone j hj ha
  · simp [hnone] at hpend
  refine ⟨_, _, _, hexec, fun k hk => ((mem_suspended_done ch _ _ s j0 k).1 hk).1, hdone, hadded, hpend, htrap,
    fun hquiet honly => ?_⟩
  obtain ⟨x, hx, -, hpending, -, hdr6, -⟩ := htrap
  have hall : ∀ y ∈ (commit i.form i.ops (rightOf i.form i.ops s j0 ++ leftOf ch i.form i.ops s j0) ch.zd ch.zk
      s.tick).pendingTraps, y = .breakpoint n := by
    intro y hy
    rcases (mem_trapsAdded_iff hadded).1 hy with hy | ⟨m, rfl, _, _, _, _, hm⟩
    · simp [hquiet] at hy
    · rw [honly m _ hm]
  obtain rfl := hall x hx
  refine ⟨?_, hdr6⟩
  rw [hpending]
  have hnodup := union_nodup s.pendingTraps _ (hquiet ▸ List.nodup_nil)
    (dataTraps_nodup s.tick (elemBytesOf i.form i.ops s.tick (rightOf i.form i.ops s j0 ++ leftOf ch i.form i.ops s j0)))
  refine List.eq_nil_iff_forall_not_mem.2 fun y hy => ?_
  obtain ⟨hne, hy⟩ := (List.Nodup.mem_erase_iff hnodup).1 hy
  exact hne (hall y hy)

/-- Drawing a free choice changes nothing a completed gather is judged by. -/
theorem gathered_tick {f : Form} {bytes es kl : Nat} {o : Operands} {s t : State} (h : Gathered f bytes es kl o s.tick t) :
    Gathered f bytes es kl o s t :=
  have hsame : SameAccess s.tick s := by constructor <;> rfl
  ⟨fun j hj ha v hv => h.actives j hj ha v ((hsame.access j _ _ _ _).trans hv), h.inactives, h.upper, h.mask, h.rip⟩

/-- Settles O40: the interrupt ends the gather, or the gather completes. -/
theorem interruptedGather : Obligations.InterruptedGather := by
  unfold Obligations.InterruptedGather
  intro i s hready hi hr
  obtain ⟨hside, hfault⟩ := (allReadable_iff _ _ _).1 hr
  have hexec := exec_eq_gatherWith i s
  rw [gatherWith_begins _ _ _ _ hready, gatherBody, hside, hfault, hi, if_neg Bool.false_ne_true, Bool.true_and] at hexec
  generalize choicesOf i.form i.ops s = ch at hexec
  by_cases hint : ch.interrupted = true
  · rw [if_pos hint] at hexec
    refine ⟨_, hexec, .inr ⟨interruptedDone ch i.form i.ops s, ch.zd, ch.zk, _, fun j hj => ?_,
      interrupted_partlyGathered ch _ _ s, commit_trapsAdded _ _ _ ch.zd ch.zk s.tick, interrupted_delivers ch _ _ s hi⟩⟩
    exact (mem_active _ _ s j).1 ((mem_interruptedDone ch _ _ s j).1 hj).1
  · rw [if_neg hint] at hexec
    exact ⟨_, hexec, .inl ⟨gathered_tick (completed_gathered _ _ s.tick (allReadable_freeCount _ hr)), rfl,
      completed_trapsAdded _ _ s.tick, hi, rfl, rfl⟩⟩

/-! ## Repeatability (40 R89) -/

/-- Settles O41: the choice of elements is a function of the inputs and the architectural state, which agree. -/
theorem suspensionIsRepeatable : Obligations.SuspensionIsRepeatable := by
  unfold Obligations.SuspensionIsRepeatable
  intro i s j0 e n c hs oracle changed outer d hready hi hside hff s' hanswer
  have hready' : Ready i.form i.ops s' := ready_congr hready rfl rfl rfl rfl rfl
  have hside' : NoSideEffects i.form i.ops s' := fun j hj ha => by
    rw [hanswer j hj ha]
    exact hside j hj ha
  have hff' : FirstFault i.form i.ops s' j0 e := by
    obtain ⟨hk0, ha0, he0, hbelow⟩ := hff
    refine ⟨hk0, ha0, (hanswer j0 hk0 ha0).trans he0, fun j hj ha => ?_⟩
    rw [hanswer j (Nat.lt_trans hj hk0) ha]
    exact hbelow j hj ha
  have hexec := (exec_eq_gather i s).trans (gather_suspends _ _ _ _ _ hready hi hside hff)
  have hexec' := (exec_eq_gather i s').trans (gather_suspends _ _ _ _ _ hready' hi hside' hff')
  have hinputs : inputs i.form i.ops s' = inputs i.form i.ops s :=
    List.map_congr_left fun j hj => by
      obtain ⟨hk, ha⟩ := (mem_active _ _ s j).1 hj
      rw [hanswer j hk ha]
  have hleft : (choicesOf i.form i.ops s').left = (choicesOf i.form i.ops s).left :=
    congrArg (fun x => Config.gatherLeft i.form i.ops x (archView s)) hinputs
  have hdone (j : Nat) : j ∈ rightOf i.form i.ops s' j0 ++ leftOf (choicesOf i.form i.ops s') i.form i.ops s' j0 ↔
      j ∈ rightOf i.form i.ops s j0 ++ leftOf (choicesOf i.form i.ops s) i.form i.ops s j0 := by
    rw [mem_suspended_done, mem_suspended_done, hleft]
    refine and_congr_right fun ⟨hk, ha⟩ => ?_
    rw [isOk, isOk, hanswer j hk ha]
  have hpart := suspended_partlyGathered (choicesOf i.form i.ops s) hff
  have hpart' := suspended_partlyGathered (choicesOf i.form i.ops s') hff'
  refine ⟨_, _, hexec, hexec', fun j hj => ?_⟩
  by_cases hmem : j ∈ rightOf i.form i.ops s j0 ++ leftOf (choicesOf i.form i.ops s) i.form i.ops s j0
  · obtain ⟨hk, ha⟩ := ((mem_suspended_done _ _ _ s j0 j).1 hmem).1
    obtain ⟨v, hv⟩ := (isOk_iff _ _ s j).1 (isOk_of_mem_suspended_done hff hmem)
    obtain ⟨hval, hbit⟩ := hpart.gathered j hmem v hv
    obtain ⟨hval', hbit'⟩ := hpart'.gathered j ((hdone j).2 hmem) v ((hanswer j hk ha).trans hv)
    exact ⟨hval.trans hval'.symm, hbit.trans hbit'.symm⟩
  · obtain ⟨hval, hbit⟩ := hpart.kept j hj hmem
    obtain ⟨hval', hbit'⟩ := hpart'.kept j hj (mt (hdone j).1 hmem)
    exact ⟨hval.trans hval'.symm, hbit.trans hbit'.symm⟩

end Sys2Proof.Proofs
end

section
/-! Fetching and the step at `rip`: what it runs, and every stop of a step: the settled statements. -/

namespace Sys2Proof.Proofs

open Sys2Proof.Machine Sys2Proof.Laws

/-! ## Steps by what they do, but for the clock -/

section

variable {s : State}

theorem step_of_act_next {t : State} (h : act s = .next t) : step s = .next t.tock := by
  simp only [step, cycle, h]

theorem step_of_act_fault {r : Fault} (h : act s = .fault r) : step s = .fault r := by
  simp only [step, cycle, h]

theorem step_of_act_refused {r : Refusal} (h : act s = .refused r) : step s = .refused r := by
  simp only [step, cycle, h]

/-- Settles O11: the step is `execute` of the instruction, and the clock. -/
theorem stepRunsDecodedInstruction : Obligations.StepRunsDecodedInstruction := by
  unfold Obligations.StepRunsDecodedInstruction
  intro s i rest hfetch hbreak hdecode
  simp only [step, cycle, act_of_decoded s i rest hfetch hbreak hdecode, execute, stepped]
  cases exec i s <;> rfl

/-! ## Fetching (20 R30, R31; 10 R14) -/

/-- The fetch reads at `rip`, `rip + 1`, ... through CS. -/
theorem linear_fetch (s : State) (k : Nat) :
    linear s .cs (BitVec.ofNat 64 (s.rip.toNat + k)) 0 = linear s .cs s.rip k := by
  rw [linear, linear, BitVec.ofNat_add, BitVec.ofNat_toNat, BitVec.setWidth_eq]
  congr 1
  simp [BitVec.add_assoc]

/-- The byte of memory that a fetch from address `a` reads. -/
def codeByte (s : State) (a : Nat) : Option Byte :=
  Memory.read s.mem (linear s .cs (BitVec.ofNat 64 a) 0).toNat

theorem codeByte_rip (s : State) (k : Nat) :
    codeByte s (s.rip.toNat + k) = Memory.read s.mem (linear s .cs s.rip k).toNat := by
  rw [codeByte, linear_fetch]

theorem fetchFrom_of_byte {top n a : Nat} {b : Byte} (ha : a < top) (hb : codeByte s a = some b) :
    fetchFrom s top (n + 1) a = b :: fetchFrom s top n (a + 1) := by
  rw [codeByte] at hb
  simp only [fetchFrom, ha, if_true, hb]

theorem fetchFrom_of_unmapped {top n a : Nat} (hb : codeByte s a = none) : fetchFrom s top (n + 1) a = [] := by
  rw [codeByte] at hb
  simp only [fetchFrom, hb, ite_self]

theorem fetchFrom_of_top {top n a : Nat} (ha : ¬ a < top) : fetchFrom s top (n + 1) a = [] := by
  simp only [fetchFrom, ha, if_false]

/-- The fetched bytes are those of memory; there are fewer than asked for only at the top or before a byte that is not mapped. -/
theorem fetchFrom_spec (s : State) (top n a : Nat) :
    (∀ k < (fetchFrom s top n a).length, codeByte s (a + k) = (fetchFrom s top n a)[k]?) ∧
      (fetchFrom s top n a).length ≤ n ∧
      (fetchFrom s top n a ≠ [] → a + (fetchFrom s top n a).length ≤ top) ∧
      ((fetchFrom s top n a).length = n ∨ top ≤ a + (fetchFrom s top n a).length ∨
        codeByte s (a + (fetchFrom s top n a).length) = none) := by
  induction n generalizing a with
  | zero => simp [fetchFrom]
  | succ n ih =>
    by_cases ha : a < top
    · cases hb : codeByte s a with
      | none => simp [fetchFrom_of_unmapped hb, hb]
      | some b =>
        obtain ⟨hbytes, hlen, hfits, hend⟩ := ih (a + 1)
        rw [fetchFrom_of_byte ha hb]
        generalize fetchFrom s top n (a + 1) = bs at *
        have hnext : a + 1 + bs.length = a + (b :: bs).length := by simp; omega
        rw [hnext] at hfits hend
        refine ⟨fun k hk => ?_, by simpa using hlen, fun _ => ?_, hend.imp_left fun h => by simpa using h⟩
        · cases k with
          | zero => simpa using hb
          | succ k =>
            rw [List.getElem?_cons_succ, ← hbytes k (by simpa using hk)]
            congr 1
            omega
        · cases bs with
          | nil => simpa using ha
          | cons c cs => exact hfits (by simp)
    · simp [fetchFrom_of_top ha]
      omega

/-- Bytes that stand in memory below the top are fetched. -/
theorem fetchFrom_append {top n a : Nat} {bs : List Byte} (hn : bs.length ≤ n) (hfits : a + bs.length ≤ top)
    (hbytes : ∀ k < bs.length, codeByte s (a + k) = bs[k]?) :
    fetchFrom s top n a = bs ++ fetchFrom s top (n - bs.length) (a + bs.length) := by
  induction bs generalizing n a with
  | nil => simp
  | cons b bs ih =>
    simp only [List.length_cons] at hn hfits hbytes ⊢
    obtain ⟨n, rfl⟩ : ∃ m, n = m + 1 := ⟨n - 1, by omega⟩
    have hfirst := hbytes 0 (by omega)
    rw [fetchFrom_of_byte (by omega) (by simpa using hfirst), List.cons_append,
      ih (n := n) (a := a + 1) (by omega) (by omega) fun k hk => ?_]
    · congr 3 <;> omega
    · rw [← List.getElem?_cons_succ (a := b), ← hbytes (k + 1) (by omega)]
      congr 1
      omega

/-- An instruction the mode can encode is what the decoder reads where its bytes stand. -/
theorem decode_of_encoded {i : Instr} (henc : Encodable i s) (hfits : s.rip.toNat + i.ops.ilen ≤ spaceSize s)
    (hbytes : ∀ k < i.ops.ilen, Memory.read s.mem (linear s .cs s.rip k).toNat = (encode i)[k]?) :
    ∃ rest, decode s.codeSize (fetchBytes s) = .instr i rest := by
  obtain ⟨hwf, hmode⟩ := henc
  have hlen : (encode i).length = i.ops.ilen := (EncodeLength.all i).1
  have hlong := ilen_le i.ops
  have hfetch := fetchFrom_append (s := s) (top := spaceSize s) (n := maxLength) (a := s.rip.toNat) (bs := encode i)
    (by rw [hlen, maxLength]; omega) (by rw [hlen]; exact hfits) fun k hk => by
      rw [codeByte_rip]
      exact hbytes k (hlen ▸ hk)
  have hcode (h64 : s.mode64 = true) : s.codeSize = .code64 := by simpa [State.mode64] using h64
  have hsize : asizeOf s.codeSize i.ops.addrSizePrefix ≠ .a16 := by
    rcases hmode with h64 | ⟨-, hsize⟩
    · rw [hcode h64]
      exact asizeOf_code64 _
    · exact hsize
  rw [fetchBytes, hfetch]
  exact ⟨_, decode_encode _ (addr_wf_of_wf hwf) hsize (hmode.imp hcode And.left)⟩

/-- Settles O12: what the fetch reads, and that the bytes of an encoding decode. -/
theorem fetchReadsMemory : Obligations.FetchReadsMemory := by
  unfold Obligations.FetchReadsMemory
  refine ⟨fun s => ?_, fun s i henc hfetch hbreak hfits hbytes => ?_⟩
  · simp only [← codeByte_rip]
    exact fetchFrom_spec s (spaceSize s) maxLength s.rip.toNat
  · obtain ⟨rest, hdecode⟩ := decode_of_encoded henc hfits hbytes
    exact stepRunsDecodedInstruction s i rest hfetch hbreak hdecode

/-! ## What stands at `rip` -/

theorem runAtRip_of_instr {i : Instr} {rest : List Byte} (h : decode s.codeSize (fetchBytes s) = .instr i rest) :
    runAtRip s = atInstruction s i.ops.ilen (execute i s) := by
  simp only [runAtRip, h]

theorem runAtRip_of_ud {u : UdCause} {n : Nat} (h : decode s.codeSize (fetchBytes s) = .ud u n) :
    runAtRip s = takeUd n s := by
  simp only [runAtRip, h]

theorem runAtRip_of_truncated (h : decode s.codeSize (fetchBytes s) = .truncated) : runAtRip s = truncatedFetch s := by
  simp only [runAtRip, h]

theorem textChanged_eq_true_iff (s : State) (n : Nat) :
    textChanged s n = true ↔ ∃ k < n, (linear s .cs s.rip k).toNat ∈ s.changed := by
  simp [textChanged]

theorem atInstruction_of_changed {n : Nat} (run : Host.Outcome State Fault Refusal) (h : textChanged s n = true) :
    atInstruction s n run = .refused .textModified :=
  if_pos h

theorem atInstruction_of_breakpoint {n : Nat} (run : Host.Outcome State Fault Refusal) (h : textChanged s n = false)
    (hbreak : instrBreakpoints s ≠ []) :
    atInstruction s n run = .next (takeEvent (.instructionBreakpoint (instrBreakpoints s)) s) := by
  rw [atInstruction, if_neg (by simp [h]), withBreakpoints]
  split
  · exact absurd ‹_› hbreak
  · rfl

theorem atInstruction_of_quiet {n : Nat} (run : Host.Outcome State Fault Refusal) (h : textChanged s n = false)
    (hbreak : instrBreakpoints s = []) : atInstruction s n run = run := by
  simp [atInstruction, withBreakpoints, h, hbreak]

theorem takeUd_of_crossesTop {n : Nat} (h : spaceSize s < s.rip.toNat + n) : takeUd n s = .refused .ripWrap :=
  if_pos (decide_eq_true h)

theorem takeUd_of_fits {n : Nat} (h : s.rip.toNat + n ≤ spaceSize s) :
    takeUd n s = atInstruction s n (.next (takeEvent .invalidOpcode s)) :=
  if_neg (by simp [(crossesTop_eq_false_iff s n).2 h])

/-- Settles O13: past the top the refusal comes first, below it #UD is taken. -/
theorem udEncodingTakesUd : Obligations.UdEncodingTakesUd := by
  unfold Obligations.UdEncodingTakesUd
  intro s u n hdecode
  refine ⟨fun hfetch hbreak hfits => ?_, fun hlooks hcross => ?_⟩
  · refine step_of_act_next (t := takeEvent .invalidOpcode s) ?_
    rw [act_of_looksAtRip s hfetch.toLooksAtRip, runAtRip_of_ud hdecode, takeUd_of_fits hfits,
      atInstruction_of_quiet _ (textChanged_of_fetchesHere s n hfetch) hbreak]
  · refine step_of_act_refused ?_
    rw [act_of_looksAtRip s hlooks, runAtRip_of_ud hdecode, takeUd_of_crossesTop hcross]

theorem dr6Bit_breakpoint (n : Fin 4) (k : Nat) : (Trap.breakpoint n).dr6Bit.getLsbD k = decide (n.val = k) := by
  have hn : n.val < 64 := by omega
  rw [Trap.dr6Bit, show (1#64 <<< n.val) = BitVec.twoPow 64 n.val from (BitVec.twoPow_eq _ _).symm,
    BitVec.getLsbD_twoPow, decide_eq_true hn, Bool.true_and]

/-- DR6 after an instruction breakpoint (60 R135). -/
theorem getLsbD_dr6_breakpoints (hits : List (Fin 4)) (v : Qword) (k : Nat) :
    ((Event.instructionBreakpoint hits).dr6 v).getLsbD k = true ↔ v.getLsbD k = true ∨ ∃ m ∈ hits, m.val = k := by
  show (hits.foldl (fun a n => a ||| (Trap.breakpoint n).dr6Bit) v).getLsbD k = true ↔ _
  induction hits generalizing v with
  | nil => simp
  | cons n hits ih =>
    rw [List.foldl_cons, ih, BitVec.getLsbD_or, dr6Bit_breakpoint]
    simp [or_assoc]

theorem mem_instrBreakpoints {m : Fin 4} (h : s.rf = false) :
    m ∈ instrBreakpoints s ↔ instrMatch s m (linear s .cs s.rip 0) = true := by
  have hall : m ∈ allBreakpoints := by
    revert m
    decide
  simp [instrBreakpoints, h, hall]

/-- Settles O59: below the top an instruction and an #UD encoding alike have their breakpoints tested first. -/
theorem instructionBreakpointComesFirst : Obligations.InstructionBreakpointComesFirst := by
  unfold Obligations.InstructionBreakpointComesFirst
  intro s n len hfetch hfits hrf hmatch hdecode
  have hbreak : instrBreakpoints s ≠ [] := List.ne_nil_of_mem ((mem_instrBreakpoints hrf).2 hmatch)
  refine ⟨(Event.instructionBreakpoint (instrBreakpoints s)).dr6 s.dr6, fun k => ?_, ?_⟩
  · simp only [getLsbD_dr6_breakpoints, mem_instrBreakpoints hrf, and_comm]
  · refine step_of_act_next (t := takeEvent (.instructionBreakpoint (instrBreakpoints s)) s) ?_
    have htext := textChanged_of_fetchesHere s len hfetch
    rw [act_of_looksAtRip s hfetch.toLooksAtRip]
    rcases hdecode with ⟨i, rest, hd, rfl⟩ | ⟨u, hd⟩
    · rw [runAtRip_of_instr hd, atInstruction_of_breakpoint _ htext hbreak]
    · rw [runAtRip_of_ud hd, takeUd_of_fits hfits, atInstruction_of_breakpoint _ htext hbreak]

end

/-! ## Instructions that were decoded -/

/-- In 32-bit mode the base register read is one that exists there. -/
theorem toNat_base_of_decodeAddr {mod : BitVec 2} {base : BitVec 3} {bytes rest : List Byte} {r : BitVec 4} {d : Disp}
    (h : decodeAddr mod true base bytes = some (.base r d, rest)) : r.toNat < 8 := by
  have hlow : (BitVec.ofBool (!true) ++ base).toNat < 8 := by
    have := base.isLt
    rw [toNat_register4]
    simp
    omega
  unfold decodeAddr at h
  split_ifs at h
  · obtain ⟨_, _, he⟩ := Option.map_eq_some_iff.1 h
    cases (Prod.mk.inj he).1
  · obtain rfl := (Addr.base.inj (Prod.mk.inj (Option.some.inj h)).1).1
    exact hlow
  · split at h
    · obtain rfl := (Addr.base.inj (Prod.mk.inj (Option.some.inj h)).1).1
      exact hlow
    · cases h
  · obtain ⟨_, _, he⟩ := Option.map_eq_some_iff.1 h
    obtain rfl := (Addr.base.inj (Prod.mk.inj he).1).1
    exact hlow

theorem bits_of_extract_three {p0 : Byte} (h : p0.extractLsb' 6 2 = 3#2) : p0.getLsbD 6 = true ∧ p0.getLsbD 7 = true := by
  constructor
  · simpa [BitVec.getLsbD_extractLsb'] using congrArg (fun x : BitVec 2 => x.getLsbD 0) h
  · simpa [BitVec.getLsbD_extractLsb'] using congrArg (fun x : BitVec 2 => x.getLsbD 1) h

/-- Outside 64-bit mode a decoded instruction names registers that exist there (30 R52, R71). -/
theorem lowRegs_of_decode {c : CodeSize} {bytes rest : List Byte} {i : Instr} (hc : c ≠ .code64)
    (h : decode c bytes = .instr i rest) : lowRegs i.ops = true := by
  obtain ⟨p0, p1, p2, modrm, vsib, bs, f, a, -, hevex, -, -, hext, haddr, rfl⟩ := decodeEvex_eq_instr h
  have hevex' : p0.extractLsb' 6 2 = 3#2 := by simpa [isEvex, hc] using hevex
  obtain ⟨h6, h7⟩ := bits_of_extract_three hevex'
  have hbits := mt (fun hx => And.intro hc ((extensionBitClear_iff p0 p2).2 hx)) hext
  simp only [not_or, Bool.not_eq_false] at hbits
  obtain ⟨h4, h3, h5⟩ := hbits
  rw [h5] at haddr
  have hfield (r : BitVec 3) : (BitVec.ofBool (!true) ++ BitVec.ofBool (!true) ++ r).toNat < 8 := by
    have := r.isLt
    rw [toNat_register5]
    simp
    omega
  simp only [lowRegs, ops_ofForm, h4, h7, h3, h6, Bool.and_eq_true, decide_eq_true_eq]
  refine ⟨⟨hfield _, hfield _⟩, ?_⟩
  cases a with
  | noBase d => rfl
  | base r d => exact decide_eq_true (toNat_base_of_decodeAddr haddr)

/-- An instruction decoded from fetched bytes ends below the top. -/
theorem fits_of_decode {s : State} {i : Instr} {rest : List Byte}
    (h : decode s.codeSize (fetchBytes s) = .instr i rest) : s.rip.toNat + i.ops.ilen ≤ spaceSize s := by
  obtain ⟨⟨pre, hpre, hlen⟩, -, -⟩ := decodedInstructionLength _ _ _ _ h
  have hpos : 7 ≤ i.ops.ilen := by
    rw [Operands.ilen]
    omega
  have hbytes : (fetchBytes s).length = i.ops.ilen + rest.length := by rw [hpre, List.length_append, hlen]
  have hne : fetchBytes s ≠ [] := List.ne_nil_of_length_pos (by omega)
  obtain ⟨-, -, hfits, -⟩ := fetchFrom_spec s (spaceSize s) maxLength s.rip.toNat
  have hend : s.rip.toNat + (fetchBytes s).length ≤ spaceSize s := hfits hne
  omega

/-- Of a decoded instruction's own refusals that of side-effecting memory is the only one left. -/
theorem exec_of_decode {s : State} {i : Instr} {rest : List Byte}
    (h : decode s.codeSize (fetchBytes s) = .instr i rest) :
    (∃ t, exec i s = .next t) ∨ exec i s = .refused .sideEffectingMemory := by
  obtain ⟨hwrap, h32, -, hcases⟩ := everyStopIsNamed i s
  rcases hcases with hnext | hr | hr | hr
  · exact .inl hnext
  · exact absurd (fits_of_decode h) (Nat.not_le.2 (hwrap.1 hr))
  · obtain ⟨-, -, h64, hlow⟩ := h32.1 hr
    have hlow' := lowRegs_of_decode (by simpa [State.mode64] using h64) h
    simp [hlow] at hlow'
  · exact .inr hr

/-! ## The stops of a step -/

/-- The bytes at `rip` end, below the top, before the encoding does. -/
def EndsShort (s : State) : Prop :=
  decode s.codeSize (fetchBytes s) = .truncated ∧ s.rip.toNat + (fetchBytes s).length < spaceSize s

/-- One of the `n` bytes from `rip` on has changed in this run. -/
def TextChanged (s : State) (n : Nat) : Prop := ∃ k < n, (linear s .cs s.rip k).toNat ∈ s.changed

/-- When a step stops with this fault. -/
def FaultsWhen (s : State) : Fault → Prop
  | .awaitingHandler => s.delivered.isSome = true ∧ s.handlers = []
  | .fetchUnmapped =>
    LooksAtRip s ∧ EndsShort s ∧ (fetchBytes s).length < 15 ∧ ¬ TextChanged s ((fetchBytes s).length + 1)

/-- When a step is refused with this reason. -/
def RefusesWhen (s : State) : Refusal → Prop
  | .notModelled _ => False
  | .notThisInstruction => LooksAtRip s ∧ decode s.codeSize (fetchBytes s) = .notThisInstruction
  | .repeatedPrefix =>
    LooksAtRip s ∧ (decode s.codeSize (fetchBytes s) = .repeatedPrefix ∨ EndsShort s ∧ (fetchBytes s).length = 15)
  | .mode32ExtensionBits => LooksAtRip s ∧ decode s.codeSize (fetchBytes s) = .mode32ExtensionBits
  | .ripWrap => LooksAtRip s ∧
      (decode s.codeSize (fetchBytes s) = .truncated ∧ spaceSize s ≤ s.rip.toNat + (fetchBytes s).length ∨
        ∃ u n, decode s.codeSize (fetchBytes s) = .ud u n ∧ spaceSize s < s.rip.toNat + n)
  | .sideEffectingMemory => ∃ i rest, decode s.codeSize (fetchBytes s) = .instr i rest ∧ FetchesHere s i.ops.ilen ∧
      instrBreakpoints s = [] ∧ exec i s = .refused .sideEffectingMemory
  | .textModified =>
    (s.delivered.isSome = true ∧ ∃ r hs, s.handlers = r :: hs ∧ applyEdits { s with handlers := hs } r.edits = none) ∨
      (LooksAtRip s ∧
        ((∃ i rest, decode s.codeSize (fetchBytes s) = .instr i rest ∧ TextChanged s i.ops.ilen) ∨
          (∃ u n, decode s.codeSize (fetchBytes s) = .ud u n ∧ s.rip.toNat + n ≤ spaceSize s ∧ TextChanged s n) ∨
          (EndsShort s ∧ (fetchBytes s).length < 15 ∧ TextChanged s ((fetchBytes s).length + 1))))

/-- What is done instead of going on to a next state is done under its condition. -/
def StopsRightly (s : State) (out : Host.Outcome State Fault Refusal) : Prop :=
  (∃ t, out = .next t) ∨ (∃ r, out = .fault r ∧ FaultsWhen s r) ∨ ∃ r, out = .refused r ∧ RefusesWhen s r

section

variable {s : State}

/-- Edits neither deliver an event nor finish with one. -/
theorem applyEdit_delivered (s : State) (e : HandlerEdit) : (applyEdit s e).delivered.isSome = s.delivered.isSome := by
  cases e with
  | setSavedRip v => exact Option.isSome_map
  | setSavedFlags v => exact Option.isSome_map
  | _ => rfl

theorem applyEdits_delivered {es : List HandlerEdit} {t : State} (h : applyEdits s es = some t) :
    t.delivered.isSome = s.delivered.isSome := by
  induction es generalizing s with
  | nil => rw [Option.some.inj h]
  | cons e es ih =>
    rw [applyEdits] at h
    split at h
    · cases h
    · rw [ih h, applyEdit_delivered]

theorem act_of_delivered (h : s.delivered.isSome = true) : act s = runHandler s :=
  if_pos h

theorem runHandler_stopsRightly (h : s.delivered.isSome = true) : StopsRightly s (runHandler s) := by
  cases hh : s.handlers with
  | nil => exact .inr (.inl ⟨.awaitingHandler, by simp only [runHandler, hh], h, hh⟩)
  | cons r hs =>
    cases ht : applyEdits { s with handlers := hs } r.edits with
    | none => exact .inr (.inr ⟨.textModified, by simp only [runHandler, hh, ht], .inl ⟨h, r, hs, hh, ht⟩⟩)
    | some t =>
      obtain ⟨d, hd⟩ := Option.isSome_iff_exists.1 ((applyEdits_delivered ht).trans h)
      exact .inl ⟨leaveHandler r.exit d t, by simp only [runHandler, hh, ht, hd]⟩

theorem truncatedFetch_eq (s : State) : truncatedFetch s =
    if spaceSize s ≤ s.rip.toNat + (fetchBytes s).length then .refused .ripWrap
    else if (fetchBytes s).length = 15 then .refused .repeatedPrefix
    else if textChanged s ((fetchBytes s).length + 1) = true then .refused .textModified
    else .fault .fetchUnmapped := rfl

theorem fetchBytes_length_le (s : State) : (fetchBytes s).length ≤ 15 :=
  (fetchFrom_spec s (spaceSize s) maxLength s.rip.toNat).2.1

theorem truncatedFetch_stopsRightly (hlooks : LooksAtRip s) (hd : decode s.codeSize (fetchBytes s) = .truncated) :
    StopsRightly s (truncatedFetch s) := by
  have hlen := fetchBytes_length_le s
  rw [truncatedFetch_eq]
  split_ifs with htop h15 htext
  · exact .inr (.inr ⟨_, rfl, hlooks, .inl ⟨hd, htop⟩⟩)
  · exact .inr (.inr ⟨_, rfl, hlooks, .inr ⟨⟨hd, Nat.not_le.1 htop⟩, h15⟩⟩)
  · exact .inr (.inr ⟨.textModified, rfl, .inr ⟨hlooks, .inr (.inr
      ⟨⟨hd, Nat.not_le.1 htop⟩, by omega, (textChanged_eq_true_iff s _).1 htext⟩)⟩⟩)
  · exact .inr (.inl ⟨.fetchUnmapped, rfl, hlooks, ⟨hd, Nat.not_le.1 htop⟩, by omega,
      mt (textChanged_eq_true_iff s _).2 htext⟩)

/-- An encoding at `rip` whose bytes have not changed takes its breakpoints or runs. -/
theorem atInstruction_stopsRightly {n : Nat} {run : Host.Outcome State Fault Refusal}
    (hchanged : TextChanged s n → RefusesWhen s .textModified)
    (hrun : textChanged s n = false → instrBreakpoints s = [] → StopsRightly s run) :
    StopsRightly s (atInstruction s n run) := by
  cases htext : textChanged s n with
  | true =>
    rw [atInstruction_of_changed _ htext]
    exact .inr (.inr ⟨_, rfl, hchanged ((textChanged_eq_true_iff s n).1 htext)⟩)
  | false =>
    by_cases hbreak : instrBreakpoints s = []
    · rw [atInstruction_of_quiet _ htext hbreak]
      exact hrun htext hbreak
    · rw [atInstruction_of_breakpoint _ htext hbreak]
      exact .inl ⟨_, rfl⟩

theorem runAtRip_stopsRightly (hlooks : LooksAtRip s) : StopsRightly s (runAtRip s) := by
  cases hd : decode s.codeSize (fetchBytes s) with
  | instr i rest =>
    rw [runAtRip_of_instr hd]
    refine atInstruction_stopsRightly (fun h => .inr ⟨hlooks, .inl ⟨i, rest, hd, h⟩⟩) fun htext hbreak => ?_
    rcases exec_of_decode hd with ⟨t, ht⟩ | hr
    · exact .inl ⟨_, by simp only [execute, ht]; rfl⟩
    · exact .inr (.inr ⟨.sideEffectingMemory, by simp only [execute, hr], i, rest, hd,
        ⟨hlooks, (textChanged_eq_false s _).1 htext⟩, hbreak, hr⟩)
  | ud u n =>
    rw [runAtRip_of_ud hd]
    by_cases hfits : s.rip.toNat + n ≤ spaceSize s
    · rw [takeUd_of_fits hfits]
      exact atInstruction_stopsRightly (fun h => .inr ⟨hlooks, .inr (.inl ⟨u, n, hd, hfits, h⟩)⟩) fun _ _ => .inl ⟨_, rfl⟩
    · rw [takeUd_of_crossesTop (Nat.not_le.1 hfits)]
      exact .inr (.inr ⟨.ripWrap, rfl, hlooks, .inr ⟨u, n, hd, Nat.not_le.1 hfits⟩⟩)
  | repeatedPrefix => exact .inr (.inr ⟨.repeatedPrefix, by simp only [runAtRip, hd], hlooks, .inl hd⟩)
  | mode32ExtensionBits => exact .inr (.inr ⟨.mode32ExtensionBits, by simp only [runAtRip, hd], hlooks, hd⟩)
  | notThisInstruction => exact .inr (.inr ⟨.notThisInstruction, by simp only [runAtRip, hd], hlooks, hd⟩)
  | truncated =>
    rw [runAtRip_of_truncated hd]
    exact truncatedFetch_stopsRightly hlooks hd

/-- Every stop of a step has its condition. -/
theorem act_stopsRightly (s : State) : StopsRightly s (act s) := by
  by_cases hd : s.delivered.isSome = true
  · rw [act_of_delivered hd]
    exact runHandler_stopsRightly hd
  have hquiet : s.delivered = none := by simpa using hd
  by_cases ht : s.pendingTraps = []
  · cases he : endingHandler s with
    | some fr => exact .inl ⟨resumeHandler fr s, by simp [act, hquiet, ht, he]⟩
    | none =>
      have hlooks : LooksAtRip s := ⟨hquiet, ht, (endingHandler_none s).1 he⟩
      rw [act_of_looksAtRip s hlooks]
      exact runAtRip_stopsRightly hlooks
  · exact .inl ⟨deliverBetween s, by simp [act, hquiet, ht]⟩

/-- Each condition of a fault stops a step. -/
theorem act_of_faultsWhen {r : Fault} (h : FaultsWhen s r) : act s = .fault r := by
  cases r with
  | awaitingHandler =>
    obtain ⟨hd, hh⟩ := h
    rw [act_of_delivered hd]
    simp only [runHandler, hh]
  | fetchUnmapped =>
    obtain ⟨hlooks, ⟨hd, hbelow⟩, hlen, htext⟩ := h
    rw [act_of_looksAtRip s hlooks, runAtRip_of_truncated hd, truncatedFetch_eq, if_neg (by omega), if_neg (by omega),
      if_neg (mt (textChanged_eq_true_iff s _).1 htext)]

/-- So does each condition of a refusal. -/
theorem act_of_refusesWhen {r : Refusal} (h : RefusesWhen s r) : act s = .refused r := by
  cases r with
  | notModelled m => exact h.elim
  | notThisInstruction =>
    obtain ⟨hlooks, hd⟩ := h
    simp only [act_of_looksAtRip s hlooks, runAtRip, hd]
  | repeatedPrefix =>
    obtain ⟨hlooks, hd | ⟨⟨hd, hbelow⟩, h15⟩⟩ := h
    · simp only [act_of_looksAtRip s hlooks, runAtRip, hd]
    · rw [act_of_looksAtRip s hlooks, runAtRip_of_truncated hd, truncatedFetch_eq, if_neg (by omega), if_pos h15]
  | mode32ExtensionBits =>
    obtain ⟨hlooks, hd⟩ := h
    simp only [act_of_looksAtRip s hlooks, runAtRip, hd]
  | ripWrap =>
    obtain ⟨hlooks, ⟨hd, htop⟩ | ⟨u, n, hd, hcross⟩⟩ := h
    · rw [act_of_looksAtRip s hlooks, runAtRip_of_truncated hd, truncatedFetch_eq, if_pos htop]
    · rw [act_of_looksAtRip s hlooks, runAtRip_of_ud hd, takeUd_of_crossesTop hcross]
  | sideEffectingMemory =>
    obtain ⟨i, rest, hd, hfetch, hbreak, hr⟩ := h
    rw [act_of_decoded s i rest hfetch hbreak hd]
    simp only [execute, hr]
  | textModified =>
    rcases h with ⟨hd, r, hs, hh, ht⟩ | ⟨hlooks, ⟨i, rest, hd, htext⟩ | ⟨u, n, hd, hfits, htext⟩ | ⟨⟨hd, hbelow⟩, hlen, htext⟩⟩
    · rw [act_of_delivered hd]
      simp only [runHandler, hh, ht]
    · rw [act_of_looksAtRip s hlooks, runAtRip_of_instr hd,
        atInstruction_of_changed _ ((textChanged_eq_true_iff s _).2 htext)]
    · rw [act_of_looksAtRip s hlooks, runAtRip_of_ud hd, takeUd_of_fits hfits,
        atInstruction_of_changed _ ((textChanged_eq_true_iff s _).2 htext)]
    · rw [act_of_looksAtRip s hlooks, runAtRip_of_truncated hd, truncatedFetch_eq, if_neg (by omega), if_neg (by omega),
        if_pos ((textChanged_eq_true_iff s _).2 htext)]

end

theorem step_fault_iff (s : State) (r : Fault) : step s = .fault r ↔ FaultsWhen s r := by
  refine ⟨fun h => ?_, fun h => step_of_act_fault (act_of_faultsWhen h)⟩
  rcases act_stopsRightly s with ⟨t, ha⟩ | ⟨r', ha, hw⟩ | ⟨r', ha, -⟩
  · simp [step_of_act_next ha] at h
  · obtain rfl : r' = r := by simpa [step_of_act_fault ha] using h
    exact hw
  · simp [step_of_act_refused ha] at h

theorem step_refused_iff (s : State) (r : Refusal) : step s = .refused r ↔ RefusesWhen s r := by
  refine ⟨fun h => ?_, fun h => step_of_act_refused (act_of_refusesWhen h)⟩
  rcases act_stopsRightly s with ⟨t, ha⟩ | ⟨r', ha, -⟩ | ⟨r', ha, hw⟩
  · simp [step_of_act_next ha] at h
  · simp [step_of_act_fault ha] at h
  · obtain rfl : r' = r := by simpa [step_of_act_refused ha] using h
    exact hw

/-- Settles O14: each stop, reason by reason. -/
theorem everyStopOfAStepIsNamed : Obligations.EveryStopOfAStepIsNamed := by
  unfold Obligations.EveryStopOfAStepIsNamed
  intro s
  exact ⟨step_fault_iff s .awaitingHandler, step_fault_iff s .fetchUnmapped, step_refused_iff s .notThisInstruction,
    step_refused_iff s .repeatedPrefix, step_refused_iff s .mode32ExtensionBits, step_refused_iff s .ripWrap,
    step_refused_iff s .sideEffectingMemory, step_refused_iff s .textModified,
    fun m h => (step_refused_iff s (.notModelled m)).1 h⟩

end Sys2Proof.Proofs
end

section
/-! Handlers, program text and nested events: the settled statements. -/

namespace Sys2Proof.Proofs

open Sys2Proof.Machine Sys2Proof.Laws

/-! ## Handler runs (60 R136, R137) -/

section

variable {s : State} {d : Delivery} {x : HandlerExit} {hs : List HandlerRun}

/-- A run that does nothing ends at once. -/
theorem step_emptyRun (hd : s.delivered = some d) (hh : s.handlers = { edits := [], exit := x } :: hs) :
    step s = .next (leaveHandler x d { s with handlers := hs }).tock :=
  step_handlerRun s _ d d _ hs hd hh rfl hd

/-- What has no place among the edits does not bear on whether text is touched. -/
theorem touchesText_withHandlers (s : State) (hs : List HandlerRun) (e : HandlerEdit) :
    touchesText { s with handlers := hs } e = touchesText s e := by
  cases e <;> rfl

theorem applyEdit_withHandlers (s : State) (hs : List HandlerRun) (e : HandlerEdit) :
    applyEdit { s with handlers := hs } e = { applyEdit s e with handlers := hs } := by
  cases e <;> rfl

theorem applyEdits_cons {e : HandlerEdit} (es : List HandlerEdit) (h : touchesText s e = false) :
    applyEdits s (e :: es) = applyEdits (applyEdit s e) es := by
  rw [applyEdits, h, if_neg Bool.false_ne_true]

theorem applyEdits_of_touchesText {e : HandlerEdit} (es : List HandlerEdit) (h : touchesText s e = true) :
    applyEdits s (e :: es) = none :=
  if_pos h

/-- A run of one edit that may be done. -/
theorem step_singleEdit {e : HandlerEdit} {d' : Delivery} (hd : s.delivered = some d)
    (hh : s.handlers = { edits := [e], exit := x } :: hs) (htext : touchesText s e = false)
    (hd' : (applyEdit { s with handlers := hs } e).delivered = some d') :
    step s = .next (leaveHandler x d' (applyEdit { s with handlers := hs } e)).tock :=
  step_handlerRun s _ d d' _ hs hd hh (applyEdits_cons [] ((touchesText_withHandlers s hs e).trans htext)) hd'

end

/-- Settles O53: the empty run's return. -/
theorem handlerReturns : Obligations.HandlerReturns := by
  unfold Obligations.HandlerReturns
  intro s d hs hd hh
  exact step_emptyRun hd hh

/-- Settles O57: the empty run's code begins; where it ends the event is handled again. -/
theorem handlerRunsItsOwnCode : Obligations.HandlerRunsItsOwnCode := by
  unfold Obligations.HandlerRunsItsOwnCode
  refine ⟨fun s d entry stop flags hs hd hh => step_emptyRun hd hh, fun s fr frs hquiet htraps houter hstop => ?_⟩
  have hending : endingHandler s = some fr := by simp [endingHandler, houter, hstop]
  have hact : act s = .next (resumeHandler fr s) := by simp [act, hquiet, htraps, hending]
  rw [step_of_act_next hact, resumeHandler, houter]
  rfl

/-- Settles O55: the first edit may be done, and the run goes on from the state it leaves. -/
theorem handlerEditsAreInOrder : Obligations.HandlerEditsAreInOrder := by
  unfold Obligations.HandlerEditsAreInOrder
  intro s d e es x hs hd hh htext
  have hsome : s.delivered.isSome = true := by rw [hd]; rfl
  have hafter := (applyEdit_delivered { s with handlers := { edits := es, exit := x } :: hs } e).trans hsome
  have hrun : runHandler s = runHandler (applyEdit { s with handlers := { edits := es, exit := x } :: hs } e) := by
    simp only [runHandler, hh, applyEdits_cons es ((touchesText_withHandlers s hs e).trans htext), applyEdit_withHandlers]
  simp only [step, cycle, act_of_delivered hsome, act_of_delivered hafter, hrun]

/-- Settles O54: the state after the edit, then the return. -/
theorem handlerEditsTakeEffect : Obligations.HandlerEditsTakeEffect := by
  unfold Obligations.HandlerEditsTakeEffect
  intro s d e hs hd hh htext back
  have hstep := step_singleEdit (d' := d) hd hh htext
  cases e with
  | mapByte la b => exact ⟨_, hstep hd, rfl, fun a => read_write s.mem la.toNat a b⟩
  | unmapByte la => exact ⟨_, hstep hd, rfl, fun a => read_erase s.mem la.toNat a⟩
  | setZmm i v => exact ⟨_, hstep hd, rfl, fun r => getZmm_setZmm s i r v⟩
  | setMask i v => exact ⟨_, hstep hd, rfl, fun r => getMask_setMask s i r v⟩
  | setGpr i v => exact ⟨_, hstep hd, rfl, fun r => getGpr_setGpr s i r v⟩
  | setDr n v =>
    refine ⟨_, hstep hd, rfl, fun m => ?_⟩
    show (s.dr.set n.val v n.isLt)[m.val] = _
    rw [Vector.getElem_set]
    simp only [Fin.ext_iff, eq_comm]
    rfl
  | setSavedRip v =>
    exact ⟨_, step_singleEdit (d' := { d with savedRip := v }) hd hh htext (by simp [applyEdit, hd]), rfl⟩
  | setSavedFlags v =>
    exact ⟨_, step_singleEdit (d' := { d with savedFlags := v }) hd hh htext (by simp [applyEdit, hd]), rfl⟩
  | _ => exact ⟨_, hstep hd, rfl⟩

/-! ## Program text (20 R47) -/

theorem inRegion_text {s : State} {la : Qword} {r : Region} (hr : r ∈ s.regions) (hk : r.kind = .text)
    (hlo : r.lo ≤ la.toNat) (hhi : la.toNat < r.hi) : s.inRegion (fun k => decide (k = .text)) la = true :=
  List.any_eq_true.2 ⟨r, hr, by simp [hk, (contains_iff r la).2 ⟨hlo, hhi⟩]⟩

theorem mem_noteChange (s : State) (la : Qword) (b : Option Byte) (a : Nat) :
    a ∈ noteChange s la b ↔ a ∈ s.changed ∨ (a = la.toNat ∧ Memory.read s.mem a ≠ b) := by
  unfold noteChange
  split
  · rename_i h
    refine ⟨.inl, ?_⟩
    rintro (hmem | ⟨rfl, hne⟩)
    · exact hmem
    · exact absurd h hne
  · rename_i h
    rw [List.mem_insert_iff, or_comm]
    refine or_congr_right ⟨?_, And.left⟩
    rintro rfl
    exact ⟨rfl, h⟩

/-- Settles O56: touched text refuses the run, a change is noted, and a changed byte refuses what stands at `rip`. -/
theorem modifiedTextIsRefused : Obligations.ModifiedTextIsRefused := by
  unfold Obligations.ModifiedTextIsRefused
  refine ⟨fun s d e es x hs hd hh h => ?_, fun s la b a => ⟨mem_noteChange s la (some b) a, mem_noteChange s la none a⟩,
    fun s n k hlooks hfits hdecode hk hchanged => ?_⟩
  · have htext : touchesText s e = true := by
      rcases h with ⟨la, b, r, rfl, hb, hr, hkind, hlo, hhi⟩ | ⟨la, b, r, rfl, hb, hr, hkind, hlo, hhi⟩ |
        ⟨rs, r, rfl, hr, hkind, hnot⟩
      · simp [touchesText, inRegion_text hr hkind hlo hhi, hb]
      · simp [touchesText, inRegion_text hr hkind hlo hhi, hb]
      · refine decide_eq_true fun heq => hnot ?_
        have hmem : r ∈ s.regions.filter Region.isText := List.mem_filter.2 ⟨hr, decide_eq_true hkind⟩
        rw [← heq] at hmem
        exact (List.mem_filter.1 hmem).1
    refine (step_refused_iff s .textModified).2 (.inl ⟨by rw [hd]; rfl, _, hs, hh, ?_⟩)
    exact applyEdits_of_touchesText es ((touchesText_withHandlers s hs e).trans htext)
  · refine (step_refused_iff s .textModified).2 (.inr ⟨hlooks, ?_⟩)
    rcases hdecode with ⟨i, rest, hd, rfl⟩ | ⟨u, hd⟩
    · exact .inl ⟨i, rest, hd, k, hk, hchanged⟩
    · exact .inr (.inl ⟨u, n, hd, hfits, k, hk, hchanged⟩)

/-! ## Nested events (60 R137) -/

section

variable (f : Form) (o : Operands) (s : State) (outer : List Frame)

theorem sameAccess_outer : SameAccess { s with outer := outer } s := by
  constructor <;> rfl

theorem answer_outer : answer f o { s with outer := outer } = answer f o s :=
  funext fun j => (answer_congr (sameAccess_outer s outer) f o j rfl rfl).1

theorem choicesOf_outer : choicesOf f o { s with outer := outer } = choicesOf f o s := by
  have hinputs : inputs f o { s with outer := outer } = inputs f o s := by
    simp only [inputs, answer_outer]
    rfl
  simp only [choicesOf, hinputs]
  rfl

theorem commit_outer (done : List Nat) (zd zk : Bool) :
    commit f o done zd zk { s with outer := outer } = { commit f o done zd zk s with outer := outer } := by
  have hvalue : elemValue f o { s with outer := outer } = elemValue f o s := by
    funext j
    simp only [elemValue, answer_outer]
  simp only [commit, hvalue]
  rfl

theorem deliverPending_outer (l : Bool) (p : Pending) :
    deliverPending l p { s with outer := outer } = { deliverPending l p s with outer := outer } := by
  cases p <;> rfl

theorem isOk_outer : isOk f o { s with outer := outer } = isOk f o s := by
  funext j
  simp only [isOk, answer_outer]

theorem interrupted_outer (ch : Choices) :
    interrupted ch f o { s with outer := outer } = { interrupted ch f o s with outer := outer } := by
  have hcommit := commit_outer f o s.tick outer (interruptedDone ch f o s) ch.zd ch.zk
  have hdone : interruptedDone ch f o { s with outer := outer } = interruptedDone ch f o s := by
    simp only [interruptedDone, isOk_outer]
    rfl
  show deliverPending true .interrupt
    (commit f o (interruptedDone ch f o { s with outer := outer }) ch.zd ch.zk { s.tick with outer := outer }) = _
  rw [hdone, hcommit, deliverPending_outer]
  rfl

theorem suspended_outer (ch : Choices) (j0 : Nat) (e : AccessFault) :
    suspended ch f o { s with outer := outer } j0 e = { suspended ch f o s j0 e with outer := outer } := by
  have hleft : leftOf ch f o { s with outer := outer } j0 = leftOf ch f o s j0 := by
    simp only [leftOf, isOk_outer]
    rfl
  have hcommit := commit_outer f o s.tick outer (rightOf f o s j0 ++ leftOf ch f o s j0) ch.zd ch.zk
  unfold suspended
  simp only [hleft]
  rw [show commit f o (rightOf f o { s with outer := outer } j0 ++ leftOf ch f o s j0) ch.zd ch.zk
    (State.tick { s with outer := outer }) = _ from hcommit]
  split_ifs with h1 h2 h2
  · rfl
  · exact absurd h1 h2
  · exact absurd h2 h1
  · exact deliverPending_outer _ outer _ _

theorem completed_outer : completed f o { s with outer := outer } = { completed f o s with outer := outer } :=
  congrArg (advance o.ilen) (commit_outer f o s outer (active f o s) true true)

variable {f o s}

theorem gatherBody_outer {ch : Choices} {t : State} (h : gatherBody ch f o s = .next t) :
    gatherBody ch f o { s with outer := outer } = .next { t with outer := outer } := by
  have hside : hitsSideEffect f o { s with outer := outer } = hitsSideEffect f o s := by
    simp only [hitsSideEffect, answer_outer]
    rfl
  have hfault : firstFault f o { s with outer := outer } = firstFault f o s := by
    simp only [firstFault, answer_outer]
    rfl
  unfold gatherBody at h ⊢
  rw [hside, hfault]
  by_cases hs : hitsSideEffect f o s = true
  · rw [if_pos hs] at h
    cases h
  rw [if_neg hs] at h ⊢
  by_cases hi : (s.interruptPending && ch.interrupted) = true
  · rw [if_pos hi] at h
    obtain rfl := Host.Outcome.next.inj h
    exact (if_pos hi).trans (congrArg _ (interrupted_outer f o s outer ch))
  · rw [if_neg hi] at h
    refine (if_neg hi).trans ?_
    cases hf : firstFault f o s with
    | some je =>
      rw [hf] at h
      obtain rfl := Host.Outcome.next.inj h
      exact congrArg _ (suspended_outer f o s outer ch je.1 je.2)
    | none =>
      rw [hf] at h
      obtain rfl := Host.Outcome.next.inj h
      have hstart : (if s.interruptPending then State.tick { s with outer := outer } else { s with outer := outer }) =
          { (if s.interruptPending then s.tick else s) with outer := outer } := by
        split <;> rfl
      exact congrArg Host.Outcome.next ((congrArg (completed f o) hstart).trans (completed_outer f o _ outer))

/-- An execution does the same whatever events are being handled. -/
theorem exec_outer {i : Instr} {t : State} (h : exec i s = .next t) :
    exec i { s with outer := outer } = .next { t with outer := outer } := by
  rw [exec_eq_gatherWith, choicesOf_outer]
  rw [exec_eq_gatherWith] at h
  generalize choicesOf i.form i.ops s = ch at h ⊢
  unfold gatherWith at h ⊢
  split_ifs at h with hcross hud hregs hts
  · obtain rfl := Host.Outcome.next.inj h
    exact (if_neg hcross).trans (if_pos hud)
  · obtain rfl := Host.Outcome.next.inj h
    exact (if_neg hcross).trans ((if_neg hud).trans ((if_neg hregs).trans (if_pos hts)))
  · exact (if_neg hcross).trans ((if_neg hud).trans ((if_neg hregs).trans ((if_neg hts).trans (gatherBody_outer outer h))))

end

/-- Settles O58: executions neither read nor write what is being handled, and no other step outside the environment's takes from
it but the end of the innermost handler's code. -/
theorem nestedEventsAreIndependent : Obligations.NestedEventsAreIndependent := by
  unfold Obligations.NestedEventsAreIndependent
  refine ⟨fun i s t outer h => ⟨by rw [exec_frame h], exec_outer outer h⟩, fun s t hquiet hkeep hstep => ?_⟩
  obtain ⟨t', rfl, hcases⟩ := step_cases s t hstep
  rcases hcases with ⟨d, _, _, _, _, hsome, -⟩ | ⟨-, -, rfl⟩ | ⟨fr, -, htraps, hfr, -⟩ | ⟨-, -, -, hrun⟩
  · simp [hquiet] at hsome
  · rw [deliverBetween, deliverPending_frame]
    rfl
  · obtain ⟨hhead, hrip⟩ := endingHandler_some s fr hfr
    rcases hkeep with hne | hstop
    · exact absurd htraps hne
    · exact absurd hrip (hstop fr hhead)
  · rcases hrun with ⟨-, rfl⟩ | ⟨-, rfl⟩ | ⟨i, rest, u, -, -, hexec, rfl⟩
    · rfl
    · rfl
    · rw [exec_frame hexec]
      split <;> rfl

end Sys2Proof.Proofs
end
